-- ==== Sys2Proof/Word.lean ====
section
/-! DEFINITION. The bit-vector types of the spec's widths and the three sizes an instruction can have. -/

namespace Sys2Proof

/-- A byte of memory or of an instruction (rule R31). -/
abbrev Byte := BitVec 8

/-- A segment selector or an error code (rules R15, R117). -/
abbrev Selector := BitVec 16

/-- A register of 64 bits or a linear address (rules R13, R14, R31). -/
abbrev Word := BitVec 64

/-- The values of `OperandSize` and of `StackAddressSize` (rules R4, R57). -/
inductive Size
  | s16
  | s32
  | s64
deriving DecidableEq, Repr

/-- The width in bits. -/
def Size.bits : Size → Nat
  | .s16 => 16
  | .s32 => 32
  | .s64 => 64

/-- The width in bytes: the `n = OperandSize / 8` of rules R36 and R56. -/
def Size.bytes : Size → Nat
  | .s16 => 2
  | .s32 => 4
  | .s64 => 8

end Sys2Proof
end

