-- ==== Sys2Proof/Config.lean ====
section
/-! DEFINITION. The launch parameters the spec leaves to the implementation (rule R4, decisions D8, D10, D11, D14,
D15, D17, D23, D28, D30) and the free values it leaves open (rule R12). The parameters are plain data, so that a
machine state carries them (`Machine.State.params`) and a claim over every state holds for every value of each. The
free values have no body: nothing can be proved of one. -/

namespace Sys2Proof.Config

/-- `NEAR_RET_66H_64`, which the spec leaves OPEN (decision D28): what a 66H prefix does to a near return in 64-bit
mode. -/
inductive NearRet66
  /-- The operand size stays 64. -/
  | ignored
  /-- The operand size is 16. -/
  | honoured
deriving DecidableEq, Repr

/-- `NULL_SS_POLICY` (rule R105, decision D17): a NULL stack selector that passes the IA-32e NULL arm. -/
inductive NullSsPolicy
  /-- The spec's default: the case has no meaning. -/
  | refuse
  /-- The selector is loaded and the register marked unusable. -/
  | loadNull
deriving DecidableEq, Repr

/-- `UPPER_SP_POLICY` (rules R14, R93; decisions D14, D15): the stack-pointer bits above the written width. -/
inductive UpperSpPolicy
  /-- The spec's default: any value. -/
  | draw
  /-- Zero. -/
  | zero
deriving DecidableEq, Repr

/-- The `kind` of a memory access (rule R49). -/
inductive AccessKind
  | stackRead
  | tableRead
  | tableWrite
  | fetch
deriving DecidableEq, Repr

/-- One clause of the launch memory's `mem_admit` (rule R49): accesses of `size` bytes and this kind that start at an
address from `first` to `last` are not admitted. Any predicate of address, size and kind is a list of such clauses. -/
structure Denial where
  kind : AccessKind
  size : Nat
  first : Nat
  last : Nat
deriving DecidableEq, Repr

/-- The launch parameters of rule R4. -/
structure Params where
  /-- `VA_BITS`, the number of implemented linear-address bits (rule R35, decision D8). -/
  vaBits : Nat
  /-- `NEAR_RET_66H_64` (rule R61). -/
  nearRet66 : NearRet66
  /-- `NULL_SS_POLICY` (rule R105). -/
  nullSs : NullSsPolicy
  /-- `UPPER_SP_POLICY` (rules R14, R93). -/
  upperSp : UpperSpPolicy
  /-- `SET_ACCESSED` (rule R54). -/
  setAccessed : Bool
  /-- `mem_admit` (rule R49), as the list of the accesses it does not admit. -/
  denied : List Denial
  /-- The architecture's alignment check is on: such a launch is refused (rule R46, decision D10). -/
  alignmentCheck : Bool
  /-- Shadow stacks, control-flow enforcement or another feature that adds checks to a return is on: such a launch is
  refused (rule R123, decision D30, `93_implementation_defined.md` U15). -/
  extraChecks : Bool
deriving DecidableEq, Repr

/-- The defaults of rule R4. The spec gives `NEAR_RET_66H_64` none: `ignored` is a DESIGN CHOICE (log entry 5). -/
def Params.default : Params where
  vaBits := 48
  nearRet66 := .ignored
  nullSs := .refuse
  upperSp := .draw
  setAccessed := true
  denied := []
  alignmentCheck := false
  extraChecks := false

/-- No feature is on whose launches the spec refuses (rules R46, R123; premise P6 of rule R135). -/
def Params.launchable (p : Params) : Bool := !p.alignmentCheck && !p.extraChecks

/-- `draw_32()` of rule R12, a fresh value for each count: bits 63:32 of the stack pointer after a 32-bit write
outside 64-bit mode (rule R14). FREE VALUE (log entry 6). -/
opaque draw32 : Nat → BitVec 32

/-- `draw_16()` of rule R12: bits 31:16 of `ESP` after a 16-bit return to an outer level (rule R93). FREE VALUE (log
entry 6). -/
opaque draw16 : Nat → BitVec 16

end Sys2Proof.Config
end

