-- ==== Sys2Proof/Syntax.lean ====
section
/-! DEFINITION. The four instruction forms, decoded (rule R57), one constructor for each row of the opcode table. -/

namespace Sys2Proof

/-- The two kinds of return (rule R1). -/
inductive Kind
  | near
  | far
deriving DecidableEq, Repr

/-- The decoded return instruction of rule R57, the record every rule of the operation is a function of. -/
structure RetInstr where
  kind : Kind
  hasImm : Bool
  /-- `SRC`: 16 bits, unsigned; 0 when there is no immediate operand (decision D12). -/
  src : BitVec 16
  operandSize : Size
  stackAddressSize : Size
deriving DecidableEq, Repr

/-- The instructions: `os` is `OperandSize` and `as` is `StackAddressSize` (rule R57), and `imm16` is `SRC`. -/
inductive Instr
  /-- `RET` (rule R73). -/
  | ret (os : Size) (as : Size)
  /-- `RET imm16` (rule R74). -/
  | retImm16 (imm16 : BitVec 16) (os : Size) (as : Size)
  /-- `RETF` (rule R78). -/
  | retf (os : Size) (as : Size)
  /-- `RETF imm16` (rule R79). -/
  | retfImm16 (imm16 : BitVec 16) (os : Size) (as : Size)
deriving DecidableEq, Repr

/-- The record of rule R57 an instruction stands for. -/
def Instr.record : Instr → RetInstr
  | .ret os as => ⟨.near, false, 0, os, as⟩
  | .retImm16 imm16 os as => ⟨.near, true, imm16, os, as⟩
  | .retf os as => ⟨.far, false, 0, os, as⟩
  | .retfImm16 imm16 os as => ⟨.far, true, imm16, os, as⟩

/-- The instruction of a kind, with or without an immediate operand. -/
def Instr.ofKind (kind : Kind) (imm : Option (BitVec 16)) (os as : Size) : Instr :=
  match kind, imm with
  | .near, none => .ret os as
  | .near, some i => .retImm16 i os as
  | .far, none => .retf os as
  | .far, some i => .retfImm16 i os as

end Sys2Proof
end

