-- ==== Sys2Proof/Machine/State.lean ====
section
/-! DEFINITION. The state of the machine (rules R13 to R24, R31), the reasons a run can stop (rules R11, R113), and
the state after reset (rule R28). -/

namespace Sys2Proof.Machine

/-- The hidden part of a segment register (rule R16). -/
structure SegHidden where
  valid : Bool
  base : Word
  /-- The effective limit in bytes (rule R44). -/
  limit : BitVec 32
  isCode : Bool
  conforming : Bool
  writable : Bool
  expandDown : Bool
  dpl : BitVec 2
  present : Bool
  l : Bool
  db : Bool
deriving DecidableEq, Repr

/-- A segment register: its visible selector and its hidden part (rule R15). -/
structure SegReg where
  sel : Selector
  hid : SegHidden
deriving DecidableEq, Repr

/-- The names of the six segment registers (rule R15). -/
inductive SegName
  | cs
  | ss
  | es
  | fs
  | gs
  | ds
deriving DecidableEq, Repr

/-- `GDTR` (rule R22). -/
structure GlobalTable where
  base : Word
  limit : BitVec 16
deriving DecidableEq, Repr

/-- `LDTR`: the selector and the hidden part, flat (rule R22). -/
structure LocalTable where
  sel : Selector
  valid : Bool
  base : Word
  limit : BitVec 32
deriving DecidableEq, Repr

/-- The record of a segment descriptor (rule R43). -/
structure Descriptor where
  isCode : Bool
  isWritableData : Bool
  conforming : Bool
  writable : Bool
  expandDown : Bool
  dpl : BitVec 2
  present : Bool
  l : Bool
  db : Bool
  base : Word
  limit20 : BitVec 20
  g : Bool
deriving DecidableEq, Repr

/-- The memory: the bytes that differ from what an unlisted address reads as, in rising order of address (rule R31;
log entry 1). -/
abbrev Memory := List Host.Cell

/-- The exceptions a return raises (rules R113 to R116). -/
inductive Exception
  /-- `#SS`, the stack-segment fault (rule R114). -/
  | ss
  /-- `#GP`, the general-protection fault (rule R115). -/
  | gp
  /-- `#NP`, the segment-not-present fault (rule R116). -/
  | np
deriving DecidableEq, Repr

/-- Why the machine stops with a fault. The state at a fault is the one the instruction began in (rule R121). -/
inductive Fault
  /-- `Fault(XX, e)`: a return raised exception `x` with error code `e` (rules R113, R117). Raised by every return, and
  the end of the run because the spec delivers no exception (rule R120). Safe: nothing is claimed of a handler. -/
  | exception (x : Exception) (e : Selector)
  /-- The fetch of an instruction byte at an offset beyond the limit of a code segment that is not in 64-bit mode. Raised
  by `fetchByte` (rule R71, decision D29: the model must stop there, with an exception the spec does not name). Safe. -/
  | fetchBeyondLimit
  /-- The fetch of an instruction byte at a non-canonical address in 64-bit mode. Raised by `fetchByte` (rule R71,
  decision D29). Safe. -/
  | fetchNonCanonical
deriving DecidableEq, Repr

/-- Why the model gives an instruction no meaning: `Refused(reason)` of rule R11. -/
inductive Refusal
  /-- An instruction whose meaning has not been written. Raised by an arm of `exec` alone. Safe. -/
  | notModelled (mnemonic : String)
  /-- `Refused(not in scope)`: bytes that are none of the four forms. Raised by `nextInstr` (rule R65). Safe. -/
  | notInScope
  /-- `Refused(operand size)`: a far return outside IA-32e mode with a size of 64. Raised by the far return in
  real-address, virtual-8086 and protected mode (rules R83, R84). Safe. -/
  | operandSize
  /-- `Refused(stack-wrap)`: a stack item on both sides of offset 2^16. Raised by `withinStackLimits` (rule R34). Safe. -/
  | stackWrap
  /-- `Refused(memory)`: an access the launch memory does not admit. Raised by `memRead`, `setAccessed` and `fetchByte`
  (rule R49). Safe. -/
  | memory
  /-- `Refused(null stack selector)`: an allowed NULL stack selector when `NULL_SS_POLICY` is `refuse`. Raised by
  `ia32eStackDescriptor` (rule R105). Safe. -/
  | nullStackSelector
  /-- A launch with alignment checking or with a feature that adds checks to a return. Raised by `perform` (rules R46,
  R123). Safe. -/
  | launchFeature
deriving DecidableEq, Repr

/-- How an operation stops before the instruction is done: the last two outcomes of rule R11. -/
inductive Stop
  | fault (f : Fault)
  | refused (r : Refusal)
deriving DecidableEq, Repr

/-- What an operation of the machine answers: a value, or the way it stops. -/
abbrev Res (α : Type) := Except Stop α

/-- The state of the machine. -/
structure State where
  /-- `RIP`; `EIP` is its low half (rule R13). -/
  pc : Word
  /-- `RSP`; `ESP` and `SP` are its low parts (rule R14). -/
  rsp : Word
  /-- The fifteen general registers other than the stack pointer, which the spec does not name (rule R24). -/
  gprs : Vector Word 15
  /-- The segment registers (rules R15, R16). -/
  cs : SegReg
  ss : SegReg
  es : SegReg
  fs : SegReg
  gs : SegReg
  ds : SegReg
  /-- The current privilege level (rule R17). -/
  cpl : BitVec 2
  /-- The mode bits `PE`, `VM` and `IA32_EFER.LMA` (rule R18). -/
  pe : Bool
  vm : Bool
  lma : Bool
  /-- The descriptor-table registers (rule R22). -/
  gdtr : GlobalTable
  ldtr : LocalTable
  /-- The memory (rule R31). -/
  mem : Memory
  /-- The launch parameters (rule R4): fixed for a run. -/
  params : Config.Params
  /-- The MODEL's own field: how many free values the run has drawn (rule R12; log entry 6). -/
  draws : Nat
deriving DecidableEq, Repr

/-- What rule R28 gives `CS` after reset: a present, readable code segment. -/
def SegHidden.resetCode : SegHidden where
  valid := true
  base := 0xFFFF0000
  limit := 0xFFFF
  isCode := true
  conforming := false
  writable := false
  expandDown := false
  dpl := 0
  present := true
  l := false
  db := false

/-- What rule R28 gives the other segment registers after reset: a present, writable data segment. -/
def SegHidden.resetData : SegHidden where
  valid := true
  base := 0
  limit := 0xFFFF
  isCode := false
  conforming := false
  writable := true
  expandDown := false
  dpl := 0
  present := true
  l := false
  db := false

/-- The state right after reset: the table of rule R28, and the defaults of rule R4 for the launch parameters. Where
the table is silent the value is the model's (log entries 2, 3, 4, 5, 6). -/
def State.reset : State where
  pc := 0xFFF0
  rsp := 0
  gprs := Vector.replicate 15 0
  cs := ⟨0xF000, .resetCode⟩
  ss := ⟨0, .resetData⟩
  es := ⟨0, .resetData⟩
  fs := ⟨0, .resetData⟩
  gs := ⟨0, .resetData⟩
  ds := ⟨0, .resetData⟩
  cpl := 0
  pe := false
  vm := false
  lma := false
  gdtr := ⟨0, 0xFFFF⟩
  ldtr := ⟨0, true, 0, 0xFFFF⟩
  mem := []
  params := .default
  draws := 0

end Sys2Proof.Machine
end

