-- ==== Sys2Proof/WellFormed.lean ====
section
/-! DEFINITION. Which decoded instructions a byte sequence can stand for: the premise P2 of rule R135, from the size
tables of rules R61 and R62. -/

namespace Sys2Proof

/-- What the state gives the decoder (rules R61 to R63). -/
structure DecodeCtx where
  /-- `Mode64` of rule R19. -/
  mode64 : Bool
  /-- `CS.hid.DB`. -/
  csDB : Bool
  /-- `SS.hid.DB`. -/
  ssDB : Bool
  nearRet66 : Config.NearRet66
deriving DecidableEq, Repr

/-- Rule R62: the stack-address size the state gives. -/
def DecodeCtx.stackAddressSize (c : DecodeCtx) : Size :=
  if c.mode64 then .s64 else if c.ssDB then .s32 else .s16

/-- Rule R61: some admitted prefix gives this kind of return this operand size. -/
def DecodeCtx.admitsOperandSize (c : DecodeCtx) (kind : Kind) (os : Size) : Bool :=
  match c.mode64, kind, os with
  | false, _, .s64 => false
  | false, _, _ => true
  | true, .near, .s64 => true
  | true, .near, .s32 => false
  | true, .near, .s16 => c.nearRet66 = .honoured
  | true, .far, _ => true

/-- Premise P2 of rule R135: the two sizes of the instruction are sizes the state gives. -/
def Instr.wellFormedIn (c : DecodeCtx) (i : Instr) : Bool :=
  i.record.stackAddressSize = c.stackAddressSize && c.admitsOperandSize i.record.kind i.record.operandSize

/-- Some state gives the instruction its two sizes (the pairs rule R75 and rules R61, R62 call reachable). -/
def Instr.wellFormed (i : Instr) : Bool :=
  match i.record.stackAddressSize, i.record.kind, i.record.operandSize with
  | .s64, .near, .s32 => false
  | .s64, _, _ => true
  | _, _, .s64 => false
  | _, _, _ => true

end Sys2Proof
end

