-- ==== Sys2Proof/Machine/Flags.lean ====
section
/-! DEFINITION. The mode classes (rules R18, R19). The return instruction computes no status flag (rule R21), so this
file holds the one flag computation the spec has: the reading of the mode bits. -/

namespace Sys2Proof.Machine

/-- Mode class `RealOrV86` of rule R19. -/
def State.realOrV86 (s : State) : Bool := !s.pe || s.vm

/-- Mode class `Protected` of rule R19. -/
def State.protectedMode (s : State) : Bool := s.pe && !s.vm && !s.lma

/-- Mode class `IA32e` of rule R19. -/
def State.ia32e (s : State) : Bool := s.pe && !s.vm && s.lma

/-- `Mode64` of rule R19: 64-bit mode. -/
def State.mode64 (s : State) : Bool := s.ia32e && s.cs.hid.l

/-- What the state gives the decoder (rules R61 to R63). -/
def State.decodeCtx (s : State) : DecodeCtx where
  mode64 := s.mode64
  csDB := s.cs.hid.db
  ssDB := s.ss.hid.db
  nearRet66 := s.params.nearRet66

end Sys2Proof.Machine
end

