-- ==== Sys2Proof/Machine/Ops.lean ====
section
/-! DEFINITION. The operations the rules share: raising an exception, bytes of memory, admission of an access, linear
addresses, and the writes of the stack pointer. -/

namespace Sys2Proof.Machine

/-- `raise #XX(e)` of rule R113, the taking of an exception: the instruction ends at once with `Fault(XX, e)`, and the
spec has nothing after it (rule R120). -/
def raise {α : Type} (x : Exception) (e : Selector) : Res α := .error (.fault (.exception x e))

/-- `refuse(reason)` of rule R11. -/
def refuse {α : Type} (r : Refusal) : Res α := .error (.refused r)

/-- The spec's "if not c then raise #XX(e)". -/
def raiseUnless (c : Bool) (x : Exception) (e : Selector) : Res Unit := if c then .ok () else raise x e

/-- The spec's "if c then raise #XX(e)". -/
def raiseIf (c : Bool) (x : Exception) (e : Selector) : Res Unit := if c then raise x e else .ok ()

/-- `refuse(reason)` in the one case named. -/
def refuseIf (c : Bool) (r : Refusal) : Res Unit := if c then refuse r else .ok ()

/-- The three outcomes of rule R11, from what the operation of an instruction answers. -/
def outcome (r : Res State) : Host.Outcome State Fault Refusal :=
  match r with
  | .ok s => .next s
  | .error (.fault f) => .fault f
  | .error (.refused r) => .refused r

/-- Rule R117: the error code "(selector)" is the selector with its two low-order bits cleared. -/
def errorCode (sel : Selector) : Selector := sel &&& 0xFFFC

/-- `zext_64(trunc_w(v))` (rule R7). -/
def truncTo (w : Size) (v : Word) : Word :=
  match w with
  | .s16 => (v.setWidth 16).setWidth 64
  | .s32 => (v.setWidth 32).setWidth 64
  | .s64 => v

/-- The byte an unlisted address holds: zero, a DESIGN CHOICE (log entry 1). -/
def Memory.unlisted : Byte := 0

/-- The byte at an address. -/
def Memory.read (m : Memory) (a : Nat) : Byte :=
  match m with
  | [] => Memory.unlisted
  | c :: rest => if c.1 = a then c.2 else Memory.read rest a

/-- A byte at the head of a memory whose addresses are all higher: listed unless it is what an unlisted address holds. -/
def Memory.cons (a : Nat) (b : Byte) (m : Memory) : Memory := if b = Memory.unlisted then m else (a, b) :: m

/-- The memory with one byte written, in canonical form again. -/
def Memory.write (m : Memory) (a : Nat) (b : Byte) : Memory :=
  match m with
  | [] => Memory.cons a b []
  | c :: rest =>
    if a < c.1 then Memory.cons a b (c :: rest)
    else if a = c.1 then Memory.cons a b rest
    else c :: Memory.write rest a b

/-- Every listed address is at least `lo` and below 2^64, the addresses rise, and no entry is what an unlisted address
holds. -/
def Memory.wfFrom (lo : Nat) (m : Memory) : Bool :=
  match m with
  | [] => true
  | c :: rest => decide (lo ≤ c.1) && decide (c.1 < 2 ^ 64) && c.2 != Memory.unlisted && Memory.wfFrom (c.1 + 1) rest

/-- The canonical form of the memory. -/
def Memory.wf (m : Memory) : Bool := Memory.wfFrom 0 m

/-- The value of bytes in rising order of address, the lowest the least significant (rule R32). -/
def leValue (bs : List Byte) : Nat :=
  match bs with
  | [] => 0
  | b :: rest => b.toNat + 256 * leValue rest

/-- A linear address is 32 bits wide outside IA-32e mode and 64 bits wide in it (rule R31). -/
def wrapLinear (ia32e : Bool) (a : Word) : Word := if ia32e then a else truncTo .s32 a

/-- The linear address `i` bytes above `a`. Outside IA-32e mode it wraps at 2^32, in IA-32e
mode at 2^64, compatibility mode included: DEDUCED (log entry 8). -/
def byteAddr (s : State) (a : Word) (i : Nat) : Word := wrapLinear s.ia32e (a + BitVec.ofNat 64 i)

/-- The `n` bytes at linear address `a`, as one number (rule R32). -/
def memValue (s : State) (a : Word) (n : Nat) : Word :=
  BitVec.ofNat 64 (leValue ((List.range n).map fun i => s.mem.read (byteAddr s a i).toNat))

/-- `mem_admit(a, n, kind)` of rule R49. -/
def memAdmit (s : State) (a : Word) (n : Nat) (kind : Config.AccessKind) : Bool :=
  !s.params.denied.any fun d => d.kind = kind && d.size = n && d.first ≤ a.toNat && a.toNat ≤ d.last

/-- `MemRead(a, n)` of rules R32 and R49, zero-extended to 64 bits. -/
def memRead (s : State) (a : Word) (n : Nat) (kind : Config.AccessKind) : Res Word :=
  if memAdmit s a n kind then .ok (memValue s a n) else refuse .memory

/-- `MemWrite(a, 1, b)` of rules R32 and R49, the only width the spec writes (rule R54). -/
def memWriteByte (s : State) (a : Word) (b : Byte) (kind : Config.AccessKind) : Res State :=
  if memAdmit s a 1 kind then .ok { s with mem := s.mem.write a.toNat b } else refuse .memory

/-- `Canonical(a)` of rule R35: the address is the sign extension of its low `VA_BITS` bits. -/
def canonical (s : State) (a : Word) : Bool := a = (a.setWidth s.params.vaBits).signExtend 64

/-- `CanonicalRange(a, n)` of rule R35, for `n >= 1`. -/
def canonicalRange (s : State) (a : Word) (n : Nat) : Bool :=
  canonical s a && canonical s (a + BitVec.ofNat 64 (n - 1)) && a.toNat + (n - 1) < 2 ^ 64

/-- A segment register by name (rule R15). -/
def State.seg (s : State) (r : SegName) : SegReg :=
  match r with
  | .cs => s.cs
  | .ss => s.ss
  | .es => s.es
  | .fs => s.fs
  | .gs => s.gs
  | .ds => s.ds

/-- The state with a segment register replaced (rule R15). -/
def State.setSeg (s : State) (r : SegName) (v : SegReg) : State :=
  match r with
  | .cs => { s with cs := v }
  | .ss => { s with ss := v }
  | .es => { s with es := v }
  | .fs => { s with fs := v }
  | .gs => { s with gs := v }
  | .ds => { s with ds := v }

/-- The segment registers whose base 64-bit mode ignores (rule R39). -/
def SegName.flatIn64 (r : SegName) : Bool :=
  match r with
  | .fs | .gs => false
  | _ => true

/-- `Lin(Seg, off)` of rule R39, with `Mode64` as it was when the instruction began (rule R19). -/
def lin (mode64 : Bool) (s : State) (r : SegName) (off : Word) : Word :=
  if mode64 && r.flatIn64 then off else truncTo .s32 ((s.seg r).hid.base + off)

/-- `upper32()` of rule R14 and the state after the draw. -/
def upper32 (s : State) : BitVec 32 × State :=
  match s.params.upperSp with
  | .zero => (0, s)
  | .draw => (Config.draw32 s.draws, { s with draws := s.draws + 1 })

/-- `upper16()` of rule R93 and the state after the draw. -/
def upper16 (s : State) : BitVec 16 × State :=
  match s.params.upperSp with
  | .zero => (0, s)
  | .draw => (Config.draw16 s.draws, { s with draws := s.draws + 1 })

/-- `WriteSP(w, v)` of rule R14: the low `w` bits of the stack pointer take those of `v`. -/
def writeSp (mode64 : Bool) (w : Size) (v : Word) (s : State) : State :=
  match w with
  | .s64 => { s with rsp := v }
  | .s32 =>
    if mode64 then { s with rsp := 0#32 ++ v.setWidth 32 }
    else { (upper32 s).2 with rsp := (upper32 s).1 ++ v.setWidth 32 }
  | .s16 => { s with rsp := s.rsp.extractLsb' 16 48 ++ v.setWidth 16 }

/-- `SP`, `ESP` or `RSP <- it + SRC`, modulo its width (rules R9, R14): the release of parameters at a width. -/
def release (mode64 : Bool) (w : Size) (src : BitVec 16) (s : State) : State :=
  writeSp mode64 w (s.rsp + src.setWidth 64) s

/-- A release made only by a form with an immediate operand. -/
def releaseIf (hasImm : Bool) (mode64 : Bool) (w : Size) (src : BitVec 16) (s : State) : State :=
  if hasImm then release mode64 w src s else s

end Sys2Proof.Machine
end

