-- ==== Sys2Proof/Machine/Operands.lean ====
section
/-! DEFINITION. The implicit operands of a return: the items of the stack (rules R33, R34, R36, R37, R56). -/

namespace Sys2Proof.Machine

/-- What a stack access of an instruction goes by: `Mode64` as it was when the instruction began (rule R19) and the
`StackAddressSize` in force (rule R33). -/
structure StackCtx where
  mode64 : Bool
  w : Size
deriving DecidableEq, Repr

/-- The stack context an instruction begins in. -/
def State.stackCtx (s : State) (w : Size) : StackCtx := ⟨s.mode64, w⟩

/-- `StackOff(k)` of rule R33: `trunc_w(sp_w + k)`. -/
def stackOff (c : StackCtx) (s : State) (k : Nat) : Word := truncTo c.w (s.rsp + BitVec.ofNat 64 k)

/-- The linear address of the byte `k` above the top of stack (rules R33, R39). -/
def stackAddr (c : StackCtx) (s : State) (k : Nat) : Word := lin c.mode64 s .ss (stackOff c s k)

/-- `WithinStackLimits(k, n)` of rule R34, for `n >= 1`. -/
def withinStackLimits (c : StackCtx) (s : State) (k n : Nat) : Res Bool :=
  let o := (stackOff c s k).toNat
  if c.mode64 then .ok (canonicalRange s (stackOff c s k) n)
  else if !s.ss.hid.valid then .ok false
  else if !s.ss.hid.expandDown then
    if s.ss.hid.limit.toNat < o + (n - 1) then .ok false
    else if 2 ^ c.w.bits ≤ o + (n - 1) then refuse .stackWrap
    else .ok true
  else .ok (s.ss.hid.limit.toNat < o && o + (n - 1) ≤ if s.ss.hid.db then 0xFFFFFFFF else 0xFFFF)

/-- "if not WithinStackLimits(k, n) then raise #SS(0)", the check before every use of the stack. -/
def checkStack (c : StackCtx) (s : State) (k n : Nat) : Res Unit := do
  let inside ← withinStackLimits c s k n
  raiseUnless inside .ss 0

/-- The `n` bytes `k` above the top of stack, as one number (rules R33, R37). -/
def stackItem (c : StackCtx) (s : State) (k n : Nat) : Word := memValue s (stackAddr c s k) n

/-- `StackRead(k, n)` of rule R37, zero-extended to 64 bits. -/
def stackRead (c : StackCtx) (s : State) (k n : Nat) : Res Word := do
  checkStack c s k n
  memRead s (stackAddr c s k) n .stackRead

/-- `Pop(n)` of rule R36, zero-extended to 64 bits, with the state after it. -/
def pop (c : StackCtx) (s : State) (n : Nat) : Res (Word × State) := do
  let v ← stackRead c s 0 n
  .ok (v, writeSp c.mode64 c.w (s.rsp + BitVec.ofNat 64 n) s)

/-- `CanonItem(k, m)` of `43_far_return_ia32e.md`: the `m` bytes `k` above the top of stack lie at canonical linear
addresses. -/
def canonItem (c : StackCtx) (s : State) (k m : Nat) : Bool := canonicalRange s (stackAddr c s k) m

/-- A selector is the low-order 16 bits of the item it is popped in (rule R15). -/
def selectorOf (v : Word) : Selector := v.setWidth 16

end Sys2Proof.Machine
end

