-- ==== Sys2Proof/Machine/Segments.lean ====
section
/-! DEFINITION. Selectors, descriptor tables, descriptors, the code-segment limit, and the three ways a segment register
is written (rules R23, R38, R40 to R44, R54). -/

namespace Sys2Proof.Machine

/-- `RPL(s)` of rule R40. -/
def rpl (sel : Selector) : BitVec 2 := sel.extractLsb' 0 2

/-- `TI(s)` of rule R40: the local table. -/
def tableIndicator (sel : Selector) : Bool := sel.getLsbD 2

/-- `Index(s)` of rule R40. -/
def selIndex (sel : Selector) : Nat := (sel.extractLsb' 3 13).toNat

/-- `IsNull(s)` of rule R40: bits 15:2 are zero. -/
def isNull (sel : Selector) : Bool := sel.extractLsb' 2 14 = 0#14

/-- `DescInTable(s)` of rule R41. -/
def descInTable (s : State) (sel : Selector) : Bool :=
  if tableIndicator sel then s.ldtr.valid && selIndex sel * 8 + 7 ≤ s.ldtr.limit.toNat
  else selIndex sel * 8 + 7 ≤ s.gdtr.limit.toNat

/-- `TableBase(s)` of rule R42. -/
def tableBase (s : State) (sel : Selector) : Word := if tableIndicator sel then s.ldtr.base else s.gdtr.base

/-- `DescAddr(s)` of rule R42: modulo 2^32 outside IA-32e mode, modulo 2^64 in it. -/
def descAddr (s : State) (sel : Selector) : Word :=
  wrapLinear s.ia32e (tableBase s sel + BitVec.ofNat 64 (selIndex sel * 8))

/-- `Decode(q)` of rule R43. -/
def decodeDescriptor (q : Word) : Descriptor :=
  let segment := q.getLsbD 44
  let x := q.getLsbD 43
  let isCode := segment && x
  let isData := segment && !x
  { isCode := isCode
    isWritableData := isData && q.getLsbD 41
    conforming := isCode && q.getLsbD 42
    writable := isData && q.getLsbD 41
    expandDown := isData && q.getLsbD 42
    dpl := q.extractLsb' 45 2
    present := q.getLsbD 47
    l := q.getLsbD 53
    db := q.getLsbD 54
    base := (q.extractLsb' 56 8 ++ q.extractLsb' 16 24).setWidth 64
    limit20 := q.extractLsb' 48 4 ++ q.extractLsb' 0 16
    g := q.getLsbD 55 }

/-- The descriptor a selector names, as memory holds it (rules R42, R43). -/
def descAt (s : State) (sel : Selector) : Descriptor := decodeDescriptor (memValue s (descAddr s sel) 8)

/-- `ReadDesc(s)` of rule R42. -/
def readDesc (s : State) (sel : Selector) : Res Descriptor := do
  let q ← memRead s (descAddr s sel) 8 .tableRead
  .ok (decodeDescriptor q)

/-- `EffLimit(d)` of rule R44. -/
def effLimit (d : Descriptor) : BitVec 32 := if d.g then d.limit20 ++ 0xFFF#12 else d.limit20.setWidth 32

/-- `WithinCodeLimit(h, ip)` of rule R38, from the `L` bit and the effective limit of `h`. -/
def withinLimit (s : State) (l : Bool) (limit : BitVec 32) (ip : Word) : Bool :=
  if s.ia32e && l then true else ip.toNat ≤ limit.toNat

/-- `WithinCodeLimit(CS.hid, ip)` of rule R38: the code segment in force. -/
def withinCsLimit (s : State) (ip : Word) : Bool := withinLimit s s.cs.hid.l s.cs.hid.limit ip

/-- `WithinCodeLimit(d, ip)` of rule R38: the code segment returned to. -/
def withinDescLimit (s : State) (d : Descriptor) (ip : Word) : Bool := withinLimit s d.l (effLimit d) ip

/-- `LoadSegReal(Seg, s)` of rule R23. -/
def loadSegReal (r : SegName) (sel : Selector) (s : State) : State :=
  s.setSeg r { sel := sel, hid := { (s.seg r).hid with base := sel.setWidth 64 * 16 } }

/-- The hidden part `LoadSegDesc` gives a register (rule R23). -/
def hiddenOf (d : Descriptor) : SegHidden where
  valid := true
  base := d.base
  limit := effLimit d
  isCode := d.isCode
  conforming := d.conforming
  writable := d.writable
  expandDown := d.expandDown
  dpl := d.dpl
  present := d.present
  l := d.l
  db := d.db

/-- The address of the byte of a descriptor that holds its accessed bit (rule R54). -/
def accessedAddr (s : State) (sel : Selector) : Word := byteAddr s (descAddr s sel) 5

/-- Whether `SetAccessed(s)` has a write to make (rule R54): the parameter asks for it and bit 40 of the descriptor,
its `A`, is clear. -/
def needsAccessed (s : State) (sel : Selector) : Bool :=
  s.params.setAccessed && !(memValue s (descAddr s sel) 8).getLsbD 40

/-- The memory after `SetAccessed(s)` (rule R54): byte 5 of the descriptor with its bit 0 set. -/
def accessedMem (s : State) (sel : Selector) : Memory :=
  if needsAccessed s sel then
    s.mem.write (accessedAddr s sel).toNat (s.mem.read (accessedAddr s sel).toNat ||| 1)
  else s.mem

/-- `SetAccessed(s)` of rule R54, with the admission of its read and its write (rule R49). -/
def setAccessed (sel : Selector) (s : State) : Res State :=
  if s.params.setAccessed then do
    let q ← memRead s (descAddr s sel) 8 .tableRead
    if q.getLsbD 40 then .ok s
    else memWriteByte s (accessedAddr s sel) (s.mem.read (accessedAddr s sel).toNat ||| 1) .tableWrite
  else .ok s

/-- The accesses of `SetAccessed(s)` are admitted (rules R49, R54). -/
def accessedAdmitted (s : State) (sel : Selector) : Bool :=
  !s.params.setAccessed ||
    memAdmit s (descAddr s sel) 8 .tableRead &&
      (!needsAccessed s sel || memAdmit s (accessedAddr s sel) 1 .tableWrite)

/-- `LoadSegDesc(Seg, s, d)` of rule R23. -/
def loadSegDesc (r : SegName) (sel : Selector) (d : Descriptor) (s : State) : Res State :=
  setAccessed sel (s.setSeg r ⟨sel, hiddenOf d⟩)

/-- `NullSeg(Seg)` of rule R23, on the register's contents. -/
def nullSeg (v : SegReg) : SegReg := { sel := 0, hid := { v.hid with valid := false } }

/-- The condition of rule R94: the register holds a data or non-conforming code segment more privileged than `CPL`. -/
def mustNull (cpl : BitVec 2) (v : SegReg) : Bool :=
  v.hid.valid && (!v.hid.isCode || v.hid.isCode && !v.hid.conforming) && v.hid.dpl < cpl

/-- What rule R94 leaves in a data segment register. -/
def invalidated (cpl : BitVec 2) (v : SegReg) : SegReg := if mustNull cpl v then nullSeg v else v

/-- The loop of rules R94 and R110 over `ES`, `FS`, `GS`, `DS`, in the source's order. -/
def invalidateDataSegs (s : State) : State :=
  [SegName.es, .fs, .gs, .ds].foldl (fun t r => t.setSeg r (invalidated t.cpl (t.seg r))) s

end Sys2Proof.Machine
end

