-- ==== Sys2Proof/Machine/FarOuter.lean ====
section
/-! DEFINITION. The parts of a far return that protected mode and IA-32e mode share (rules R85, R89, R93, R101, R108): the
selector on the stack, and the pops of the instruction pointer and `CS`, with the first release and the pops of the new
stack in a return to an outer level. -/

namespace Sys2Proof.Machine

/-- The return code segment selector or the return stack segment selector: the low-order 16 bits of the item `k` bytes
above the top of stack (rules R85, R92, R105). -/
def readSelector (c : StackCtx) (s : State) (k n : Nat) : Res Selector := do
  let v ← stackRead c s k n
  .ok (selectorOf v)

/-- The pops of rules R89, R93, R101 and R108, one arm for every operand size: the item of `n` bytes into the
instruction pointer, zero-extended, and the next into `CS`, whose descriptor is loaded. -/
def popCodeSegment (c : StackCtx) (n : Nat) (d : Descriptor) (s : State) : Res State := do
  let (t, s1) ← pop c s n
  let s2 := { s1 with pc := t }
  let (v, s3) ← pop c s2 n
  loadSegDesc .cs (selectorOf v) d s3

/-- `CS.sel[1:0] <- CPL` of rules R93 and R108. -/
def setCsRpl (s : State) : State :=
  { s with cs := { s.cs with sel := s.cs.sel.extractLsb' 2 14 ++ s.cpl } }

/-- `tempESP <- Pop(n); tempSS <- Pop(n)` of rules R93 and R108. -/
def popOuterStack (c : StackCtx) (n : Nat) (s : State) : Res (Word × Selector × State) := do
  let (tempESP, s1) ← pop c s n
  let (v, s2) ← pop c s1 n
  .ok (tempESP, selectorOf v, s2)

/-- `ESP ← tempESP` of rules R93 and R108, by operand size: 32 bits, 16 bits under a drawn upper half (decision D15), or
all 64 bits (decision D16). -/
def loadSp (mode64 : Bool) (os : Size) (tempESP : Word) (s : State) : State :=
  match os with
  | .s32 => writeSp mode64 .s32 tempESP s
  | .s16 => writeSp mode64 .s32 (((upper16 s).1 ++ tempESP.setWidth 16).setWidth 64) (upper16 s).2
  | .s64 => writeSp mode64 .s64 tempESP s

end Sys2Proof.Machine
end

