-- ==== Sys2Proof/Machine/FarIa32e.lean ====
section
/-! DEFINITION. The far return in IA-32e mode (rules R97 to R111). -/

namespace Sys2Proof.Machine

/-- The first stack checks of rule R97. -/
def ia32eEntryChecks (c : StackCtx) (os : Size) (s : State) : Res Unit := do
  let n := os.bytes
  match os with
  | .s64 => raiseUnless (canonItem c s 0 n && canonItem c s n n) .ss 0
  | _ =>
    checkStack c s n n
    raiseUnless (canonItem c s 0 n && canonItem c s n n) .ss 0

/-- The checks of rule R98 on the return code segment selector and its descriptor, which they answer. -/
def ia32eCodeDescriptor (s : State) (retCS : Selector) : Res Descriptor := do
  raiseIf (isNull retCS) .gp 0
  raiseUnless (descInTable s retCS) .gp (errorCode retCS)
  raiseUnless (canonicalRange s (descAddr s retCS) 8) .gp (errorCode retCS)
  let d ← readDesc s retCS
  raiseUnless d.isCode .gp (errorCode retCS)
  raiseIf (d.l && d.db) .gp (errorCode retCS)
  raiseIf (rpl retCS < s.cpl) .gp (errorCode retCS)
  raiseIf (d.conforming && rpl retCS < d.dpl) .gp (errorCode retCS)
  raiseIf (!d.conforming && d.dpl ≠ rpl retCS) .gp (errorCode retCS)
  raiseUnless d.present .np (errorCode retCS)
  .ok d

/-- The two checks of rules R100 and R107 on the return instruction pointer. -/
def ia32eTargetChecks (c : StackCtx) (n : Nat) (d : Descriptor) (s : State) : Res Unit := do
  let retIP ← stackRead c s 0 n
  raiseUnless (withinDescLimit s d retIP) .gp 0
  raiseUnless (canonical s retIP) .gp 0

/-- `IA-32E-MODE-RETURN-SAME-PRIVILEGE-LEVEL` (rules R100 to R102). -/
def ia32eSame (c : StackCtx) (i : RetInstr) (d : Descriptor) (s : State) : Res State := do
  let n := i.operandSize.bytes
  ia32eTargetChecks c n d s
  let s1 ← popCodeSegment c n d s
  .ok (releaseIf i.hasImm c.mode64 c.w i.src s1)

/-- The stack size checks of rules R103 and R104. -/
def ia32eOuterStackChecks (c : StackCtx) (i : RetInstr) (s : State) : Res Unit := do
  let m := 4 * i.operandSize.bytes + i.src.toNat
  match i.operandSize with
  | .s64 => raiseUnless (canonItem c s 0 m) .ss 0
  | _ =>
    checkStack c s 0 m
    raiseUnless (canonItem c s 0 m) .ss 0

/-- The checks of rules R105 and R106 on the return stack segment selector: its descriptor, or none for a NULL selector
that `load-null` accepts (`nullSS` of rule R105). -/
def ia32eStackDescriptor (s : State) (retCS retSS : Selector) (d : Descriptor) : Res (Option Descriptor) := do
  if isNull retSS then
    raiseUnless d.l .gp (errorCode retSS)
    raiseIf (rpl retSS = 3) .gp (errorCode retSS)
    refuseIf (s.params.nullSs = .refuse) .nullStackSelector
    raiseIf (rpl retSS ≠ rpl retCS) .gp (errorCode retSS)
    .ok none
  else
    raiseUnless (descInTable s retSS) .gp (errorCode retSS)
    raiseUnless (canonicalRange s (descAddr s retSS) 8) .gp (errorCode retSS)
    let ds ← readDesc s retSS
    raiseIf (rpl retSS ≠ rpl retCS || !ds.isWritableData || ds.dpl ≠ rpl retCS) .gp (errorCode retSS)
    raiseUnless ds.present .ss (errorCode retSS)
    .ok (some ds)

/-- `LoadSS(s)` of rule R108. -/
def loadSs (sel : Selector) (ds : Option Descriptor) (s : State) : Res State :=
  match ds with
  | none => .ok { s with ss := { sel := sel, hid := { s.ss.hid with valid := false, dpl := s.cpl } } }
  | some d => loadSegDesc .ss sel d s

/-- The first release of rule R108: at the width the instruction began with, and in the 64-bit arm on all of `RSP`. -/
def ia32eFirstRelease (c : StackCtx) (i : RetInstr) (s : State) : State :=
  match i.operandSize with
  | .s64 => releaseIf i.hasImm c.mode64 .s64 i.src s
  | _ => releaseIf i.hasImm c.mode64 c.w i.src s

/-- Rule R111: the width of the second release, by the code and stack segments just loaded (`Mode64'` of rule R109,
decision D18). -/
def ia32eNewStackSize (s : State) : Size := if s.mode64 then .s64 else if s.ss.hid.db then .s32 else .s16

/-- `IA-32E-MODE-RETURN-TO-OUTER-PRIVILEGE-LEVEL` (rules R103 to R111). -/
def ia32eOuter (c : StackCtx) (i : RetInstr) (retCS : Selector) (d : Descriptor) (s : State) : Res State := do
  let n := i.operandSize.bytes
  ia32eOuterStackChecks c i s
  let retSS ← readSelector c s (3 * n + i.src.toNat) n
  let ds ← ia32eStackDescriptor s retCS retSS d
  ia32eTargetChecks c n d s
  let s1 ← popCodeSegment c n d { s with cpl := rpl retCS }
  let s2 := ia32eFirstRelease c i (setCsRpl s1)
  let (tempESP, tempSS, s3) ← popOuterStack c n s2
  let s4 ← loadSs tempSS ds (loadSp c.mode64 i.operandSize tempESP s3)
  let s5 := invalidateDataSegs s4
  .ok (releaseIf i.hasImm c.mode64 (ia32eNewStackSize s5) i.src s5)

/-- `FarReturnIA32e(i)` of rules R97 to R99. -/
def farReturnIa32e (i : RetInstr) (s : State) : Res State := do
  let n := i.operandSize.bytes
  let c := s.stackCtx i.stackAddressSize
  ia32eEntryChecks c i.operandSize s
  let retCS ← readSelector c s n n
  let d ← ia32eCodeDescriptor s retCS
  if s.cpl < rpl retCS then ia32eOuter c i retCS d s else ia32eSame c i d s

end Sys2Proof.Machine
end

