-- ==== Sys2Proof/Machine/FarProtected.lean ====
section
/-! DEFINITION. The far return in protected mode (rules R84 to R96). -/

namespace Sys2Proof.Machine

/-- The checks of rule R86 on the return code segment selector and its descriptor, which they answer. -/
def protectedCodeDescriptor (s : State) (retCS : Selector) : Res Descriptor := do
  raiseIf (isNull retCS) .gp 0
  raiseUnless (descInTable s retCS) .gp (errorCode retCS)
  let d ← readDesc s retCS
  raiseUnless d.isCode .gp (errorCode retCS)
  raiseIf (rpl retCS < s.cpl) .gp (errorCode retCS)
  raiseIf (d.conforming && rpl retCS < d.dpl) .gp (errorCode retCS)
  raiseIf (!d.conforming && d.dpl ≠ rpl retCS) .gp (errorCode retCS)
  raiseUnless d.present .np (errorCode retCS)
  .ok d

/-- `RETURN-TO-SAME-PRIVILEGE-LEVEL` (rules R88 to R90). -/
def protectedSame (c : StackCtx) (i : RetInstr) (d : Descriptor) (s : State) : Res State := do
  let n := i.operandSize.bytes
  let retIP ← stackRead c s 0 n
  raiseUnless (withinDescLimit s d retIP) .gp 0
  let s1 ← popCodeSegment c n d s
  .ok (releaseIf i.hasImm c.mode64 c.w i.src s1)

/-- The checks of rule R92 on the return stack segment selector and its descriptor, which they answer. -/
def protectedStackDescriptor (s : State) (retCS retSS : Selector) : Res Descriptor := do
  raiseIf (isNull retSS) .gp 0
  raiseUnless (descInTable s retSS) .gp (errorCode retSS)
  let ds ← readDesc s retSS
  raiseIf (rpl retSS ≠ rpl retCS || !ds.isWritableData || ds.dpl ≠ rpl retCS) .gp (errorCode retSS)
  raiseUnless ds.present .ss (errorCode retSS)
  .ok ds

/-- Rule R95: the width of the second release, by the stack segment just loaded (decision D18). -/
def protectedNewStackSize (s : State) : Size := if s.ss.hid.db then .s32 else .s16

/-- `RETURN-TO-OUTER-PRIVILEGE-LEVEL` (rules R91, R92, R96, R93, R94, R95). -/
def protectedOuter (c : StackCtx) (i : RetInstr) (retCS : Selector) (d : Descriptor) (s : State) : Res State := do
  let n := i.operandSize.bytes
  checkStack c s 0 (4 * n + i.src.toNat)
  let retSS ← readSelector c s (3 * n + i.src.toNat) n
  let ds ← protectedStackDescriptor s retCS retSS
  let retIP ← stackRead c s 0 n
  raiseUnless (withinDescLimit s d retIP) .gp 0
  let s1 ← popCodeSegment c n d { s with cpl := rpl retCS }
  let s2 := releaseIf i.hasImm c.mode64 c.w i.src (setCsRpl s1)
  let (tempESP, tempSS, s3) ← popOuterStack c n s2
  let s4 ← loadSegDesc .ss tempSS ds (loadSp c.mode64 i.operandSize tempESP s3)
  let s5 := invalidateDataSegs s4
  .ok (releaseIf i.hasImm c.mode64 (protectedNewStackSize s5) i.src s5)

/-- `FarReturnProtected(i)` of rules R84 to R87. -/
def farReturnProtected (i : RetInstr) (s : State) : Res State := do
  let n := i.operandSize.bytes
  let c := s.stackCtx i.stackAddressSize
  refuseIf (i.operandSize = .s64 || i.stackAddressSize = .s64) .operandSize
  checkStack c s n n
  let retCS ← readSelector c s n n
  let d ← protectedCodeDescriptor s retCS
  if s.cpl < rpl retCS then protectedOuter c i retCS d s else protectedSame c i d s

end Sys2Proof.Machine
end

