-- ==== Sys2Proof/Machine/FarRealV86.lean ====
section
/-! DEFINITION. The far return in real-address and virtual-8086 mode (rules R80 to R83). -/

namespace Sys2Proof.Machine

/-- `ReleaseRealV86(i)` of rule R81: always on `SP`, whatever `StackAddressSize` is. -/
def releaseRealV86 (i : RetInstr) (s : State) : State := releaseIf i.hasImm false .s16 (i.src &&& 0xFFFF) s

/-- `FarReturnRealV86(i)` of rules R80 and R83. -/
def farReturnRealV86 (i : RetInstr) (s : State) : Res State := do
  let c := s.stackCtx i.stackAddressSize
  refuseIf (i.operandSize = .s64 || i.stackAddressSize = .s64) .operandSize
  match i.operandSize with
  | .s64 => refuse .operandSize
  | .s32 =>
    checkStack c s 0 8
    let (t, s1) ← pop c s 4
    let s2 := { s1 with pc := truncTo .s32 t }
    let (v, s3) ← pop c s2 4
    .ok (releaseRealV86 i (loadSegReal .cs (selectorOf v) s3))
  | .s16 =>
    checkStack c s 0 4
    let (t, s1) ← pop c s 2
    let tempEIP := truncTo .s16 t
    raiseUnless (withinCsLimit s tempEIP) .gp 0
    let s2 := { s1 with pc := tempEIP }
    let (v, s3) ← pop c s2 2
    .ok (releaseRealV86 i (loadSegReal .cs (selectorOf v) s3))

end Sys2Proof.Machine
end

