-- ==== Sys2Proof/Machine/NearReturn.lean ====
section
/-! DEFINITION. The near return in every mode (rules R69 to R75): the meanings of `RET` and `RET imm16`. -/

namespace Sys2Proof.Machine

/-- The outcome of an instruction's operation; a launch with alignment checking or with a feature that adds checks to a
return is refused (rules R11, R46, R123). -/
def perform (s : State) (r : Res State) : Host.Outcome State Fault Refusal :=
  if s.params.launchable then outcome r else .refused .launchFeature

/-- `NearPop(i)` of rule R70. Only the 16-bit arm tests the target (rule R71). -/
def nearPop (c : StackCtx) (os : Size) (s : State) : Res State := do
  match os with
  | .s32 =>
    checkStack c s 0 4
    let (t, s1) ← pop c s 4
    .ok { s1 with pc := truncTo .s32 t }
  | .s64 =>
    checkStack c s 0 8
    let (t, s1) ← pop c s 8
    .ok { s1 with pc := t }
  | .s16 =>
    checkStack c s 0 2
    let (t, s1) ← pop c s 2
    let tempEIP := truncTo .s16 t
    raiseUnless (withinCsLimit s tempEIP) .gp 0
    .ok { s1 with pc := tempEIP }

/-- `NearReturn(i)` of rule R72: the pop, then the release at the width `StackAddressSize`. -/
def nearReturn (i : RetInstr) (s : State) : Res State := do
  let c := s.stackCtx i.stackAddressSize
  let s1 ← nearPop c i.operandSize s
  .ok (releaseIf i.hasImm c.mode64 c.w i.src s1)

/-- `RET` (rule R73). -/
def execRet (os as : Size) (s : State) : Host.Outcome State Fault Refusal :=
  perform s (nearReturn (Instr.ret os as).record s)

/-- `RET imm16` (rule R74). -/
def execRetImm16 (imm16 : BitVec 16) (os as : Size) (s : State) : Host.Outcome State Fault Refusal :=
  perform s (nearReturn (Instr.retImm16 imm16 os as).record s)

end Sys2Proof.Machine
end

