-- ==== Sys2Proof/Machine/FarReturn.lean ====
section
/-! DEFINITION. The far return by mode class (rules R69, R77): the meanings of `RETF` and `RETF imm16`. -/

namespace Sys2Proof.Machine

/-- The far return: one of three procedures, by the mode class (rules R69, R77). -/
def farReturn (i : RetInstr) (s : State) : Res State :=
  if s.realOrV86 then farReturnRealV86 i s
  else if s.protectedMode then farReturnProtected i s
  else farReturnIa32e i s

/-- `RETF` (rule R78). -/
def execRetf (os as : Size) (s : State) : Host.Outcome State Fault Refusal :=
  perform s (farReturn (Instr.retf os as).record s)

/-- `RETF imm16` (rule R79). -/
def execRetfImm16 (imm16 : BitVec 16) (os as : Size) (s : State) : Host.Outcome State Fault Refusal :=
  perform s (farReturn (Instr.retfImm16 imm16 os as).record s)

end Sys2Proof.Machine
end

