-- ==== Sys2Proof/Machine/Dispatch.lean ====
section
/-! DEFINITION. One arm for each instruction form (rule R69). -/

namespace Sys2Proof.Machine

def exec (i : Instr) (s : State) : Host.Outcome State Fault Refusal :=
  match i with
  | .ret os as => Sys2Proof.Machine.execRet os as s
  | .retImm16 imm16 os as => Sys2Proof.Machine.execRetImm16 imm16 os as s
  | .retf os as => Sys2Proof.Machine.execRetf os as s
  | .retfImm16 imm16 os as => Sys2Proof.Machine.execRetfImm16 imm16 os as s

end Sys2Proof.Machine
end

