-- ==== Sys2Proof/Decode.lean ====
section
/-! DEFINITION. From bytes to a decoded instruction (rules R58 to R65), total and refusing by name, and back. -/

namespace Sys2Proof

/-- Why a byte sequence gives no instruction. -/
inductive DecodeError
  /-- The bytes end before the instruction does. -/
  | truncated
  /-- The sequence is none that rules R58 to R63 admit (rule R65). -/
  | notInScope
deriving DecidableEq, Repr

/-- Rule R58: the kind of the return and whether it has an immediate operand, by the opcode byte. -/
def decodeOpcode (b : Byte) : Option (Kind × Bool) :=
  if b = 0xC3 then some (.near, false)
  else if b = 0xC2 then some (.near, true)
  else if b = 0xCB then some (.far, false)
  else if b = 0xCA then some (.far, true)
  else none

/-- Rule R61: `OperandSize` from the prefixes and the state. -/
def operandSize (c : DecodeCtx) (kind : Kind) (p66 rexW : Bool) : Size :=
  match c.mode64, kind with
  | false, _ => if c.csDB then (if p66 then .s16 else .s32) else (if p66 then .s32 else .s16)
  | true, .near => if p66 && c.nearRet66 = .honoured then .s16 else .s64
  | true, .far => if rexW then .s64 else if p66 then .s16 else .s32

/-- Rule R60: the immediate operand, low-order byte first. -/
def immediate (lo hi : Byte) : BitVec 16 := hi ++ lo

/-- Rules R58 to R60: the opcode byte and the immediate bytes, after the prefixes. -/
def decodeBody (c : DecodeCtx) (p66 rexW : Bool) : List Byte → Except DecodeError (Instr × List Byte)
  | [] => .error .truncated
  | op :: rest =>
    match decodeOpcode op with
    | none => .error .notInScope
    | some (kind, false) => .ok (.ofKind kind none (operandSize c kind p66 rexW) c.stackAddressSize, rest)
    | some (kind, true) =>
      match rest with
      | lo :: hi :: rest =>
        .ok (.ofKind kind (some (immediate lo hi)) (operandSize c kind p66 rexW) c.stackAddressSize, rest)
      | _ => .error .truncated

/-- Rule R63: the bytes 40H to 4FH are REX prefixes in 64-bit mode and other instructions elsewhere. -/
def isRex (c : DecodeCtx) (b : Byte) : Bool := c.mode64 && b.extractLsb' 4 4 = 4#4

/-- Rule R63: at most one REX byte, immediately before the opcode; its bit 3 is `W`. -/
def decodeRex (c : DecodeCtx) (p66 : Bool) : List Byte → Except DecodeError (Instr × List Byte)
  | [] => .error .truncated
  | b :: rest => if isRex c b then decodeBody c p66 (b.getLsbD 3) rest else decodeBody c p66 false (b :: rest)

/-- The instruction at the head of a list of bytes and the bytes after it (rules R58 to R65). -/
def decode (c : DecodeCtx) : List Byte → Except DecodeError (Instr × List Byte)
  | [] => .error .truncated
  | b :: rest => if b = 0x66 then decodeRex c true rest else decodeRex c false (b :: rest)

/-- The length in bytes of the longest admitted instruction (rule R64): two prefixes, the opcode, the immediate. -/
def maxLength : Nat := 5

/-- Rule R58: the opcode byte of a form. -/
def encodeOpcode : Kind → Bool → Byte
  | .near, false => 0xC3
  | .near, true => 0xC2
  | .far, false => 0xCB
  | .far, true => 0xCA

/-- Rule R61 read backwards: an operand-size prefix is needed for this operand size. -/
def needs66 (c : DecodeCtx) (kind : Kind) (os : Size) : Bool :=
  match c.mode64, kind with
  | false, _ => if os = .s16 then c.csDB else !c.csDB
  | true, _ => os = .s16

/-- Rule R61 read backwards: a REX prefix with `W` set is needed for this operand size. -/
def needsRexW (c : DecodeCtx) (kind : Kind) (os : Size) : Bool := c.mode64 && kind = .far && os = .s64

/-- The shortest byte sequence that stands for an instruction in a state that gives it its sizes (rules R58 to R63).
-/
def encode (c : DecodeCtx) (i : Instr) : List Byte :=
  let r := i.record
  (if needs66 c r.kind r.operandSize then [0x66] else [])
    ++ (if needsRexW c r.kind r.operandSize then [0x48] else [])
    ++ [encodeOpcode r.kind r.hasImm]
    ++ (if r.hasImm then [r.src.extractLsb' 0 8, r.src.extractLsb' 8 8] else [])

/-- What the state right after reset gives the decoder (rule R134: no 64-bit mode, `CS.hid.DB = SS.hid.DB = 0`). -/
def DecodeCtx.reset : DecodeCtx := ⟨false, false, false, .ignored⟩

/-- The bytes of an instruction whose bits are `w`, the first byte in bits 7:0, as many as the longest instruction
has; the bits from `nbits` on are zero. -/
def wordBytes (nbits w : Nat) : List Byte :=
  (List.range maxLength).map fun k => BitVec.ofNat 8 (w % 2 ^ nbits / 256 ^ k)

/-- The instruction the decoder reads, in the state right after reset, from the bits of an opcode-table row. -/
def decodeTableWord (nbits w : Nat) : Option Instr :=
  match decode .reset (wordBytes nbits w) with
  | .ok (i, _) => some i
  | .error _ => none

end Sys2Proof
end

