-- ==== Sys2Proof/Machine/Fetch.lean ====
section
/-! DEFINITION. The fetch of the instruction at `Lin(CS, pc)` (rule R53; decision D29) and its decoding. -/

namespace Sys2Proof.Machine

/-- The linear address of the instruction byte `i` bytes above the program counter (rules R39, R53). In compatibility mode
rule R53 does not say where a byte past linear address FFFFFFFFH lies: taking `Lin` of each byte's own offset, so that the
fetch goes on at address 0, is a DESIGN CHOICE (log entry 21), unlike the bytes of one data item (log entry 8). -/
def fetchAddr (s : State) (i : Nat) : Word := lin s.mode64 s .cs (s.pc + BitVec.ofNat 64 i)

/-- Whether an instruction byte may be fetched, by its offset: inside the code segment's limit, or in 64-bit mode at a
canonical address (rules R38, R71; decision D29). Outside 64-bit mode all 64 bits of the program counter are compared
with the limit, so one whose bits 63:32 are not zero stops: DESIGN CHOICE, as rule R13 says that those bits cannot be
observed there and nothing says what a fetch makes of them (log entry 11). -/
def checkFetch (s : State) (i : Nat) : Res Unit :=
  if s.mode64 then
    if canonical s (s.pc + BitVec.ofNat 64 i) && s.pc.toNat + i < 2 ^ 64 then .ok ()
    else .error (.fault .fetchNonCanonical)
  else if s.pc.toNat + i ≤ s.cs.hid.limit.toNat then .ok ()
  else .error (.fault .fetchBeyondLimit)

/-- The instruction byte `i` bytes above the program counter, or the way its fetch stops (rules R49, R53). -/
def fetchByte (s : State) (i : Nat) : Res Byte := do
  checkFetch s i
  let v ← memRead s (fetchAddr s i) 1 .fetch
  .ok (v.setWidth 8)

/-- Up to `fuel` instruction bytes at ascending addresses from the `i`th on, as far as they can be fetched, and the stop
that the first byte gives that cannot (none when all can). -/
def fetchFrom (s : State) (fuel i : Nat) : List Byte × Option Stop :=
  match fuel with
  | 0 => ([], none)
  | fuel + 1 =>
    match fetchByte s i with
    | .error e => ([], some e)
    | .ok b => let r := fetchFrom s fuel (i + 1); (b :: r.1, r.2)

/-- The bytes the decoder is given: as many as the longest instruction has. -/
def fetchBytes (s : State) : List Byte := (fetchFrom s maxLength 0).1

/-- How the fetch of the byte after `fetchBytes` stops. -/
def fetchStop (s : State) : Stop := (fetchFrom s maxLength 0).2.getD (.refused .notInScope)

/-- The instruction at the program counter, decoded with the sizes the state gives (premise P2 of rule R135), or the way
the machine stops: outside the four forms by the refusal of rule R65, and where an instruction runs into a byte that
cannot be fetched as that fetch stops. -/
def nextInstr (s : State) : Res Instr :=
  match decode s.decodeCtx (fetchBytes s) with
  | .ok (i, _) => .ok i
  | .error .notInScope => refuse .notInScope
  | .error .truncated => .error (fetchStop s)

/-- The memory with bytes placed where the fetch reads them, from the `i`th on. -/
def placeFrom (s : State) (bs : List Byte) (i : Nat) : Memory :=
  match bs with
  | [] => s.mem
  | b :: rest => (placeFrom s rest (i + 1)).write (fetchAddr s i).toNat b

end Sys2Proof.Machine
end

