-- ==== Sys2Proof/Machine/Step.lean ====
section
/-! DEFINITION. One step: fetch at `Lin(CS, pc)`, decode, execute (rules R53, R69). A return adds nothing to the program
counter (rule R13). -/

namespace Sys2Proof.Machine

/-- One step of the machine. -/
def step (s : State) : Host.Outcome State Fault Refusal :=
  match nextInstr s with
  | .ok i => exec i s
  | .error (.fault f) => .fault f
  | .error (.refused r) => .refused r

/-- The state with the instruction whose bits are `w` (numbered as the opcode table numbers them, zero from bit `nbits`
on) stored where the next step fetches, up to the longest instruction's bytes. -/
def State.withFetchWord (s : State) (nbits w : Nat) : State :=
  { s with mem := placeFrom s (wordBytes nbits w) 0 }

end Sys2Proof.Machine
end

