-- ==== Sys2Proof/Safety.lean ====
section
/-! DEFINITION. The terms claims use: the values a return takes from the stack, when a return completes, the state it then
leaves, and the invariant every step keeps. Each condition is on the state the instruction begins in alone. -/

namespace Sys2Proof.Safety

open Sys2Proof.Machine

/-- The stack context of a decoded instruction. -/
def ctxOf (r : RetInstr) (s : State) : StackCtx := s.stackCtx r.stackAddressSize

/-- The return instruction pointer: the first item (rules R56, R85). -/
def returnIp (r : RetInstr) (s : State) : Word := stackItem (ctxOf r s) s 0 r.operandSize.bytes

/-- The return code segment selector: the low-order 16 bits of the second item (rules R56, R85). -/
def returnCs (r : RetInstr) (s : State) : Selector :=
  selectorOf (stackItem (ctxOf r s) s r.operandSize.bytes r.operandSize.bytes)

/-- The return stack segment selector that the checks examine: the low-order 16 bits of the fourth item, above the
released bytes (rules R56, R92, R105). -/
def returnSs (r : RetInstr) (s : State) : Selector :=
  selectorOf (stackItem (ctxOf r s) s (3 * r.operandSize.bytes + r.src.toNat) r.operandSize.bytes)

/-- The state as a far return's later pops find memory: the accessed bit of the code descriptor is written first (rules
R50, R54). -/
def afterCs (r : RetInstr) (s : State) : State := { s with mem := accessedMem s (returnCs r s) }

/-- `tempESP`: the third item, above the released bytes (rule R56). -/
def newSp (r : RetInstr) (s : State) : Word :=
  stackItem (ctxOf r s) (afterCs r s) (2 * r.operandSize.bytes + r.src.toNat) r.operandSize.bytes

/-- `tempSS`: the fourth item as it is popped (rule R56). -/
def newSs (r : RetInstr) (s : State) : Selector :=
  selectorOf (stackItem (ctxOf r s) (afterCs r s) (3 * r.operandSize.bytes + r.src.toNat) r.operandSize.bytes)

/-- `WithinStackLimits(k, n)` holds (rule R34). -/
def stackWithin (c : StackCtx) (s : State) (k n : Nat) : Bool :=
  match withinStackLimits c s k n with
  | .ok b => b
  | .error _ => false

/-- `WithinStackLimits(k, n)` is false (rule R34), which is not its refusal. -/
def stackOutside (c : StackCtx) (s : State) (k n : Nat) : Bool :=
  match withinStackLimits c s k n with
  | .ok b => !b
  | .error _ => false

/-- An item of the stack can be read: it is within limits and the launch admits the access (rules R34, R49). -/
def stackReadable (c : StackCtx) (s : State) (k n : Nat) : Bool :=
  stackWithin c s k n && memAdmit s (stackAddr c s k) n .stackRead

/-- Neither size is 64 (rules R83, R84). -/
def sizesBelow64 (r : RetInstr) : Bool := r.operandSize ≠ .s64 && r.stackAddressSize ≠ .s64

/-- A near return completes: its item can be read and, in the 16-bit form, is within the code limit (rules R70, R71). -/
def nearReady (r : RetInstr) (s : State) : Bool :=
  s.params.launchable && stackReadable (ctxOf r s) s 0 r.operandSize.bytes &&
    (r.operandSize ≠ .s16 || withinCsLimit s (returnIp r s))

/-- A far return in real-address or virtual-8086 mode completes (rule R80). -/
def realReady (r : RetInstr) (s : State) : Bool :=
  let n := r.operandSize.bytes
  s.params.launchable && s.realOrV86 && sizesBelow64 r && stackWithin (ctxOf r s) s 0 (2 * n) &&
    stackReadable (ctxOf r s) s 0 n && stackReadable (ctxOf r s) s n n &&
    (r.operandSize ≠ .s16 || withinCsLimit s (returnIp r s))

/-- The checks of rule R86 pass. -/
def protectedCodeOk (s : State) (sel : Selector) : Bool :=
  let d := descAt s sel
  !isNull sel && descInTable s sel && memAdmit s (descAddr s sel) 8 .tableRead && d.isCode && s.cpl ≤ rpl sel &&
    (if d.conforming then d.dpl ≤ rpl sel else d.dpl = rpl sel) && d.present

/-- The checks of rule R98 pass. -/
def ia32eCodeOk (s : State) (sel : Selector) : Bool :=
  let d := descAt s sel
  protectedCodeOk s sel && canonicalRange s (descAddr s sel) 8 && !(d.l && d.db)

/-- The checks of rule R92 pass. -/
def protectedStackOk (s : State) (retCS sel : Selector) : Bool :=
  let ds := descAt s sel
  !isNull sel && descInTable s sel && memAdmit s (descAddr s sel) 8 .tableRead && rpl sel = rpl retCS &&
    ds.isWritableData && ds.dpl = rpl retCS && ds.present

/-- The checks of rules R105 and R106 pass for a selector that is not NULL. -/
def ia32eStackOk (s : State) (retCS sel : Selector) : Bool :=
  protectedStackOk s retCS sel && canonicalRange s (descAddr s sel) 8

/-- A NULL stack selector that rule R105 lets pass under `load-null`. -/
def nullStackOk (s : State) (retCS sel : Selector) : Bool :=
  isNull sel && (descAt s retCS).l && rpl sel ≠ 3 && s.params.nullSs = .loadNull && rpl sel = rpl retCS

/-- The items and the tables a far return to an outer level touches can be read, and its accessed bits written (rules
R34, R49, R54). -/
def outerReadable (r : RetInstr) (s : State) : Bool :=
  let n := r.operandSize.bytes
  stackReadable (ctxOf r s) s 0 n && stackReadable (ctxOf r s) s n n &&
    stackReadable (ctxOf r s) s (2 * n + r.src.toNat) n && stackReadable (ctxOf r s) s (3 * n + r.src.toNat) n &&
    accessedAdmitted s (returnCs r s)

/-- A far return in protected mode passes the checks of rules R84 to R86, and its target is within the limit of the code
segment returned to (rules R88, R96). -/
def protectedReady (r : RetInstr) (s : State) : Bool :=
  let n := r.operandSize.bytes
  s.params.launchable && s.protectedMode && sizesBelow64 r && stackReadable (ctxOf r s) s 0 n &&
    stackReadable (ctxOf r s) s n n && protectedCodeOk s (returnCs r s) &&
    withinDescLimit s (descAt s (returnCs r s)) (returnIp r s) && accessedAdmitted s (returnCs r s)

/-- A far return in protected mode completes at the same privilege level (rules R84 to R90). -/
def protectedSameReady (r : RetInstr) (s : State) : Bool := protectedReady r s && rpl (returnCs r s) = s.cpl

/-- A far return in protected mode completes to an outer privilege level (rules R84 to R96). -/
def protectedOuterReady (r : RetInstr) (s : State) : Bool :=
  protectedReady r s && s.cpl < rpl (returnCs r s) &&
    stackWithin (ctxOf r s) s 0 (4 * r.operandSize.bytes + r.src.toNat) &&
    protectedStackOk s (returnCs r s) (returnSs r s) && outerReadable r s && accessedAdmitted (afterCs r s) (newSs r s)

/-- A far return in IA-32e mode passes the checks of rules R97 and R98, and its target those of rules R100 and R107. -/
def ia32eReady (r : RetInstr) (s : State) : Bool :=
  let n := r.operandSize.bytes
  s.params.launchable && s.ia32e && canonItem (ctxOf r s) s 0 n && canonItem (ctxOf r s) s n n &&
    stackReadable (ctxOf r s) s 0 n && stackReadable (ctxOf r s) s n n && ia32eCodeOk s (returnCs r s) &&
    withinDescLimit s (descAt s (returnCs r s)) (returnIp r s) && canonical s (returnIp r s) &&
    accessedAdmitted s (returnCs r s)

/-- A far return in IA-32e mode completes at the same privilege level (rules R97 to R102). -/
def ia32eSameReady (r : RetInstr) (s : State) : Bool := ia32eReady r s && rpl (returnCs r s) = s.cpl

/-- A far return in IA-32e mode reaches an outer privilege level but for the stack selector's own checks (rules R97 to
R104, R107). -/
def ia32eOuterEntry (r : RetInstr) (s : State) : Bool :=
  let m := 4 * r.operandSize.bytes + r.src.toNat
  ia32eReady r s && s.cpl < rpl (returnCs r s) && (r.operandSize = .s64 || stackWithin (ctxOf r s) s 0 m) &&
    canonItem (ctxOf r s) s 0 m && outerReadable r s

/-- A far return in IA-32e mode completes to an outer level with a stack segment from a table (rules R97 to R111). -/
def ia32eOuterReady (r : RetInstr) (s : State) : Bool :=
  ia32eOuterEntry r s && ia32eStackOk s (returnCs r s) (returnSs r s) && accessedAdmitted (afterCs r s) (newSs r s)

/-- A far return in IA-32e mode completes to an outer level with a NULL stack selector (rule R105, `load-null`). -/
def ia32eNullReady (r : RetInstr) (s : State) : Bool :=
  ia32eOuterEntry r s && nullStackOk s (returnCs r s) (returnSs r s)

/-- Bits 63:32 of the stack pointer are zero after a 32-bit write: in 64-bit mode, and under `UPPER_SP_POLICY = zero`
(rule R14). -/
def zeroUpper (s : State) : Bool := s.mode64 || s.params.upperSp = .zero

/-- What `WriteSP(w, v)` leaves of an old stack pointer (rule R14); the bits it draws are any. -/
def WroteSp (zero : Bool) (w : Size) (v old new : Word) : Prop :=
  match w with
  | .s16 => new.extractLsb' 0 16 = v.extractLsb' 0 16 ∧ new.extractLsb' 16 48 = old.extractLsb' 16 48
  | .s32 => new.extractLsb' 0 32 = v.extractLsb' 0 32 ∧ (zero = true → new.extractLsb' 32 32 = 0)
  | .s64 => new = v

/-- The stack pointer is raised by `m` at width `w`, modulo 2^w (rules R9, R14). -/
def RaisedSp (zero : Bool) (w : Size) (m : Nat) (old new : Word) : Prop :=
  WroteSp zero w (old + BitVec.ofNat 64 m) old new

/-- What `ESP ← tempESP` leaves (rules R93, R108): 32 bits; 16 bits below any upper half, or a zero one under
`UPPER_SP_POLICY = zero`; or all 64. -/
def LoadedSp (s : State) (os : Size) (v new : Word) : Prop :=
  match os with
  | .s32 => WroteSp (zeroUpper s) .s32 v 0 new
  | .s16 =>
    new.extractLsb' 0 16 = v.extractLsb' 0 16 ∧ (s.params.upperSp = .zero → new.extractLsb' 16 16 = 0) ∧
      (zeroUpper s = true → new.extractLsb' 32 32 = 0)
  | .s64 => new = v

/-- The stack pointer after a return to an outer level: loaded, then raised by `SRC` at the new stack's width in a form
with an immediate operand (rules R93, R95, R108, R111). -/
def OuterSp (r : RetInstr) (s : State) (w1 : Size) (new : Word) : Prop :=
  ∃ e : Word, LoadedSp s r.operandSize (newSp r s) e ∧
    if r.hasImm then RaisedSp (zeroUpper s) w1 r.src.toNat e new else new = e

/-- Every byte of memory reads as before. -/
def SameBytes (s t : State) : Prop := ∀ a, t.mem.read a = s.mem.read a

/-- What a near return leaves (rules R70, R72): the instruction pointer and the raised stack pointer are written, and
nothing else but the count of draws. -/
def NearReturned (r : RetInstr) (s t : State) : Prop :=
  t.pc = returnIp r s ∧
    RaisedSp (zeroUpper s) r.stackAddressSize (r.operandSize.bytes + r.src.toNat) s.rsp t.rsp ∧
    t = { s with pc := t.pc, rsp := t.rsp, draws := t.draws } ∧ SameBytes s t

/-- What a far return in real-address or virtual-8086 mode leaves (rules R23, R80, R81): of `CS` the selector and the
base; the stack pointer raised over both items at the stack width and by `SRC` on `SP` alone. -/
def RealReturned (r : RetInstr) (s t : State) : Prop :=
  t.pc = returnIp r s ∧
    t.cs = { sel := returnCs r s, hid := { s.cs.hid with base := (returnCs r s).setWidth 64 * 16 } } ∧
    (∃ e : Word, RaisedSp (zeroUpper s) r.stackAddressSize (2 * r.operandSize.bytes) s.rsp e ∧
      RaisedSp (zeroUpper s) .s16 r.src.toNat e t.rsp) ∧
    t = { s with pc := t.pc, rsp := t.rsp, cs := t.cs, draws := t.draws } ∧ SameBytes s t

/-- What a far return at the same privilege level leaves (rules R89, R90, R101, R102): the code segment loaded from its
descriptor, whose accessed bit is set in memory. -/
def SameLevelReturned (r : RetInstr) (s t : State) : Prop :=
  t.pc = returnIp r s ∧
    t.cs = ⟨returnCs r s, hiddenOf (descAt s (returnCs r s))⟩ ∧
    RaisedSp (zeroUpper s) r.stackAddressSize (2 * r.operandSize.bytes + r.src.toNat) s.rsp t.rsp ∧
    t.mem = accessedMem s (returnCs r s) ∧
    t = { s with pc := t.pc, rsp := t.rsp, cs := t.cs, mem := t.mem, draws := t.draws }

/-- What a far return to an outer level leaves but for `SS`, the stack pointer and memory (rules R93, R94, R108, R110):
the new level, the code segment, and the data segment registers the new level may keep. -/
def OuterReturned (r : RetInstr) (s t : State) : Prop :=
  t.pc = returnIp r s ∧ t.cpl = rpl (returnCs r s) ∧
    t.cs = ⟨returnCs r s, hiddenOf (descAt s (returnCs r s))⟩ ∧
    t.es = invalidated t.cpl s.es ∧ t.fs = invalidated t.cpl s.fs ∧ t.gs = invalidated t.cpl s.gs ∧
    t.ds = invalidated t.cpl s.ds ∧
    t = { s with pc := t.pc, rsp := t.rsp, cs := t.cs, ss := t.ss, es := t.es, fs := t.fs, gs := t.gs, ds := t.ds,
                 cpl := t.cpl, mem := t.mem, draws := t.draws }

/-- The new stack segment of a return to an outer level, loaded from its descriptor, whose accessed bit is set in memory
after the code segment's (rules R23, R54, R93, R108). -/
def OuterStackLoaded (r : RetInstr) (s t : State) : Prop :=
  t.ss = ⟨newSs r s, hiddenOf (descAt s (returnSs r s))⟩ ∧ t.mem = accessedMem (afterCs r s) (newSs r s)

/-- `SS` after a return with a NULL stack selector (`LoadSS` of rule R108). -/
def NullStackLoaded (r : RetInstr) (s t : State) : Prop :=
  t.ss = { sel := newSs r s, hid := { s.ss.hid with valid := false, dpl := t.cpl } } ∧
    t.mem = accessedMem s (returnCs r s)

/-- In protected and IA-32e mode `CS.sel[1:0] = CPL` (premise P7 of rule R135). -/
def CplMatchesCs (s : State) : Prop := s.realOrV86 = false → rpl s.cs.sel = s.cpl

/-- In protected and IA-32e mode no data segment register holds a segment that a return to the current level would have
had to take away (rules R94, R110). -/
def DataSegsGuarded (s : State) : Prop :=
  s.realOrV86 = false → ∀ v ∈ [s.es, s.fs, s.gs, s.ds], mustNull s.cpl v = false

/-- The invariant every step keeps: the memory is in canonical form, the code selector names the current level, and the
data segment registers hold nothing the level may not keep. -/
def Inv (s : State) : Prop := s.mem.wf = true ∧ CplMatchesCs s ∧ DataSegsGuarded s

end Sys2Proof.Safety
end

