-- ==== Sys2Proof/Certificates/Slice0/Obligations.lean ====
section
/-! DEFINITION. The statements about the model that the provers settle. -/

open Sys2Proof Sys2Proof.Machine Sys2Proof.Safety

/-! ### Encoding -/

/-- Every instruction whose sizes a state gives is read back from its encoding in that state, whatever bytes follow, with
every value of the immediate. -/
def Obligations.DecodeReadsBackEncode : Prop :=
  ∀ (c : DecodeCtx) (i : Instr) (rest : List Byte), i.wellFormedIn c = true → decode c (encode c i ++ rest) = .ok (i, rest)

/-- The table of rule R61, with the opcode bytes of rule R58 and the immediate of rule R60: `near` and `far` are the
operand sizes its rows give, `as` the stack-address size of rule R62. What 66H does to a near return in 64-bit mode is the
parameter `NEAR_RET_66H_64`, which decision D28 leaves open, with both values modelled (log entry 5). -/
def Obligations.PrefixesAndStateGiveTheSizes : Prop :=
  ∀ (c : DecodeCtx) (p66 : Bool) (rex : Option (BitVec 4)) (lo hi : Byte) (rest : List Byte),
    (rex.isSome = true → c.mode64 = true) →
    let pre : List Byte := (if p66 then [0x66] else []) ++ (match rex with | none => [] | some x => [4#4 ++ x])
    let rexW : Bool := match rex with | none => false | some x => x.getLsbD 3
    let as : Size := if c.mode64 then .s64 else if c.ssDB then .s32 else .s16
    let outside : Size := if c.csDB then (if p66 then .s16 else .s32) else (if p66 then .s32 else .s16)
    let near : Size :=
      if c.mode64 then (if p66 && c.nearRet66 = .honoured then .s16 else .s64) else outside
    let far : Size := if c.mode64 then (if rexW then .s64 else if p66 then .s16 else .s32) else outside
    decode c (pre ++ 0xC3 :: rest) = .ok (.ret near as, rest) ∧
      decode c (pre ++ 0xC2 :: lo :: hi :: rest) = .ok (.retImm16 (hi ++ lo) near as, rest) ∧
      decode c (pre ++ 0xCB :: rest) = .ok (.retf far as, rest) ∧
      decode c (pre ++ 0xCA :: lo :: hi :: rest) = .ok (.retfImm16 (hi ++ lo) far as, rest)

/-- A decoded instruction has sizes the state gives (premise P2 of rule R135), and took at most two prefix bytes and 1 or
3 bytes, by whether it has an immediate operand (rule R64). -/
def Obligations.DecodedInstructionIsWellFormed : Prop :=
  ∀ (c : DecodeCtx) (bs : List Byte) (i : Instr) (rest : List Byte), decode c bs = .ok (i, rest) →
    i.wellFormedIn c = true ∧ i.wellFormed = true ∧
      ∃ used : List Byte, bs = used ++ rest ∧ (if i.record.hasImm then 3 else 1) ≤ used.length ∧
        used.length ≤ (if i.record.hasImm then 3 else 1) + 2

/-- What rules R63 and R65 refuse: a first byte that is no admitted prefix and no opcode, a second 66H, a byte that is no
opcode after a REX prefix, and a REX byte outside 64-bit mode. -/
def Obligations.OtherByteSequencesAreRefused : Prop :=
  ∀ (c : DecodeCtx) (b : Byte) (rest : List Byte),
    let opcode : Prop := b = 0xC3 ∨ b = 0xC2 ∨ b = 0xCB ∨ b = 0xCA
    let rex : Prop := b.extractLsb' 4 4 = 4#4
    (¬opcode → b ≠ 0x66 → (c.mode64 = false ∨ ¬rex) → decode c (b :: rest) = .error .notInScope) ∧
      (¬opcode → (c.mode64 = false ∨ ¬rex) → decode c (0x66 :: b :: rest) = .error .notInScope) ∧
      (¬opcode → c.mode64 = true → ∀ x : BitVec 4,
        decode c ((4#4 ++ x) :: b :: rest) = .error .notInScope ∧
          decode c (0x66 :: (4#4 ++ x) :: b :: rest) = .error .notInScope)

/-- Four words written out from rules R58 to R63: `CB`, `CA FF FF` after 66H, `CA 10 00` after 48H in 64-bit mode, and
48H before `CB` outside it, with the sizes rules R61 and R62 give. -/
def Obligations.WrittenWordsDecode : Prop :=
  decode ⟨false, false, false, .ignored⟩ [0xCB] = .ok (.retf .s16 .s16, []) ∧
    decode ⟨false, false, false, .ignored⟩ [0x66, 0xCA, 0xFF, 0xFF] = .ok (.retfImm16 0xFFFF .s32 .s16, []) ∧
    decode ⟨true, false, true, .ignored⟩ [0x48, 0xCA, 0x10, 0x00] = .ok (.retfImm16 0x0010 .s64 .s64, []) ∧
    decode ⟨false, true, true, .ignored⟩ [0x48, 0xCB] = .error .notInScope

/-! ### The step -/

/-- Where the bytes at `Lin(CS, pc)` decode to an instruction, a step is that instruction's `exec` (rules R53, R69);
nothing is added to the program counter (rule R13). -/
def Obligations.StepRunsTheDecodedInstruction : Prop :=
  ∀ (s : State) (i : Instr) (rest : List Byte), decode s.decodeCtx (fetchBytes s) = .ok (i, rest) → step s = exec i s

/-- Bytes that are none of the four forms are refused, by the name rule R65 gives. -/
def Obligations.StepRefusesOtherBytes : Prop :=
  ∀ s : State, decode s.decodeCtx (fetchBytes s) = .error .notInScope → step s = .refused .notInScope

/-- The instruction bytes are the memory's at ascending linear addresses from `Lin(CS, pc)` on (rules R39, R53): outside
64-bit mode the base of `CS` plus the offset modulo 2^32, in it the offset. That the bytes wrap at 2^32 in compatibility
mode is the model's choice (log entry 21). -/
def Obligations.FetchReadsMemoryAtCs : Prop :=
  ∀ (s : State) (k : Nat) (h : k < (fetchBytes s).length),
    (fetchBytes s)[k] = s.mem.read
      (if s.mode64 then s.pc.toNat + k else (s.cs.hid.base.toNat + s.pc.toNat + k) % 2 ^ 32)

/-- A program counter outside the code segment limit, or in 64-bit mode at a non-canonical address, stops the machine at
the fetch (rule R71, decision D29). Which stop it is, and that outside 64-bit mode all 64 bits of the program counter are
compared with the limit, is the model's choice (log entry 11). -/
def Obligations.FetchOutsideTheCodeSegmentFaults : Prop :=
  ∀ s : State,
    (s.mode64 = false → s.cs.hid.limit.toNat < s.pc.toNat → step s = .fault .fetchBeyondLimit) ∧
      (s.mode64 = true → canonical s s.pc = false → step s = .fault .fetchNonCanonical)

/-- A launch with alignment checking or a feature that adds checks to a return is refused (rules R46, R123). -/
def Obligations.LaunchWithExtraChecksIsRefused : Prop :=
  ∀ (i : Instr) (s : State), (s.params.alignmentCheck = true ∨ s.params.extraChecks = true) →
    exec i s = .refused .launchFeature

/-! ### Near return -/

/-- `RET` completes on every state whose top item can be read and, in the 16-bit form, is within the code limit: the
item is the new instruction pointer, the stack pointer is raised over it, and nothing else changes. -/
def Obligations.RetCompletes : Prop :=
  ∀ (os as : Size) (s : State), nearReady (Instr.ret os as).record s = true →
    ∃ t, exec (.ret os as) s = .next t ∧ NearReturned (Instr.ret os as).record s t

/-- `RET imm16` completes on the same states, and raises the stack pointer by `SRC` as well (rule R72). What becomes of the
bits above a narrower write is the spec's own decision D14 (log entry 13), and the count of draws is the model's (log entry
6). -/
def Obligations.RetImm16Completes : Prop :=
  ∀ (imm16 : BitVec 16) (os as : Size) (s : State), nearReady (Instr.retImm16 imm16 os as).record s = true →
    ∃ t, exec (.retImm16 imm16 os as) s = .next t ∧ NearReturned (Instr.retImm16 imm16 os as).record s t

/-- Where a near return stops, in order (rules R34, R49, R70): an item not within the stack limits, an access not
admitted, and in the 16-bit form alone a target not within the code limit. -/
def Obligations.NearReturnStops : Prop :=
  ∀ (i : Instr) (s : State), i.record.kind = .near → s.params.launchable = true →
    let c := ctxOf i.record s
    let n := i.record.operandSize.bytes
    if stackOutside c s 0 n then exec i s = .fault (.exception .ss 0)
    else if stackWithin c s 0 n = false then exec i s = .refused .stackWrap
    else if memAdmit s (stackAddr c s 0) n .stackRead = false then exec i s = .refused .memory
    else if i.record.operandSize = .s16 ∧ withinCsLimit s (returnIp i.record s) = false then
      exec i s = .fault (.exception .gp 0)
    else ∃ t, exec i s = .next t

/-- The near return's exceptions: `#SS(0)`, and `#GP(0)` in the 16-bit form for a target beyond the limit of the current
code segment. -/
def Obligations.NearReturnRaisesNothingElse : Prop :=
  ∀ (i : Instr) (s : State) (f : Fault), i.record.kind = .near → exec i s = .fault f →
    f = .exception .ss 0 ∨
      f = .exception .gp 0 ∧ i.record.operandSize = .s16 ∧ withinCsLimit s (returnIp i.record s) = false

/-- A near return reads none of `CPL`, `GDTR`, `LDTR`, `ES`, `FS`, `GS`, `DS` and the selectors of `CS` and `SS` (rule
R71): on states that differ in them it stops alike, and its next states differ in them alone. -/
def Obligations.NearReturnIgnoresPrivilegeAndTables : Prop :=
  ∀ (i : Instr) (s : State) (cpl : BitVec 2) (gdtr : GlobalTable) (ldtr : LocalTable) (es fs gs ds : SegReg)
    (csSel ssSel : Selector), i.record.kind = .near →
    let other := fun u : State =>
      { u with cpl := cpl, gdtr := gdtr, ldtr := ldtr, es := es, fs := fs, gs := gs, ds := ds
               cs := { u.cs with sel := csSel }, ss := { u.ss with sel := ssSel } }
    exec i (other s) =
      match exec i s with
      | .next t => .next (other t)
      | .fault f => .fault f
      | .refused r => .refused r

/-! ### Far return in real-address and virtual-8086 mode -/

/-- `RETF` and `RETF imm16` complete in real-address and virtual-8086 mode on every state whose items are within the
stack limits and, in the 16-bit form, whose target is within the limit of the code segment in force. -/
def Obligations.FarReturnRealV86Completes : Prop :=
  ∀ (imm16 : BitVec 16) (os as : Size) (s : State),
    (realReady (Instr.retf os as).record s = true →
      ∃ t, exec (.retf os as) s = .next t ∧ RealReturned (Instr.retf os as).record s t) ∧
    (realReady (Instr.retfImm16 imm16 os as).record s = true →
      ∃ t, exec (.retfImm16 imm16 os as) s = .next t ∧ RealReturned (Instr.retfImm16 imm16 os as).record s t)

/-- Where it faults (rule R80): the top 8 (4) bytes not within the stack limits, and in the 16-bit form a target not
within the limit of the code segment in force before the return. -/
def Obligations.FarReturnRealV86Faults : Prop :=
  ∀ (i : Instr) (s : State), i.record.kind = .far → s.params.launchable = true → s.realOrV86 = true →
    sizesBelow64 i.record = true →
    let c := ctxOf i.record s
    let n := i.record.operandSize.bytes
    (stackOutside c s 0 (2 * n) = true → exec i s = .fault (.exception .ss 0)) ∧
      (stackWithin c s 0 (2 * n) = true → stackReadable c s 0 n = true → i.record.operandSize = .s16 →
        withinCsLimit s (returnIp i.record s) = false → exec i s = .fault (.exception .gp 0))

/-- A size of 64 in a far return outside IA-32e mode is refused (rules R83, R84). -/
def Obligations.FarReturnSize64IsRefusedOutsideIa32e : Prop :=
  ∀ (i : Instr) (s : State), i.record.kind = .far → s.params.launchable = true → s.ia32e = false →
    (i.record.operandSize = .s64 ∨ i.record.stackAddressSize = .s64) → exec i s = .refused .operandSize

/-- The real-address / virtual-8086 path reads no descriptor and no privilege level (rule R82): it raises neither `#NP`
nor an exception with a selector, it writes none of `CPL`, `SS`, `ES`, `FS`, `GS`, `DS`, the selector it takes for `CS` is
the one on the stack, whatever its value, and a state with other table registers, another `CPL`, another selector in `SS`
and other data segment registers gives the same. (The hidden part of `SS` addresses the stack, rules R34 and R39.) -/
def Obligations.FarReturnRealV86UsesNoDescriptor : Prop :=
  ∀ (i : Instr) (s : State), i.record.kind = .far → s.realOrV86 = true →
    (∀ f, exec i s = .fault f → f = .exception .ss 0 ∨ f = .exception .gp 0) ∧
      (∀ t, exec i s = .next t → t.cpl = s.cpl ∧ t.ss = s.ss ∧ t.es = s.es ∧ t.fs = s.fs ∧ t.gs = s.gs ∧ t.ds = s.ds ∧
        t.cs.sel = returnCs i.record s) ∧
      ∀ (cpl : BitVec 2) (gdtr : GlobalTable) (ldtr : LocalTable) (es fs gs ds : SegReg) (ssSel : Selector),
        let other := fun u : State =>
          { u with cpl := cpl, gdtr := gdtr, ldtr := ldtr, es := es, fs := fs, gs := gs, ds := ds
                   ss := { u.ss with sel := ssSel } }
        exec i (other s) =
          match exec i s with
          | .next t => .next (other t)
          | .fault f => .fault f
          | .refused r => .refused r

/-! ### Far return in protected mode -/

/-- `RETF` and `RETF imm16` complete in protected mode at the same privilege level. -/
def Obligations.FarReturnProtectedSameLevelCompletes : Prop :=
  ∀ (imm16 : BitVec 16) (os as : Size) (s : State),
    (protectedSameReady (Instr.retf os as).record s = true →
      ∃ t, exec (.retf os as) s = .next t ∧ SameLevelReturned (Instr.retf os as).record s t) ∧
    (protectedSameReady (Instr.retfImm16 imm16 os as).record s = true →
      ∃ t, exec (.retfImm16 imm16 os as) s = .next t ∧ SameLevelReturned (Instr.retfImm16 imm16 os as).record s t)

/-- `RETF` and `RETF imm16` complete in protected mode to an outer privilege level; the last release is at the width of
the stack segment just loaded (rule R95). -/
def Obligations.FarReturnProtectedOuterLevelCompletes : Prop :=
  ∀ (imm16 : BitVec 16) (os as : Size) (s : State),
    let after := fun (r : RetInstr) (t : State) =>
      OuterReturned r s t ∧ OuterStackLoaded r s t ∧
        OuterSp r s (if (descAt s (returnSs r s)).db then .s32 else .s16) t.rsp
    (protectedOuterReady (Instr.retf os as).record s = true →
      ∃ t, exec (.retf os as) s = .next t ∧ after (Instr.retf os as).record t) ∧
    (protectedOuterReady (Instr.retfImm16 imm16 os as).record s = true →
      ∃ t, exec (.retfImm16 imm16 os as) s = .next t ∧ after (Instr.retfImm16 imm16 os as).record t)

/-- The first check of rule R84: the second item of the stack. -/
def Obligations.FarReturnProtectedChecksSecondItem : Prop :=
  ∀ (i : Instr) (s : State), i.record.kind = .far → s.params.launchable = true → s.protectedMode = true →
    sizesBelow64 i.record = true →
    stackOutside (ctxOf i.record s) s i.record.operandSize.bytes i.record.operandSize.bytes = true →
    exec i s = .fault (.exception .ss 0)

/-- The checks of rule R86 on the return code segment selector and its descriptor, each with its exception, in order; a
table the launch does not admit is refused where it is read (rule R49). -/
def Obligations.FarReturnProtectedChecksCodeSelector : Prop :=
  ∀ (i : Instr) (s : State), i.record.kind = .far → s.params.launchable = true → s.protectedMode = true →
    sizesBelow64 i.record = true →
    stackReadable (ctxOf i.record s) s i.record.operandSize.bytes i.record.operandSize.bytes = true →
    let sel := returnCs i.record s
    let d := descAt s sel
    if isNull sel then exec i s = .fault (.exception .gp 0)
    else if descInTable s sel = false then exec i s = .fault (.exception .gp (errorCode sel))
    else if memAdmit s (descAddr s sel) 8 .tableRead = false then exec i s = .refused .memory
    else if d.isCode = false then exec i s = .fault (.exception .gp (errorCode sel))
    else if rpl sel < s.cpl then exec i s = .fault (.exception .gp (errorCode sel))
    else if d.conforming = true ∧ rpl sel < d.dpl then exec i s = .fault (.exception .gp (errorCode sel))
    else if d.conforming = false ∧ d.dpl ≠ rpl sel then exec i s = .fault (.exception .gp (errorCode sel))
    else if d.present = false then exec i s = .fault (.exception .np (errorCode sel))
    else protectedCodeOk s sel = true

/-- The stack size check of rule R91 and the checks of rule R92 on the return stack segment selector and its descriptor,
each with its exception, in order. -/
def Obligations.FarReturnProtectedChecksOuterStack : Prop :=
  ∀ (i : Instr) (s : State), i.record.kind = .far → s.params.launchable = true → s.protectedMode = true →
    sizesBelow64 i.record = true →
    let c := ctxOf i.record s
    let n := i.record.operandSize.bytes
    stackReadable c s n n = true → protectedCodeOk s (returnCs i.record s) = true → s.cpl < rpl (returnCs i.record s) →
    let sel := returnSs i.record s
    let ds := descAt s sel
    let level := rpl (returnCs i.record s)
    (stackOutside c s 0 (4 * n + i.record.src.toNat) = true → exec i s = .fault (.exception .ss 0)) ∧
    (stackWithin c s 0 (4 * n + i.record.src.toNat) = true →
      stackReadable c s (3 * n + i.record.src.toNat) n = true →
      if isNull sel then exec i s = .fault (.exception .gp 0)
      else if descInTable s sel = false then exec i s = .fault (.exception .gp (errorCode sel))
      else if memAdmit s (descAddr s sel) 8 .tableRead = false then exec i s = .refused .memory
      else if rpl sel ≠ level ∨ ds.isWritableData = false ∨ ds.dpl ≠ level then
        exec i s = .fault (.exception .gp (errorCode sel))
      else if ds.present = false then exec i s = .fault (.exception .ss (errorCode sel))
      else protectedStackOk s (returnCs i.record s) sel = true)

/-- A target not within the limit of the code segment returned to raises `#GP(0)`, at the same level (rule R88) and, after
the checks of the stack, at an outer one (rule R96). What is within a code segment limit is the spec's own decision D7 (log
entry 17). -/
def Obligations.FarReturnProtectedChecksTarget : Prop :=
  ∀ (i : Instr) (s : State), i.record.kind = .far → s.params.launchable = true → s.protectedMode = true →
    sizesBelow64 i.record = true →
    let c := ctxOf i.record s
    let n := i.record.operandSize.bytes
    let sel := returnCs i.record s
    stackReadable c s 0 n = true → stackReadable c s n n = true → protectedCodeOk s sel = true →
    withinDescLimit s (descAt s sel) (returnIp i.record s) = false →
    (rpl sel = s.cpl ∨
      s.cpl < rpl sel ∧ stackWithin c s 0 (4 * n + i.record.src.toNat) = true ∧
        stackReadable c s (3 * n + i.record.src.toNat) n = true ∧ protectedStackOk s sel (returnSs i.record s) = true) →
    exec i s = .fault (.exception .gp 0)

/-! ### Far return in IA-32e mode -/

/-- `RETF` and `RETF imm16` complete in IA-32e mode at the same privilege level. -/
def Obligations.FarReturnIa32eSameLevelCompletes : Prop :=
  ∀ (imm16 : BitVec 16) (os as : Size) (s : State),
    (ia32eSameReady (Instr.retf os as).record s = true →
      ∃ t, exec (.retf os as) s = .next t ∧ SameLevelReturned (Instr.retf os as).record s t) ∧
    (ia32eSameReady (Instr.retfImm16 imm16 os as).record s = true →
      ∃ t, exec (.retfImm16 imm16 os as) s = .next t ∧ SameLevelReturned (Instr.retfImm16 imm16 os as).record s t)

/-- `RETF` and `RETF imm16` complete in IA-32e mode to an outer privilege level; the last release is at the width of the
code and stack segments just loaded (rule R111). -/
def Obligations.FarReturnIa32eOuterLevelCompletes : Prop :=
  ∀ (imm16 : BitVec 16) (os as : Size) (s : State),
    let after := fun (r : RetInstr) (t : State) =>
      OuterReturned r s t ∧ OuterStackLoaded r s t ∧
        OuterSp r s (if (descAt s (returnCs r s)).l then .s64 else if (descAt s (returnSs r s)).db then .s32 else .s16)
          t.rsp
    (ia32eOuterReady (Instr.retf os as).record s = true →
      ∃ t, exec (.retf os as) s = .next t ∧ after (Instr.retf os as).record t) ∧
    (ia32eOuterReady (Instr.retfImm16 imm16 os as).record s = true →
      ∃ t, exec (.retfImm16 imm16 os as) s = .next t ∧ after (Instr.retfImm16 imm16 os as).record t)

/-- Under `NULL_SS_POLICY = load-null` a NULL stack selector that passes rule R105 is loaded and the return completes, into
64-bit code. -/
def Obligations.FarReturnIa32eNullStackSelectorCompletes : Prop :=
  ∀ (imm16 : BitVec 16) (os as : Size) (s : State),
    let after := fun (r : RetInstr) (t : State) =>
      OuterReturned r s t ∧ NullStackLoaded r s t ∧ OuterSp r s .s64 t.rsp ∧ t.mode64 = true
    (ia32eNullReady (Instr.retf os as).record s = true →
      ∃ t, exec (.retf os as) s = .next t ∧ after (Instr.retf os as).record t) ∧
    (ia32eNullReady (Instr.retfImm16 imm16 os as).record s = true →
      ∃ t, exec (.retfImm16 imm16 os as) s = .next t ∧ after (Instr.retfImm16 imm16 os as).record t)

/-- The first stack checks of rule R97: the second item within the stack limits, except with 64-bit operands, then the
first and the second item at canonical addresses. That the canonical test is of the addresses of the items, and not of the
values stored there, is the spec's own reading, decision D34 (log entry 17). -/
def Obligations.FarReturnIa32eChecksFirstItems : Prop :=
  ∀ (i : Instr) (s : State), i.record.kind = .far → s.params.launchable = true → s.ia32e = true →
    let c := ctxOf i.record s
    let n := i.record.operandSize.bytes
    (i.record.operandSize ≠ .s64 → stackOutside c s n n = true → exec i s = .fault (.exception .ss 0)) ∧
      ((i.record.operandSize = .s64 ∨ stackWithin c s n n = true) →
        canonItem c s 0 n = false ∨ canonItem c s n n = false → exec i s = .fault (.exception .ss 0))

/-- The checks of rule R98 on the return code segment selector and its descriptor, each with its exception, in order. -/
def Obligations.FarReturnIa32eChecksCodeSelector : Prop :=
  ∀ (i : Instr) (s : State), i.record.kind = .far → s.params.launchable = true → s.ia32e = true →
    let c := ctxOf i.record s
    let n := i.record.operandSize.bytes
    canonItem c s 0 n = true → canonItem c s n n = true → stackReadable c s n n = true →
    let sel := returnCs i.record s
    let d := descAt s sel
    if isNull sel then exec i s = .fault (.exception .gp 0)
    else if descInTable s sel = false then exec i s = .fault (.exception .gp (errorCode sel))
    else if canonicalRange s (descAddr s sel) 8 = false then exec i s = .fault (.exception .gp (errorCode sel))
    else if memAdmit s (descAddr s sel) 8 .tableRead = false then exec i s = .refused .memory
    else if d.isCode = false then exec i s = .fault (.exception .gp (errorCode sel))
    else if d.l = true ∧ d.db = true then exec i s = .fault (.exception .gp (errorCode sel))
    else if rpl sel < s.cpl then exec i s = .fault (.exception .gp (errorCode sel))
    else if d.conforming = true ∧ rpl sel < d.dpl then exec i s = .fault (.exception .gp (errorCode sel))
    else if d.conforming = false ∧ d.dpl ≠ rpl sel then exec i s = .fault (.exception .gp (errorCode sel))
    else if d.present = false then exec i s = .fault (.exception .np (errorCode sel))
    else ia32eCodeOk s sel = true

/-- The stack size checks of rules R103 and R104: within the limits, except with 64-bit operands, and at canonical
addresses. -/
def Obligations.FarReturnIa32eChecksOuterStackSize : Prop :=
  ∀ (i : Instr) (s : State), i.record.kind = .far → s.params.launchable = true → s.ia32e = true →
    let c := ctxOf i.record s
    let n := i.record.operandSize.bytes
    let m := 4 * n + i.record.src.toNat
    canonItem c s 0 n = true → canonItem c s n n = true → stackReadable c s n n = true →
    ia32eCodeOk s (returnCs i.record s) = true → s.cpl < rpl (returnCs i.record s) →
    (i.record.operandSize ≠ .s64 → stackOutside c s 0 m = true → exec i s = .fault (.exception .ss 0)) ∧
      ((i.record.operandSize = .s64 ∨ stackWithin c s 0 m = true) → canonItem c s 0 m = false →
        exec i s = .fault (.exception .ss 0))

/-- The NULL arm of rule R105 and the checks of rule R106 on the return stack segment selector and its descriptor, each
with its exception or its refusal, in order. The branch on `NULL_SS_POLICY`, for a NULL selector that passes the first two
tests of the arm, is the spec's own, decision D17, with both values of the parameter modelled (log entry 12). -/
def Obligations.FarReturnIa32eChecksStackSelector : Prop :=
  ∀ (i : Instr) (s : State), i.record.kind = .far → s.params.launchable = true → s.ia32e = true →
    let c := ctxOf i.record s
    let n := i.record.operandSize.bytes
    let m := 4 * n + i.record.src.toNat
    canonItem c s 0 n = true → canonItem c s n n = true → stackReadable c s n n = true →
    ia32eCodeOk s (returnCs i.record s) = true → s.cpl < rpl (returnCs i.record s) →
    (i.record.operandSize = .s64 ∨ stackWithin c s 0 m = true) → canonItem c s 0 m = true →
    stackReadable c s (3 * n + i.record.src.toNat) n = true →
    let sel := returnSs i.record s
    let d := descAt s (returnCs i.record s)
    let ds := descAt s sel
    let level := rpl (returnCs i.record s)
    if isNull sel then
      if d.l = false then exec i s = .fault (.exception .gp (errorCode sel))
      else if rpl sel = 3 then exec i s = .fault (.exception .gp (errorCode sel))
      else if s.params.nullSs = .refuse then exec i s = .refused .nullStackSelector
      else if rpl sel ≠ level then exec i s = .fault (.exception .gp (errorCode sel))
      else nullStackOk s (returnCs i.record s) sel = true
    else if descInTable s sel = false then exec i s = .fault (.exception .gp (errorCode sel))
    else if canonicalRange s (descAddr s sel) 8 = false then exec i s = .fault (.exception .gp (errorCode sel))
    else if memAdmit s (descAddr s sel) 8 .tableRead = false then exec i s = .refused .memory
    else if rpl sel ≠ level ∨ ds.isWritableData = false ∨ ds.dpl ≠ level then
      exec i s = .fault (.exception .gp (errorCode sel))
    else if ds.present = false then exec i s = .fault (.exception .ss (errorCode sel))
    else ia32eStackOk s (returnCs i.record s) sel = true

/-- A target not within the limit of the code segment returned to, or not canonical, raises `#GP(0)`, at the same level
(rule R100) and, after the checks of the stack, at an outer one (rule R107). What is within a code segment limit and what
is canonical are the spec's own decisions D7 and D8 (log entries 17 and 20). -/
def Obligations.FarReturnIa32eChecksTarget : Prop :=
  ∀ (i : Instr) (s : State), i.record.kind = .far → s.params.launchable = true → s.ia32e = true →
    let c := ctxOf i.record s
    let n := i.record.operandSize.bytes
    let m := 4 * n + i.record.src.toNat
    let sel := returnCs i.record s
    canonItem c s 0 n = true → canonItem c s n n = true → stackReadable c s 0 n = true → stackReadable c s n n = true →
    ia32eCodeOk s sel = true →
    (withinDescLimit s (descAt s sel) (returnIp i.record s) = false ∨ canonical s (returnIp i.record s) = false) →
    (rpl sel = s.cpl ∨
      s.cpl < rpl sel ∧ (i.record.operandSize = .s64 ∨ stackWithin c s 0 m = true) ∧ canonItem c s 0 m = true ∧
        stackReadable c s (3 * n + i.record.src.toNat) n = true ∧
        (ia32eStackOk s sel (returnSs i.record s) = true ∨ nullStackOk s sel (returnSs i.record s) = true)) →
    exec i s = .fault (.exception .gp 0)

/-! ### Rules about the whole machine -/

/-- Every step keeps the invariant: the memory in canonical form, the code selector at the current level, and no data
segment register that holds what the level may not keep. -/
def Obligations.StepKeepsInvariant : Prop :=
  ∀ s t : State, Inv s → step s = .next t → Inv t

/-- The state after reset meets the invariant. -/
def Obligations.ResetMeetsInvariant : Prop := Inv State.reset

/-- What reset leaves, as the table of rule R28 gives it for orientation; the registers the table does not name hold the
model's choice (log entries 2 to 4) and are not stated here. -/
def Obligations.ResetValues : Prop :=
  let s := State.reset
  s.pc = 0xFFF0 ∧ s.rsp = 0 ∧ s.cs.sel = 0xF000 ∧ s.cs.hid.base = 0xFFFF0000 ∧ s.cs.hid.limit = 0xFFFF ∧
    s.cs.hid.present = true ∧ s.cs.hid.isCode = true ∧
    (∀ v ∈ [s.ss, s.es, s.fs, s.gs, s.ds], v.sel = 0 ∧ v.hid.base = 0 ∧ v.hid.limit = 0xFFFF ∧ v.hid.present = true ∧
      v.hid.isCode = false ∧ v.hid.writable = true) ∧
    s.cpl = 0 ∧ s.pe = false ∧ s.vm = false ∧ s.lma = false ∧ s.gdtr.base = 0 ∧ s.gdtr.limit = 0xFFFF ∧
    s.ldtr.sel = 0 ∧ s.ldtr.base = 0 ∧ s.ldtr.limit = 0xFFFF ∧ s.realOrV86 = true

/-- The frame rule R25: which registers an instruction that completes may have changed. The flags, the floating-point and
vector state and the control registers of the rule are no part of the state. -/
def Obligations.ReturnFrame : Prop :=
  ∀ (i : Instr) (s t : State), exec i s = .next t →
    t.gprs = s.gprs ∧ t.pe = s.pe ∧ t.vm = s.vm ∧ t.lma = s.lma ∧ t.gdtr = s.gdtr ∧ t.ldtr = s.ldtr ∧
      t.params = s.params ∧
      (i.record.kind = .near → t.cs = s.cs ∧ SameBytes s t) ∧
      (i.record.kind = .near ∨ t.cpl = s.cpl →
        t.cpl = s.cpl ∧ t.ss = s.ss ∧ t.es = s.es ∧ t.fs = s.fs ∧ t.gs = s.gs ∧ t.ds = s.ds)

/-- The instruction's only store (rules R25, R54): in a memory in canonical form, a byte that differs after an
instruction is byte 5 of the descriptor its new `CS` or `SS` names, and differs by its bit 0 having been set. -/
def Obligations.OnlyAccessedBitsAreWritten : Prop :=
  ∀ (i : Instr) (s t : State) (a : Nat), s.mem.wf = true → exec i s = .next t → t.mem.read a ≠ s.mem.read a →
    i.record.kind = .far ∧ s.realOrV86 = false ∧ s.params.setAccessed = true ∧
      (a = (accessedAddr s t.cs.sel).toNat ∨ a = (accessedAddr s t.ss.sel).toNat ∧ s.cpl < t.cpl) ∧
      (s.mem.read a).getLsbD 0 = false ∧ t.mem.read a = s.mem.read a ||| 1

/-- No return moves to a more privileged level, and only a far return in protected or IA-32e mode changes the level, to
the level its code selector requests (rule R126). -/
def Obligations.NoReturnGainsPrivilege : Prop :=
  ∀ (i : Instr) (s t : State), exec i s = .next t →
    s.cpl ≤ t.cpl ∧
      (t.cpl ≠ s.cpl → i.record.kind = .far ∧ s.realOrV86 = false ∧ t.cpl = rpl (returnCs i.record s))

/-- A return that changes the level leaves in `ES`, `FS`, `GS` and `DS` what rule R94 says: a valid register with a data or
non-conforming code segment more privileged than the new level has its selector zeroed and is invalid, its other hidden
fields as before; any other is as it was. That an invalid register is skipped, and what else of a nulled one stays, are the
spec's own decisions D35 and D19 (log entry 17). -/
def Obligations.OuterReturnInvalidatesDataSegments : Prop :=
  ∀ (i : Instr) (s t : State), exec i s = .next t → t.cpl ≠ s.cpl →
    ∀ p ∈ [(s.es, t.es), (s.fs, t.fs), (s.gs, t.gs), (s.ds, t.ds)],
      if p.1.hid.valid = true ∧ (p.1.hid.isCode = false ∨ p.1.hid.conforming = false) ∧ p.1.hid.dpl < t.cpl then
        p.2 = { sel := 0, hid := { p.1.hid with valid := false } }
      else p.2 = p.1

/-- The mode class stays; after a far return that began in IA-32e mode the sub-mode is the one the `L` bit of the
descriptor named by the selector on the stack gives (rule R109). -/
def Obligations.FarReturnKeepsModeClass : Prop :=
  ∀ (i : Instr) (s t : State), i.record.kind = .far → exec i s = .next t →
    t.realOrV86 = s.realOrV86 ∧ t.protectedMode = s.protectedMode ∧ t.ia32e = s.ia32e ∧
      (s.ia32e = true → t.mode64 = (descAt s (returnCs i.record s)).l)

/-- Every fault of an instruction is one of the three exceptions, with an error code whose two low-order bits are zero
(rules R113, R117). -/
def Obligations.FaultsAreExceptionsWithErrorCodes : Prop :=
  ∀ (i : Instr) (s : State) (f : Fault), exec i s = .fault f → ∃ x e, f = .exception x e ∧ e &&& 3 = 0

/-- `#NP` has one cause (rule R116): a return code segment descriptor that has passed every type and privilege check and
is not present, with the return code segment selector as error code. -/
def Obligations.NotPresentFaultHasOneCause : Prop :=
  ∀ (i : Instr) (s : State) (e : Selector), exec i s = .fault (.exception .np e) →
    let sel := returnCs i.record s
    let d := descAt s sel
    i.record.kind = .far ∧ s.realOrV86 = false ∧ e = errorCode sel ∧ isNull sel = false ∧ descInTable s sel = true ∧
      d.isCode = true ∧ s.cpl ≤ rpl sel ∧ (d.conforming = true → d.dpl ≤ rpl sel) ∧
      (d.conforming = false → d.dpl = rpl sel) ∧ d.present = false

/-- The free values reach nothing but the stack pointer and the count of draws (rule R12, log entry 6): on states that
differ in the count alone an instruction stops alike, and its next states differ in those two alone. -/
def Obligations.DrawsReachOnlyTheStackPointer : Prop :=
  ∀ (i : Instr) (s : State) (k : Nat),
    (∀ t, exec i s = .next t →
      ∃ t', exec i { s with draws := k } = .next t' ∧ t' = { t with rsp := t'.rsp, draws := t'.draws }) ∧
      (∀ f, exec i s = .fault f → exec i { s with draws := k } = .fault f) ∧
      ∀ r, exec i s = .refused r → exec i { s with draws := k } = .refused r

/-! ### The primitives -/

/-- `WriteSP` of rule R14 at its three widths, and the three additions it is used for: the low bits take the value modulo
the width; bits 63:32 become 0 when the instruction began in 64-bit mode or under `UPPER_SP_POLICY = zero`; a 16-bit
write leaves bits 63:16; nothing else is written. What becomes of the bits above a narrower write is the spec's own decision
D14, with both values of the policy modelled (log entry 13), and the count of draws is the model's (log entry 6). -/
def Obligations.WriteStackPointer : Prop :=
  ∀ (mode64 : Bool) (s : State) (v : Word) (src : BitVec 16),
    (writeSp mode64 .s64 v s).rsp = v ∧
      (writeSp mode64 .s32 v s).rsp.toNat % 2 ^ 32 = v.toNat % 2 ^ 32 ∧
      (mode64 = true ∨ s.params.upperSp = .zero → (writeSp mode64 .s32 v s).rsp.toNat < 2 ^ 32) ∧
      (writeSp mode64 .s16 v s).rsp.toNat % 2 ^ 16 = v.toNat % 2 ^ 16 ∧
      (writeSp mode64 .s16 v s).rsp.toNat / 2 ^ 16 = s.rsp.toNat / 2 ^ 16 ∧
      (release mode64 .s16 src s).rsp.toNat % 2 ^ 16 = (s.rsp.toNat + src.toNat) % 2 ^ 16 ∧
      (release mode64 .s32 src s).rsp.toNat % 2 ^ 32 = (s.rsp.toNat + src.toNat) % 2 ^ 32 ∧
      (release mode64 .s64 src s).rsp.toNat = (s.rsp.toNat + src.toNat) % 2 ^ 64 ∧
      ∀ w : Size, writeSp mode64 w v s =
        { s with rsp := (writeSp mode64 w v s).rsp, draws := (writeSp mode64 w v s).draws }

/-- The release of rule R81 in real-address and virtual-8086 mode: `SP` alone is raised by `SRC`, modulo 2^16, in a form
with an immediate operand; bits 63:16 and everything else stay. That the addition wraps and that bits 63:16 stay are the
spec's own decisions D5 and D14 (log entries 17 and 13). -/
def Obligations.RealReleaseWritesSpAlone : Prop :=
  ∀ (i : RetInstr) (s : State),
    releaseRealV86 i s = { s with rsp := (releaseRealV86 i s).rsp } ∧
      (releaseRealV86 i s).rsp.toNat / 2 ^ 16 = s.rsp.toNat / 2 ^ 16 ∧
      (releaseRealV86 i s).rsp.toNat % 2 ^ 16 =
        (s.rsp.toNat + if i.hasImm then i.src.toNat else 0) % 2 ^ 16

/-- `Canonical(a)` of rule R35: bits 63 down to `VA_BITS-1` are all equal, for every number of implemented bits from 1 to
64; with 48 of them, the two ranges the rule prints; `CanonicalRange` by its two ends; and outside 64-bit mode every
linear address an offset gives is canonical, for 33 implemented bits or more. The definition, with `VA_BITS` as a parameter,
is the spec's own decision D8 (log entry 20). The last clause is the remark rule R35 marks as derived from rule R39, and its
bound of 33 bits is the model's addition: the remark names none, and it fails below. -/
def Obligations.CanonicalAddresses : Prop :=
  ∀ (s : State) (a : Word), 1 ≤ s.params.vaBits → s.params.vaBits ≤ 64 →
    (canonical s a = true ↔ ∀ j, s.params.vaBits - 1 ≤ j → j < 64 → a.getLsbD j = a.getLsbD 63) ∧
      (s.params.vaBits = 48 → (canonical s a = true ↔ a ≤ 0x00007FFFFFFFFFFF ∨ 0xFFFF800000000000 ≤ a)) ∧
      (∀ n, 1 ≤ n → (canonicalRange s a n = true ↔
        canonical s a = true ∧ canonical s (a + BitVec.ofNat 64 (n - 1)) = true ∧ a.toNat + n - 1 < 2 ^ 64)) ∧
      (33 ≤ s.params.vaBits → ∀ r off, canonical s (lin false s r off) = true)

/-- A selector's fields (rule R40): it is the index, the table indicator and the RPL in that order, and it is NULL exactly
when it is one of 0 to 3. The layout is the spec's own decision D22 (log entry 17). -/
def Obligations.SelectorFields : Prop :=
  ∀ sel : Selector,
    sel.toNat = selIndex sel * 8 + (if tableIndicator sel then 4 else 0) + (rpl sel).toNat ∧
      (isNull sel = true ↔ sel = 0 ∨ sel = 1 ∨ sel = 2 ∨ sel = 3)

/-- The lookup of rules R41 and R42, in numbers: the local table when bit 2 of the selector is set, the entry's eight
bytes within the table's limit, and its address modulo 2^32 outside IA-32e mode and modulo 2^64 in it. The choice of table,
the 8-byte entry and the comparison are the spec's own decision D31 (log entry 17). -/
def Obligations.DescriptorTableLookup : Prop :=
  ∀ (s : State) (sel : Selector),
    let offset := sel.toNat / 8 * 8
    let local' := sel.toNat / 4 % 2 = 1
    (descInTable s sel = true ↔
      if local' then s.ldtr.valid = true ∧ offset + 7 ≤ s.ldtr.limit.toNat else offset + 7 ≤ s.gdtr.limit.toNat) ∧
    (descAddr s sel).toNat =
      ((if local' then s.ldtr.base.toNat else s.gdtr.base.toNat) + offset) % (if s.ia32e then 2 ^ 64 else 2 ^ 32)

/-- The descriptor record of rule R43, in numbers. The layout is the spec's own decision D22 (log entry 17). -/
def Obligations.DescriptorFields : Prop :=
  ∀ q : Word,
    let bit := fun k => q.toNat / 2 ^ k % 2 = 1
    let d := decodeDescriptor q
    (d.isCode = true ↔ bit 44 ∧ bit 43) ∧ (d.isWritableData = true ↔ bit 44 ∧ ¬bit 43 ∧ bit 41) ∧
      (d.conforming = true ↔ bit 44 ∧ bit 43 ∧ bit 42) ∧ (d.writable = true ↔ bit 44 ∧ ¬bit 43 ∧ bit 41) ∧
      (d.expandDown = true ↔ bit 44 ∧ ¬bit 43 ∧ bit 42) ∧ d.dpl.toNat = q.toNat / 2 ^ 45 % 4 ∧
      (d.present = true ↔ bit 47) ∧ (d.l = true ↔ bit 53) ∧ (d.db = true ↔ bit 54) ∧ (d.g = true ↔ bit 55) ∧
      d.base.toNat = q.toNat / 2 ^ 56 * 2 ^ 24 + q.toNat / 2 ^ 16 % 2 ^ 24 ∧
      d.limit20.toNat = q.toNat / 2 ^ 48 % 16 * 2 ^ 16 + q.toNat % 2 ^ 16

/-- The effective limit of rule R44, which the hidden part of a loaded register holds. The format it reads is the spec's own
decision D22 (log entry 17). -/
def Obligations.EffectiveLimit : Prop :=
  ∀ d : Descriptor,
    (effLimit d).toNat = (if d.g then d.limit20.toNat * 4096 + 0xFFF else d.limit20.toNat) ∧
      (hiddenOf d).limit = effLimit d

/-- The error code of rule R117: the selector with its two low-order bits cleared, zero for a NULL selector. The layout is
the spec's own decision D24, and the code of a NULL selector its decision D36 (log entry 17). -/
def Obligations.ErrorCodes : Prop :=
  ∀ sel : Selector, (errorCode sel).toNat = sel.toNat / 4 * 4 ∧ (isNull sel = true → errorCode sel = 0)

/-- The linear address of rule R39: in 64-bit mode the offset itself through `CS`, `SS`, `DS` and `ES`; otherwise the base
plus the offset, modulo 2^32. -/
def Obligations.LinearAddresses : Prop :=
  ∀ (mode64 : Bool) (s : State) (r : SegName) (off : Word),
    (lin mode64 s r off).toNat =
      if mode64 = true ∧ r ≠ .fs ∧ r ≠ .gs then off.toNat else ((s.seg r).hid.base.toNat + off.toNat) % 2 ^ 32

/-- `WithinStackLimits` of rule R34, in numbers, over the offset of rule R33. The canonical test of 64-bit mode and
the range of an expand-down segment are the spec's own decisions D6 and D32 (log entry 17). The last clause, that the refusal
is reached only by a 16-bit stack in an expand-up segment whose limit exceeds FFFFH, is the remark rule R34 marks as
derived. -/
def Obligations.StackLimits : Prop :=
  ∀ (c : StackCtx) (s : State) (k n : Nat), 1 ≤ n →
    let o := (s.rsp.toNat + k) % 2 ^ c.w.bits
    (withinStackLimits c s k n =
      if c.mode64 = true then .ok (canonicalRange s (BitVec.ofNat 64 o) n)
      else if s.ss.hid.valid = false then .ok false
      else if s.ss.hid.expandDown = false then
        if s.ss.hid.limit.toNat < o + n - 1 then .ok false
        else if 2 ^ c.w.bits ≤ o + n - 1 then .error (.refused .stackWrap)
        else .ok true
      else .ok (decide (s.ss.hid.limit.toNat < o ∧ o + n - 1 ≤ if s.ss.hid.db = true then 0xFFFFFFFF else 0xFFFF))) ∧
      (withinStackLimits c s k n = .error (.refused .stackWrap) →
        c.w = .s16 ∧ s.ss.hid.expandDown = false ∧ 0xFFFF < s.ss.hid.limit.toNat)

/-- `StackRead` and `Pop` of rules R36 and R37: the check of the item's own bytes, the read at its linear address where the
launch admits it (rule R49), and for a pop the raise of the stack pointer over it; memory is not written. That a read and
a pop test the limits themselves is the spec's own decision D4 (log entry 17). -/
def Obligations.StackReadsAndPops : Prop :=
  ∀ (c : StackCtx) (s : State) (k n : Nat),
    let a := lin c.mode64 s .ss (stackOff c s k)
    (stackRead c s k n =
      match withinStackLimits c s k n with
      | .error stop => .error stop
      | .ok false => .error (.fault (.exception .ss 0))
      | .ok true =>
        if memAdmit s a n .stackRead = true then .ok (memValue s a n) else .error (.refused .memory)) ∧
      (∀ v, stackRead c s 0 n = .ok v → pop c s n = .ok (v, writeSp c.mode64 c.w (s.rsp + BitVec.ofNat 64 n) s)) ∧
      (∀ stop, stackRead c s 0 n = .error stop → pop c s n = .error stop) ∧
      ∀ v t, pop c s n = .ok (v, t) → t = { s with rsp := t.rsp, draws := t.draws } ∧
        RaisedSp (c.mode64 || s.params.upperSp = .zero) c.w n s.rsp t.rsp

/-- `WithinCodeLimit` of rule R38, for the code segment in force and for a descriptor: always in 64-bit code in IA-32e mode,
and otherwise by the effective limit. The comparison of the pointer alone and the exemption of 64-bit code are the spec's
own decision D7 (log entry 17). -/
def Obligations.CodeLimits : Prop :=
  ∀ (s : State) (d : Descriptor) (ip : Word),
    (withinCsLimit s ip = true ↔ s.ia32e = true ∧ s.cs.hid.l = true ∨ ip.toNat ≤ s.cs.hid.limit.toNat) ∧
      (withinDescLimit s d ip = true ↔ s.ia32e = true ∧ d.l = true ∨ ip.toNat ≤ (effLimit d).toNat)

/-- A byte written is read back at its address, every other byte reads as before, the canonical form is kept, and memories
in that form that read alike are one (rules R31, R50; the form is the model's, log entry 1). -/
def Obligations.MemoryReadAfterWrite : Prop :=
  ∀ (m : Memory) (a : Nat) (b : Byte), m.wf = true → a < 2 ^ 64 →
    (∀ a', (m.write a b).read a' = if a' = a then b else m.read a') ∧ (m.write a b).wf = true ∧
      ∀ m' : Memory, m'.wf = true → (∀ a', m'.read a' = (m.write a b).read a') → m' = m.write a b

/-- `MemRead` is little-endian (rule R32): byte `j` of the value read is the byte `j` above the address, and there are no
bits above the bytes read, for bytes inside the address space of the mode (rule R31). -/
def Obligations.MemoryReadsAreLittleEndian : Prop :=
  ∀ (s : State) (a : Word) (n j : Nat), n ≤ 8 →
    a.toNat + n ≤ (if s.ia32e then 2 ^ 64 else 2 ^ 32) →
    (memValue s a n).extractLsb' (8 * j) 8 = if j < n then s.mem.read (a.toNat + j) else 0

/-- `SetAccessed` of rule R54: under `SET_ACCESSED`, with its accesses admitted, a clear accessed bit of the descriptor is
set in memory by the one byte at `DescAddr(s) + 5`; otherwise it does nothing. -/
def Obligations.SetAccessedWritesOneBit : Prop :=
  ∀ (s : State) (sel : Selector), s.mem.wf = true → accessedAdmitted s sel = true →
    ∃ t, setAccessed sel s = .ok t ∧ t = { s with mem := t.mem } ∧
      let at5 := (accessedAddr s sel).toNat
      if s.params.setAccessed = true ∧ (memValue s (descAddr s sel) 8).getLsbD 40 = false then
        ∀ a, t.mem.read a = if a = at5 then s.mem.read a ||| 1 else s.mem.read a
      else t.mem = s.mem
end

