-- ==== Sys2Proof/Laws/Memory.lean ====
section
/-! SUPPORT. What the memory operations do: a write is read back, touches nothing else, and keeps the canonical form. -/

namespace Sys2Proof.Machine

theorem Memory.wfFrom_cons {lo : Nat} {c : Host.Cell} {m : Memory} :
    Memory.wfFrom lo (c :: m) = true ↔
      lo ≤ c.1 ∧ c.1 < 2 ^ 64 ∧ c.2 ≠ Memory.unlisted ∧ Memory.wfFrom (c.1 + 1) m = true := by
  simp [Memory.wfFrom, and_assoc]

theorem Memory.wfFrom_mono {lo lo' : Nat} {m : Memory} (hle : lo ≤ lo') (h : Memory.wfFrom lo' m = true) :
    Memory.wfFrom lo m = true := by
  cases m with
  | nil => rfl
  | cons c m =>
    rw [Memory.wfFrom_cons] at h ⊢
    exact ⟨hle.trans h.1, h.2⟩

/-- Below its first address a memory holds what an unlisted address holds. -/
theorem Memory.read_eq_unlisted_of_lt {lo a : Nat} {m : Memory} (h : Memory.wfFrom lo m = true) (ha : a < lo) :
    Memory.read m a = Memory.unlisted := by
  induction m generalizing lo with
  | nil => rfl
  | cons c m ih =>
    rw [Memory.wfFrom_cons] at h
    have hne : c.1 ≠ a := by omega
    simp [Memory.read, hne, ih h.2.2.2 (by omega)]

theorem Memory.wfFrom_consByte {lo a : Nat} {b : Byte} {m : Memory} (h : Memory.wfFrom (a + 1) m = true)
    (hlo : lo ≤ a) (ha : a < 2 ^ 64) : Memory.wfFrom lo (Memory.cons a b m) = true := by
  unfold Memory.cons
  split
  · exact Memory.wfFrom_mono (by omega) h
  · exact Memory.wfFrom_cons.mpr ⟨hlo, ha, ‹_›, h⟩

theorem Memory.read_consByte {lo a a' : Nat} {b : Byte} {m : Memory} (h : Memory.wfFrom lo m = true) (ha : a < lo) :
    Memory.read (Memory.cons a b m) a' = if a' = a then b else Memory.read m a' := by
  unfold Memory.cons
  by_cases hb : b = Memory.unlisted
  · by_cases haa : a' = a
    · subst haa hb; simp [Memory.read_eq_unlisted_of_lt h ha]
    · simp [hb, haa]
  · by_cases haa : a' = a
    · subst haa; simp [hb, Memory.read]
    · have : a ≠ a' := fun e => haa e.symm
      simp [hb, haa, Memory.read, this]

/-- A write keeps the canonical form. -/
theorem Memory.wfFrom_write {lo a : Nat} {b : Byte} {m : Memory} (h : Memory.wfFrom lo m = true) (hlo : lo ≤ a)
    (ha : a < 2 ^ 64) : Memory.wfFrom lo (Memory.write m a b) = true := by
  induction m generalizing lo with
  | nil => exact Memory.wfFrom_consByte rfl hlo ha
  | cons c m ih =>
    have hc := Memory.wfFrom_cons.mp h
    unfold Memory.write
    split_ifs with h1 h2
    · exact Memory.wfFrom_consByte (Memory.wfFrom_cons.mpr ⟨h1, hc.2⟩) hlo ha
    · exact Memory.wfFrom_consByte (h2 ▸ hc.2.2.2) hlo ha
    · exact Memory.wfFrom_cons.mpr ⟨hc.1, hc.2.1, hc.2.2.1, ih hc.2.2.2 (by omega)⟩

/-- A write is read back at its address and leaves every other address alone. -/
theorem Memory.read_write_from {lo a a' : Nat} {b : Byte} {m : Memory} (h : Memory.wfFrom lo m = true) :
    Memory.read (Memory.write m a b) a' = if a' = a then b else Memory.read m a' := by
  induction m generalizing lo with
  | nil => exact Memory.read_consByte (lo := a + 1) rfl (by omega)
  | cons c m ih =>
    have hc := Memory.wfFrom_cons.mp h
    unfold Memory.write
    by_cases h1 : a < c.1
    · rw [if_pos h1]
      exact Memory.read_consByte (Memory.wfFrom_cons.mpr ⟨le_refl c.1, hc.2⟩) h1
    by_cases h2 : a = c.1
    · rw [if_neg h1, if_pos h2, Memory.read_consByte hc.2.2.2 (by omega : a < c.1 + 1)]
      by_cases h3 : a' = a
      · simp [h3]
      · have : c.1 ≠ a' := by omega
        simp [h3, Memory.read, this]
    · rw [if_neg h1, if_neg h2]
      by_cases hca : c.1 = a'
      · have : a' ≠ a := by omega
        simp [Memory.read, hca, this]
      · simpa [Memory.read, hca] using ih hc.2.2.2

theorem Memory.wf_write {m : Memory} {a : Nat} {b : Byte} (h : m.wf = true) (ha : a < 2 ^ 64) :
    (m.write a b).wf = true :=
  Memory.wfFrom_write h (Nat.zero_le a) ha

theorem Memory.read_write {m : Memory} {a a' : Nat} {b : Byte} (h : m.wf = true) :
    (m.write a b).read a' = if a' = a then b else m.read a' :=
  Memory.read_write_from h

/-- Two memories in canonical form that read alike are equal data. -/
theorem Memory.ext_from {lo : Nat} {m m' : Memory} (h : Memory.wfFrom lo m = true) (h' : Memory.wfFrom lo m' = true)
    (hr : ∀ a, Memory.read m a = Memory.read m' a) : m = m' := by
  induction m generalizing lo m' with
  | nil =>
    cases m' with
    | nil => rfl
    | cons c' m' =>
      have := hr c'.1
      simp [Memory.read] at this
      exact absurd this.symm (Memory.wfFrom_cons.mp h').2.2.1
  | cons c m ih =>
    have hc := Memory.wfFrom_cons.mp h
    cases m' with
    | nil =>
      have := hr c.1
      simp [Memory.read] at this
      exact absurd this hc.2.2.1
    | cons c' m' =>
      have hc' := Memory.wfFrom_cons.mp h'
      have h1 : c.1 = c'.1 := by
        rcases lt_trichotomy c.1 c'.1 with hlt | heq | hgt
        · have := hr c.1
          rw [Memory.read_eq_unlisted_of_lt (Memory.wfFrom_cons.mpr ⟨le_refl c'.1, hc'.2⟩) hlt] at this
          simp [Memory.read] at this
          exact absurd this hc.2.2.1
        · exact heq
        · have := hr c'.1
          rw [Memory.read_eq_unlisted_of_lt (Memory.wfFrom_cons.mpr ⟨le_refl c.1, hc.2⟩) hgt] at this
          simp [Memory.read] at this
          exact absurd this.symm hc'.2.2.1
      have h2 : c = c' := Prod.ext h1 (by simpa [Memory.read, h1] using hr c.1)
      subst h2
      refine congrArg _ (ih hc.2.2.2 hc'.2.2.2 fun a => ?_)
      by_cases ha : c.1 = a
      · rw [Memory.read_eq_unlisted_of_lt hc.2.2.2 (by omega), Memory.read_eq_unlisted_of_lt hc'.2.2.2 (by omega)]
      · simpa [Memory.read, ha] using hr a

/-- The canonical form is one: memories that read alike everywhere are equal. -/
theorem Memory.ext_read {m m' : Memory} (h : m.wf = true) (h' : m'.wf = true) (hr : ∀ a, m.read a = m'.read a) :
    m = m' :=
  Memory.ext_from h h' hr

end Sys2Proof.Machine
end

