-- ==== Sys2Proof/Laws/State.lean ====
section
/-! SUPPORT. What each update of the state leaves of each field: the small lemmas that keep later proofs from unfolding an
update. -/

namespace Sys2Proof.Machine

variable (s : State) (r : SegName) (v : SegReg) (m : Bool) (w : Size) (x : Word)

@[simp] theorem setSeg_pc : (s.setSeg r v).pc = s.pc := by cases r <;> rfl
@[simp] theorem setSeg_rsp : (s.setSeg r v).rsp = s.rsp := by cases r <;> rfl
@[simp] theorem setSeg_gprs : (s.setSeg r v).gprs = s.gprs := by cases r <;> rfl
@[simp] theorem setSeg_cpl : (s.setSeg r v).cpl = s.cpl := by cases r <;> rfl
@[simp] theorem setSeg_pe : (s.setSeg r v).pe = s.pe := by cases r <;> rfl
@[simp] theorem setSeg_vm : (s.setSeg r v).vm = s.vm := by cases r <;> rfl
@[simp] theorem setSeg_lma : (s.setSeg r v).lma = s.lma := by cases r <;> rfl
@[simp] theorem setSeg_gdtr : (s.setSeg r v).gdtr = s.gdtr := by cases r <;> rfl
@[simp] theorem setSeg_ldtr : (s.setSeg r v).ldtr = s.ldtr := by cases r <;> rfl
@[simp] theorem setSeg_mem : (s.setSeg r v).mem = s.mem := by cases r <;> rfl
@[simp] theorem setSeg_params : (s.setSeg r v).params = s.params := by cases r <;> rfl
@[simp] theorem setSeg_draws : (s.setSeg r v).draws = s.draws := by cases r <;> rfl

@[simp] theorem seg_setSeg_same : (s.setSeg r v).seg r = v := by cases r <;> rfl

theorem seg_setSeg_other {r r' : SegName} (h : r' ≠ r) : (s.setSeg r v).seg r' = s.seg r' := by
  cases r <;> cases r' <;> first | rfl | exact absurd rfl h

@[simp] theorem setSeg_cs_eq : s.setSeg .cs v = { s with cs := v } := rfl
@[simp] theorem setSeg_ss_eq : s.setSeg .ss v = { s with ss := v } := rfl

/-- Two states differ at most in the stack pointer and the count of draws. -/
def SameButSp (s t : State) : Prop := t = { s with rsp := t.rsp, draws := t.draws }

theorem SameButSp.rfl (s : State) : SameButSp s s := Eq.refl s

theorem SameButSp.trans {s t u : State} (h : SameButSp s t) (h' : SameButSp t u) : SameButSp s u := by
  unfold SameButSp at *; rw [h', h]

/-- A write of the stack pointer writes nothing else, but for the count of draws. -/
theorem writeSp_sameButSp : SameButSp s (writeSp m w x s) := by
  unfold SameButSp writeSp upper32
  cases w <;> cases m <;> cases s.params.upperSp <;> simp

@[simp] theorem writeSp_pc : (writeSp m w x s).pc = s.pc := by rw [writeSp_sameButSp s m w x]
@[simp] theorem writeSp_gprs : (writeSp m w x s).gprs = s.gprs := by rw [writeSp_sameButSp s m w x]
@[simp] theorem writeSp_cs : (writeSp m w x s).cs = s.cs := by rw [writeSp_sameButSp s m w x]
@[simp] theorem writeSp_ss : (writeSp m w x s).ss = s.ss := by rw [writeSp_sameButSp s m w x]
@[simp] theorem writeSp_es : (writeSp m w x s).es = s.es := by rw [writeSp_sameButSp s m w x]
@[simp] theorem writeSp_fs : (writeSp m w x s).fs = s.fs := by rw [writeSp_sameButSp s m w x]
@[simp] theorem writeSp_gs : (writeSp m w x s).gs = s.gs := by rw [writeSp_sameButSp s m w x]
@[simp] theorem writeSp_ds : (writeSp m w x s).ds = s.ds := by rw [writeSp_sameButSp s m w x]
@[simp] theorem writeSp_cpl : (writeSp m w x s).cpl = s.cpl := by rw [writeSp_sameButSp s m w x]
@[simp] theorem writeSp_pe : (writeSp m w x s).pe = s.pe := by rw [writeSp_sameButSp s m w x]
@[simp] theorem writeSp_vm : (writeSp m w x s).vm = s.vm := by rw [writeSp_sameButSp s m w x]
@[simp] theorem writeSp_lma : (writeSp m w x s).lma = s.lma := by rw [writeSp_sameButSp s m w x]
@[simp] theorem writeSp_gdtr : (writeSp m w x s).gdtr = s.gdtr := by rw [writeSp_sameButSp s m w x]
@[simp] theorem writeSp_ldtr : (writeSp m w x s).ldtr = s.ldtr := by rw [writeSp_sameButSp s m w x]
@[simp] theorem writeSp_mem : (writeSp m w x s).mem = s.mem := by rw [writeSp_sameButSp s m w x]
@[simp] theorem writeSp_params : (writeSp m w x s).params = s.params := by rw [writeSp_sameButSp s m w x]

theorem release_sameButSp (src : BitVec 16) : SameButSp s (release m w src s) := writeSp_sameButSp s m w _

theorem releaseIf_sameButSp (b : Bool) (src : BitVec 16) : SameButSp s (releaseIf b m w src s) := by
  cases b
  · exact SameButSp.rfl s
  · exact release_sameButSp s m w src

theorem upper16_sameButSp : SameButSp s (upper16 s).2 := by
  unfold SameButSp upper16
  cases s.params.upperSp <;> simp

/-- The loading of the stack pointer in a return to an outer level writes nothing else, but for the count of draws. -/
theorem loadSp_sameButSp (os : Size) : SameButSp s (loadSp m os x s) := by
  unfold loadSp
  cases os
  · exact (upper16_sameButSp s).trans (writeSp_sameButSp ..)
  · exact writeSp_sameButSp ..
  · exact writeSp_sameButSp ..

@[simp] theorem setCsRpl_eq :
    setCsRpl s = { s with cs := { s.cs with sel := s.cs.sel.extractLsb' 2 14 ++ s.cpl } } := rfl

/-- The loop over the data segment registers, in one update: each register by itself. -/
theorem invalidateDataSegs_eq :
    invalidateDataSegs s = { s with es := invalidated s.cpl s.es, fs := invalidated s.cpl s.fs,
                                    gs := invalidated s.cpl s.gs, ds := invalidated s.cpl s.ds } := rfl

@[simp] theorem nullSeg_sel : (nullSeg v).sel = 0 := rfl
@[simp] theorem nullSeg_valid : (nullSeg v).hid.valid = false := rfl

/-- After the loop a register holds nothing the level may not keep. -/
@[simp] theorem mustNull_invalidated (cpl : BitVec 2) : mustNull cpl (invalidated cpl v) = false := by
  unfold invalidated
  split
  · simp [mustNull]
  · simpa using ‹¬mustNull cpl v = true›

end Sys2Proof.Machine
end

