-- ==== Sys2Proof/Laws/Ops.lean ====
section
/-! SUPPORT. For each shared operation, once, everything it can do. -/

namespace Sys2Proof.Machine

open Sys2Proof.Safety

@[simp] theorem raiseUnless_eq_ok {c : Bool} {x : Exception} {e : Selector} {u : Unit} :
    raiseUnless c x e = .ok u ↔ c = true := by
  cases c <;> simp [raiseUnless, raise]

@[simp] theorem raiseUnless_eq_error {c : Bool} {x : Exception} {e : Selector} {p : Stop} :
    raiseUnless c x e = .error p ↔ c = false ∧ p = .fault (.exception x e) := by
  cases c <;> simp [raiseUnless, raise, eq_comm]

@[simp] theorem raiseIf_eq_ok {c : Bool} {x : Exception} {e : Selector} {u : Unit} :
    raiseIf c x e = .ok u ↔ c = false := by
  cases c <;> simp [raiseIf, raise]

@[simp] theorem raiseIf_eq_error {c : Bool} {x : Exception} {e : Selector} {p : Stop} :
    raiseIf c x e = .error p ↔ c = true ∧ p = .fault (.exception x e) := by
  cases c <;> simp [raiseIf, raise, eq_comm]

@[simp] theorem refuseIf_eq_ok {c : Bool} {r : Refusal} {u : Unit} : refuseIf c r = .ok u ↔ c = false := by
  cases c <;> simp [refuseIf, refuse]

@[simp] theorem refuseIf_eq_error {c : Bool} {r : Refusal} {p : Stop} :
    refuseIf c r = .error p ↔ c = true ∧ p = .refused r := by
  cases c <;> simp [refuseIf, refuse, eq_comm]

/-- What a sequence of operations answers: the first gives a value, and the second its answer from it. -/
theorem bind_eq_ok {α β : Type} {r : Res α} {f : α → Res β} {b : β} :
    (r >>= f) = .ok b ↔ ∃ a, r = .ok a ∧ f a = .ok b := by
  cases r <;> simp [bind, Except.bind]

/-- How a sequence of operations stops: in the first, or in the second after a value of the first. -/
theorem bind_eq_error {α β : Type} {r : Res α} {f : α → Res β} {p : Stop} :
    (r >>= f) = .error p ↔ r = .error p ∨ ∃ a, r = .ok a ∧ f a = .error p := by
  cases r <;> simp [bind, Except.bind]

@[simp] theorem ok_bind {α β : Type} (a : α) (f : α → Res β) : ((.ok a : Res α) >>= f) = f a := rfl

@[simp] theorem error_bind {α β : Type} (p : Stop) (f : α → Res β) : ((.error p : Res α) >>= f) = .error p := rfl

theorem outcome_eq_next {r : Res State} {t : State} : outcome r = .next t ↔ r = .ok t := by
  unfold outcome; split <;> simp

theorem outcome_eq_fault {r : Res State} {f : Fault} : outcome r = .fault f ↔ r = .error (.fault f) := by
  unfold outcome; split <;> simp

theorem outcome_eq_refused {r : Res State} {q : Refusal} : outcome r = .refused q ↔ r = .error (.refused q) := by
  unfold outcome; split <;> simp

/-- A next state comes from a launch the spec does not refuse and an operation that completes. -/
theorem perform_eq_next {s t : State} {r : Res State} :
    perform s r = .next t ↔ s.params.launchable = true ∧ r = .ok t := by
  unfold perform; split <;> simp_all [outcome_eq_next]

theorem perform_eq_fault {s : State} {r : Res State} {f : Fault} :
    perform s r = .fault f ↔ s.params.launchable = true ∧ r = .error (.fault f) := by
  unfold perform; split <;> simp_all [outcome_eq_fault]

/-- The stack check passes exactly within the limits. -/
@[simp] theorem checkStack_eq_ok {c : StackCtx} {s : State} {k n : Nat} {u : Unit} :
    checkStack c s k n = .ok u ↔ stackWithin c s k n = true := by
  unfold checkStack stackWithin
  cases withinStackLimits c s k n <;> simp

/-- Outside the limits the stack check raises `#SS(0)`. -/
theorem checkStack_of_outside {c : StackCtx} {s : State} {k n : Nat} (h : stackOutside c s k n = true) :
    checkStack c s k n = raise .ss 0 := by
  unfold checkStack
  unfold stackOutside at h
  cases hw : withinStackLimits c s k n <;> simp_all [raiseUnless]

/-- `WithinStackLimits` stops only by the refusal of an item on both sides of offset 2^16. -/
theorem withinStackLimits_eq_error {c : StackCtx} {s : State} {k n : Nat} {p : Stop} :
    withinStackLimits c s k n = .error p → p = .refused .stackWrap := by
  unfold withinStackLimits refuse
  dsimp only
  split_ifs <;> intro h <;> simp_all

theorem checkStack_eq_error {c : StackCtx} {s : State} {k n : Nat} {p : Stop} (h : checkStack c s k n = .error p) :
    p = .refused .stackWrap ∨ p = .fault (.exception .ss 0) := by
  unfold checkStack at h
  rcases bind_eq_error.mp h with h | ⟨b, -, h⟩
  · exact .inl (withinStackLimits_eq_error h)
  · exact .inr (raiseUnless_eq_error.mp h).2

@[simp] theorem memRead_eq_ok {s : State} {a : Word} {n : Nat} {k : Config.AccessKind} {v : Word} :
    memRead s a n k = .ok v ↔ memAdmit s a n k = true ∧ v = memValue s a n := by
  unfold memRead refuse
  split
  · exact ⟨fun h => ⟨‹_›, (Except.ok.inj h).symm⟩, fun h => h.2 ▸ rfl⟩
  · simp_all

theorem memRead_eq_error {s : State} {a : Word} {n : Nat} {k : Config.AccessKind} {p : Stop}
    (h : memRead s a n k = .error p) : p = .refused .memory := by
  unfold memRead refuse at h; split at h <;> simp_all

/-- A read of the stack gives the item, when it is within the limits and its access is admitted. -/
@[simp] theorem stackRead_eq_ok {c : StackCtx} {s : State} {k n : Nat} {v : Word} :
    stackRead c s k n = .ok v ↔ stackReadable c s k n = true ∧ v = stackItem c s k n := by
  unfold stackRead stackReadable stackItem
  rw [bind_eq_ok]
  simp [and_assoc]

theorem stackRead_eq_error {c : StackCtx} {s : State} {k n : Nat} {p : Stop} (h : stackRead c s k n = .error p) :
    p = .refused .stackWrap ∨ p = .fault (.exception .ss 0) ∨ p = .refused .memory := by
  unfold stackRead at h
  rcases bind_eq_error.mp h with h | ⟨_, -, h⟩
  · rcases checkStack_eq_error h with h | h <;> simp [h]
  · exact .inr (.inr (memRead_eq_error h))

/-- A pop gives the item at the top of stack and raises the stack pointer over it. -/
theorem pop_eq_ok {c : StackCtx} {s : State} {n : Nat} {p : Word × State} :
    pop c s n = .ok p ↔ stackReadable c s 0 n = true ∧
      p = (stackItem c s 0 n, writeSp c.mode64 c.w (s.rsp + BitVec.ofNat 64 n) s) := by
  unfold pop
  rw [bind_eq_ok]
  constructor
  · rintro ⟨v, h, hp⟩
    obtain ⟨hr, rfl⟩ := stackRead_eq_ok.mp h
    exact ⟨hr, (Except.ok.inj hp).symm⟩
  · rintro ⟨hr, rfl⟩
    exact ⟨_, stackRead_eq_ok.mpr ⟨hr, rfl⟩, rfl⟩

theorem pop_eq_error {c : StackCtx} {s : State} {n : Nat} {p : Stop} (h : pop c s n = .error p) :
    p = .refused .stackWrap ∨ p = .fault (.exception .ss 0) ∨ p = .refused .memory := by
  unfold pop at h
  rcases bind_eq_error.mp h with h | ⟨_, -, h⟩
  · exact stackRead_eq_error h
  · exact absurd h (by simp)

@[simp] theorem readSelector_eq_ok {c : StackCtx} {s : State} {k n : Nat} {v : Selector} :
    readSelector c s k n = .ok v ↔ stackReadable c s k n = true ∧ v = selectorOf (stackItem c s k n) := by
  unfold readSelector
  rw [bind_eq_ok]
  constructor
  · rintro ⟨v, h, hp⟩
    obtain ⟨hr, rfl⟩ := stackRead_eq_ok.mp h
    exact ⟨hr, (Except.ok.inj hp).symm⟩
  · rintro ⟨hr, rfl⟩
    exact ⟨_, stackRead_eq_ok.mpr ⟨hr, rfl⟩, rfl⟩

@[simp] theorem readDesc_eq_ok {s : State} {sel : Selector} {d : Descriptor} :
    readDesc s sel = .ok d ↔ memAdmit s (descAddr s sel) 8 .tableRead = true ∧ d = descAt s sel := by
  unfold readDesc descAt
  rw [bind_eq_ok]
  constructor
  · rintro ⟨q, h, hp⟩
    obtain ⟨hr, rfl⟩ := memRead_eq_ok.mp h
    exact ⟨hr, (Except.ok.inj hp).symm⟩
  · rintro ⟨hr, rfl⟩
    exact ⟨_, memRead_eq_ok.mpr ⟨hr, rfl⟩, rfl⟩

/-- `SetAccessed` completes exactly when its accesses are admitted, and writes nothing but the accessed bit. -/
theorem setAccessed_eq_ok {s t : State} {sel : Selector} :
    setAccessed sel s = .ok t ↔ accessedAdmitted s sel = true ∧ t = { s with mem := accessedMem s sel } := by
  unfold setAccessed accessedAdmitted accessedMem needsAccessed memRead memWriteByte refuse
  cases h1 : s.params.setAccessed <;> cases h2 : memAdmit s (descAddr s sel) 8 .tableRead <;>
    cases h3 : (memValue s (descAddr s sel) 8).getLsbD 40 <;>
    cases h4 : memAdmit s (accessedAddr s sel) 1 .tableWrite <;> simp_all [eq_comm (a := t)]

theorem setAccessed_eq_error {s : State} {sel : Selector} {p : Stop} (h : setAccessed sel s = .error p) :
    p = .refused .memory := by
  unfold setAccessed memRead memWriteByte refuse at h
  cases h1 : s.params.setAccessed <;> cases h2 : memAdmit s (descAddr s sel) 8 .tableRead <;>
    cases h3 : (memValue s (descAddr s sel) 8).getLsbD 40 <;>
    cases h4 : memAdmit s (accessedAddr s sel) 1 .tableWrite <;> simp_all

/-! ### What a change of other fields leaves alone -/

/-- Two states agree on everything a stack access reads but the stack pointer. -/
structure SameStack (s t : State) : Prop where
  mem : t.mem = s.mem
  pe : t.pe = s.pe
  vm : t.vm = s.vm
  lma : t.lma = s.lma
  ss : t.ss = s.ss
  params : t.params = s.params

section congruence

variable {s t : State} (h : SameStack s t)
include h

theorem SameStack.ia32e : t.ia32e = s.ia32e := by simp [State.ia32e, h.pe, h.vm, h.lma]

theorem SameStack.memValue (a : Word) (n : Nat) : memValue t a n = Machine.memValue s a n := by
  simp [Machine.memValue, byteAddr, h.ia32e, h.mem]

theorem SameStack.memAdmit (a : Word) (n : Nat) (k : Config.AccessKind) : memAdmit t a n k = Machine.memAdmit s a n k := by
  simp [Machine.memAdmit, h.params]

theorem SameStack.canonicalRange (a : Word) (n : Nat) : canonicalRange t a n = Machine.canonicalRange s a n := by
  unfold Machine.canonicalRange canonical
  rw [h.params]

variable {c : StackCtx} {k j : Nat} (ho : stackOff c t k = stackOff c s j)
include ho

theorem SameStack.stackAddr : stackAddr c t k = Machine.stackAddr c s j := by
  simp [Machine.stackAddr, lin, State.seg, ho, h.ss]

theorem SameStack.stackItem (n : Nat) : stackItem c t k n = Machine.stackItem c s j n := by
  rw [Machine.stackItem, h.memValue, h.stackAddr ho]; rfl

theorem SameStack.withinStackLimits (n : Nat) : withinStackLimits c t k n = Machine.withinStackLimits c s j n := by
  simp [Machine.withinStackLimits, ho, h.ss, h.canonicalRange]

theorem SameStack.stackWithin (n : Nat) : stackWithin c t k n = Safety.stackWithin c s j n := by
  simp [Safety.stackWithin, h.withinStackLimits ho]

theorem SameStack.stackReadable (n : Nat) : stackReadable c t k n = Safety.stackReadable c s j n := by
  simp [Safety.stackReadable, h.stackWithin ho, h.memAdmit, h.stackAddr ho]

end congruence

/-- Descriptor lookups depend on the table registers, the mode bits and memory alone. -/
theorem descAddr_congr {s t : State} (hg : t.gdtr = s.gdtr) (hl : t.ldtr = s.ldtr) (hi : t.ia32e = s.ia32e)
    (sel : Selector) : descAddr t sel = descAddr s sel := by
  simp [descAddr, tableBase, hg, hl, hi]

end Sys2Proof.Machine
end

