-- ==== Sys2Proof/Laws/Stack.lean ====
section
/-! SUPPORT. The arithmetic of the stack pointer: what a write leaves of it, and where the items lie after it is raised. -/

namespace Sys2Proof.Machine

open Sys2Proof.Safety

/-- Addition modulo the width depends on the operands modulo the width. -/
theorem truncTo_add {w : Size} {a b : Word} (h : truncTo w a = truncTo w b) (x : Word) :
    truncTo w (a + x) = truncTo w (b + x) := by
  cases w
  · have h' : a.setWidth 16 = b.setWidth 16 := by simpa [truncTo] using congrArg (BitVec.setWidth 16) h
    rw [truncTo, truncTo, BitVec.setWidth_add (x := a) x (by decide : 16 ≤ 64), h',
      BitVec.setWidth_add (x := b) x (by decide : 16 ≤ 64)]
  · have h' : a.setWidth 32 = b.setWidth 32 := by simpa [truncTo] using congrArg (BitVec.setWidth 32) h
    rw [truncTo, truncTo, BitVec.setWidth_add (x := a) x (by decide : 32 ≤ 64), h',
      BitVec.setWidth_add (x := b) x (by decide : 32 ≤ 64)]
  · simp only [truncTo] at h ⊢
    rw [h]

/-! The two parts of a stack pointer put together from an upper and a lower part. -/

theorem setWidth_append_low {n m : Nat} (x : BitVec n) (y : BitVec m) : (x ++ y).setWidth m = y := by
  apply BitVec.eq_of_getLsbD_eq
  intro i hi
  rw [BitVec.getLsbD_setWidth, BitVec.getLsbD_append]
  simp [hi]

theorem extractLsb'_append_high {n m : Nat} (x : BitVec n) (y : BitVec m) : (x ++ y).extractLsb' m n = x := by
  apply BitVec.eq_of_getLsbD_eq
  intro i hi
  rw [BitVec.getLsbD_extractLsb', BitVec.getLsbD_append]
  simp [hi]

theorem low16_append (x : BitVec 48) (y : BitVec 16) : BitVec.setWidth 16 (x ++ y : Word) = y :=
  setWidth_append_low x y

theorem low32_append (x y : BitVec 32) : BitVec.setWidth 32 (x ++ y : Word) = y := setWidth_append_low x y

theorem high48_append (x : BitVec 48) (y : BitVec 16) : BitVec.extractLsb' 16 48 (x ++ y : Word) = x :=
  extractLsb'_append_high x y

theorem high32_append (x y : BitVec 32) : BitVec.extractLsb' 32 32 (x ++ y : Word) = x := extractLsb'_append_high x y

theorem extractLsb'_low16 (v : Word) : v.extractLsb' 0 16 = v.setWidth 16 :=
  (BitVec.setWidth_eq_extractLsb' (by decide)).symm

theorem extractLsb'_low32 (v : Word) : v.extractLsb' 0 32 = v.setWidth 32 :=
  (BitVec.setWidth_eq_extractLsb' (by decide)).symm

/-- The low `w` bits of the stack pointer after `WriteSP(w, v)` are those of `v`. -/
@[simp] theorem truncTo_writeSp (m : Bool) (w : Size) (v : Word) (s : State) :
    truncTo w (writeSp m w v s).rsp = truncTo w v := by
  cases w
  · simp only [writeSp, truncTo, low16_append]
  · cases m <;> simp only [writeSp, truncTo, low32_append, Bool.false_eq_true, if_false, if_true]
  · rfl

/-- After the stack pointer is raised by `j`, the item `k` above its top is the one `j + k` above the old top. -/
theorem stackOff_of_raised {c : StackCtx} {s t : State} {j : Nat}
    (h : truncTo c.w t.rsp = truncTo c.w (s.rsp + BitVec.ofNat 64 j)) (k : Nat) :
    stackOff c t k = stackOff c s (j + k) := by
  unfold stackOff
  rw [truncTo_add h, BitVec.ofNat_add, BitVec.add_assoc]

/-- What `WriteSP(w, v)` leaves in the stack pointer. -/
theorem writeSp_wrote (m : Bool) (w : Size) (v : Word) (s : State) :
    WroteSp (m || s.params.upperSp = .zero) w v s.rsp (writeSp m w v s).rsp := by
  cases w
  · refine ⟨?_, ?_⟩
    · rw [extractLsb'_low16, extractLsb'_low16, writeSp, low16_append]
    · rw [writeSp, high48_append]
  · cases m
    · refine ⟨?_, ?_⟩
      · simp only [extractLsb'_low32, writeSp, Bool.false_eq_true, if_false, low32_append]
      · intro hz
        have hz : s.params.upperSp = .zero := by simpa using hz
        simp only [writeSp, Bool.false_eq_true, if_false, high32_append, upper32, hz]
    · refine ⟨?_, ?_⟩
      · simp only [extractLsb'_low32, writeSp, if_true, low32_append]
      · intro _
        simp only [writeSp, if_true, high32_append]
        rfl
  · rfl

/-- Two writes of one width leave what the second leaves. -/
theorem WroteSp.trans {z : Bool} {w : Size} {u v old mid new : Word} (h : WroteSp z w u old mid)
    (h' : WroteSp z w v mid new) : WroteSp z w v old new := by
  cases w
  · exact ⟨h'.1, h'.2.trans h.2⟩
  · exact h'
  · exact h'

/-- What a write leaves depends on the low bits of the value written. -/
theorem WroteSp.congr {z : Bool} {w : Size} {u v old new : Word} (h : WroteSp z w u old new)
    (huv : truncTo w u = truncTo w v) : WroteSp z w v old new := by
  cases w
  · refine ⟨h.1.trans ?_, h.2⟩
    have h' : u.setWidth 16 = v.setWidth 16 := by simpa [truncTo] using congrArg (BitVec.setWidth 16) huv
    rw [extractLsb'_low16, extractLsb'_low16, h']
  · refine ⟨h.1.trans ?_, h.2⟩
    have h' : u.setWidth 32 = v.setWidth 32 := by simpa [truncTo] using congrArg (BitVec.setWidth 32) huv
    rw [extractLsb'_low32, extractLsb'_low32, h']
  · exact h.trans huv

/-- A written stack pointer has the low bits of the value. -/
theorem WroteSp.truncTo {z : Bool} {w : Size} {v old new : Word} (h : WroteSp z w v old new) :
    truncTo w new = truncTo w v := by
  cases w
  · have h' := h.1
    rw [extractLsb'_low16, extractLsb'_low16] at h'
    rw [Machine.truncTo, Machine.truncTo, h']
  · have h' := h.1
    rw [extractLsb'_low32, extractLsb'_low32] at h'
    rw [Machine.truncTo, Machine.truncTo, h']
  · exact congrArg _ h

/-- Raising the stack pointer twice raises it by the sum. -/
theorem RaisedSp.trans {z : Bool} {w : Size} {i j : Nat} {old mid new : Word} (h : RaisedSp z w i old mid)
    (h' : RaisedSp z w j mid new) : RaisedSp z w (i + j) old new := by
  refine WroteSp.congr (WroteSp.trans h h') ?_
  rw [BitVec.ofNat_add, ← BitVec.add_assoc]
  exact truncTo_add (WroteSp.truncTo h) _

end Sys2Proof.Machine
end

