-- ==== Sys2Proof/Laws/Far.lean ====
section
/-! SUPPORT. What the pops of a return do, once for each: when they complete and the state they leave. -/

namespace Sys2Proof.Machine

open Sys2Proof.Safety

/-! ### The values read -/

theorem leValue_lt (bs : List Byte) : leValue bs < 256 ^ bs.length := by
  induction bs with
  | nil => simp [leValue]
  | cons b bs ih =>
    have hb : b.toNat < 256 := b.isLt
    simp only [leValue, List.length_cons, pow_succ]
    omega

/-- A value of `n` bytes has no bits above them. -/
theorem memValue_lt (s : State) (a : Word) (n : Nat) : (memValue s a n).toNat < 256 ^ n := by
  unfold memValue
  rw [BitVec.toNat_ofNat]
  refine lt_of_le_of_lt (Nat.mod_le _ _) ?_
  simpa using leValue_lt ((List.range n).map fun i => s.mem.read (byteAddr s a i).toNat)

theorem truncTo_eq_self {w : Size} {v : Word} (h : v.toNat < 2 ^ w.bits) : truncTo w v = v := by
  cases w
  · exact BitVec.eq_of_toNat_eq (by simp [truncTo, Size.bits] at h ⊢; omega)
  · exact BitVec.eq_of_toNat_eq (by simp [truncTo, Size.bits] at h ⊢; omega)
  · rfl

/-- The item of an operand size fits in it, so that the masks of rules R70 and R80 change nothing. -/
@[simp] theorem truncTo_stackItem (os : Size) (c : StackCtx) (s : State) (k : Nat) :
    truncTo os (stackItem c s k os.bytes) = stackItem c s k os.bytes := by
  apply truncTo_eq_self
  have h := memValue_lt s (stackAddr c s k) os.bytes
  unfold stackItem
  cases os <;> simpa [Size.bytes, Size.bits] using h

/-! ### Congruence of the table lookups -/

/-- Two states agree on everything a table lookup and the setting of an accessed bit read. -/
structure SameTables (s t : State) : Prop where
  mem : t.mem = s.mem
  pe : t.pe = s.pe
  vm : t.vm = s.vm
  lma : t.lma = s.lma
  gdtr : t.gdtr = s.gdtr
  ldtr : t.ldtr = s.ldtr
  params : t.params = s.params

section congruence

variable {s t : State} (h : SameTables s t) (sel : Selector)
include h

theorem SameTables.ia32e : t.ia32e = s.ia32e := by simp [State.ia32e, h.pe, h.vm, h.lma]

theorem SameTables.descAddr : descAddr t sel = Machine.descAddr s sel :=
  descAddr_congr h.gdtr h.ldtr h.ia32e sel

theorem SameTables.memValue (a : Word) (n : Nat) : memValue t a n = Machine.memValue s a n := by
  simp [Machine.memValue, byteAddr, h.ia32e, h.mem]

theorem SameTables.memAdmit (a : Word) (n : Nat) (k : Config.AccessKind) : memAdmit t a n k = Machine.memAdmit s a n k := by
  simp [Machine.memAdmit, h.params]

theorem SameTables.accessedAddr : accessedAddr t sel = Machine.accessedAddr s sel := by
  simp [Machine.accessedAddr, byteAddr, h.ia32e, h.descAddr]

theorem SameTables.needsAccessed : needsAccessed t sel = Machine.needsAccessed s sel := by
  simp [Machine.needsAccessed, h.params, h.memValue, h.descAddr]

theorem SameTables.accessedMem : accessedMem t sel = Machine.accessedMem s sel := by
  simp [Machine.accessedMem, h.needsAccessed, h.accessedAddr, h.mem]

theorem SameTables.accessedAdmitted : accessedAdmitted t sel = Machine.accessedAdmitted s sel := by
  simp [Machine.accessedAdmitted, h.params, h.memAdmit, h.descAddr, h.needsAccessed, h.accessedAddr]

theorem SameTables.descAt : descAt t sel = Machine.descAt s sel := by
  simp [Machine.descAt, h.memValue, h.descAddr]

end congruence

/-! ### Pops -/

/-- `SS`, memory, the modes and the parameters are as they were after a pop. -/
theorem writeSp_sameStack (s : State) (m : Bool) (w : Size) (v : Word) : SameStack s (writeSp m w v s) := by
  constructor <;> simp

theorem writeSp_sameTables (s : State) (m : Bool) (w : Size) (v : Word) : SameTables s (writeSp m w v s) := by
  constructor <;> simp

/-- A raise of the stack pointer by `j`, in the terms claims use. -/
theorem writeSp_raised (s : State) (c : StackCtx) (j : Nat) :
    RaisedSp (c.mode64 || s.params.upperSp = .zero) c.w j s.rsp (writeSp c.mode64 c.w (s.rsp + BitVec.ofNat 64 j) s).rsp :=
  writeSp_wrote ..

/-- The load of a segment register from a descriptor: it completes exactly when the accesses to the accessed bit are
admitted, and writes the register and that bit. -/
theorem loadSegDesc_eq_ok {r : SegName} {sel : Selector} {d : Descriptor} {s t : State} :
    loadSegDesc r sel d s = .ok t ↔
      accessedAdmitted s sel = true ∧ t = { s.setSeg r ⟨sel, hiddenOf d⟩ with mem := accessedMem s sel } := by
  have h : SameTables s (s.setSeg r ⟨sel, hiddenOf d⟩) := by constructor <;> simp
  unfold loadSegDesc
  rw [setAccessed_eq_ok, h.accessedAdmitted, h.accessedMem]

theorem loadSegDesc_eq_error {r : SegName} {sel : Selector} {d : Descriptor} {s : State} {p : Stop}
    (h : loadSegDesc r sel d s = .error p) : p = .refused .memory :=
  setAccessed_eq_error h

/-- The states after two pops in a row, the first item going to the instruction pointer. -/
theorem popTwo {c : StackCtx} {s : State} (n : Nat) :
    ∃ s1 s3 : State, s1 = writeSp c.mode64 c.w (s.rsp + BitVec.ofNat 64 n) s ∧
      s3 = writeSp c.mode64 c.w (s1.rsp + BitVec.ofNat 64 n) { s1 with pc := stackItem c s 0 n } ∧
      s3 = { s with pc := stackItem c s 0 n, rsp := s3.rsp, draws := s3.draws } ∧
      RaisedSp (c.mode64 || s.params.upperSp = .zero) c.w (n + n) s.rsp s3.rsp ∧
      SameStack s { s1 with pc := stackItem c s 0 n } ∧
      stackOff c { s1 with pc := stackItem c s 0 n } 0 = stackOff c s n := by
  refine ⟨_, _, rfl, rfl, ?_, ?_, ?_, ?_⟩
  · have h1 := writeSp_sameButSp s c.mode64 c.w (s.rsp + BitVec.ofNat 64 n)
    have h2 := fun x => writeSp_sameButSp
      { writeSp c.mode64 c.w (s.rsp + BitVec.ofNat 64 n) s with pc := stackItem c s 0 n } c.mode64 c.w x
    unfold SameButSp at h1 h2
    rw [h2, h1]
  · refine RaisedSp.trans (writeSp_raised s c n) ?_
    have h := writeSp_raised { writeSp c.mode64 c.w (s.rsp + BitVec.ofNat 64 n) s with pc := stackItem c s 0 n } c n
    simpa using h
  · constructor <;> simp
  · exact stackOff_of_raised (by simp) 0

/-- The pops of the instruction pointer and `CS`: everything they need and leave. -/
theorem popCodeSegment_eq_ok {c : StackCtx} {n : Nat} {d : Descriptor} {s t : State}
    (h : popCodeSegment c n d s = .ok t) :
    let sel := selectorOf (stackItem c s n n)
    stackReadable c s 0 n = true ∧ stackReadable c s n n = true ∧ accessedAdmitted s sel = true ∧
      RaisedSp (c.mode64 || s.params.upperSp = .zero) c.w (n + n) s.rsp t.rsp ∧
      t = { s with pc := stackItem c s 0 n, rsp := t.rsp, draws := t.draws, cs := ⟨sel, hiddenOf d⟩,
                   mem := accessedMem s sel } := by
  obtain ⟨s1, s3, h1, h3, hs3, hr, hst, hoff⟩ := popTwo (c := c) (s := s) n
  unfold popCodeSegment at h
  obtain ⟨p, hp, h⟩ := bind_eq_ok.mp h
  obtain ⟨hread, rfl⟩ := pop_eq_ok.mp hp
  obtain ⟨p, hp, h⟩ := bind_eq_ok.mp h
  obtain ⟨hread', rfl⟩ := pop_eq_ok.mp hp
  simp only [← h1, ← h3] at h hread'
  rw [hst.stackItem hoff] at h
  rw [hst.stackReadable hoff] at hread'
  obtain ⟨hadm, rfl⟩ := loadSegDesc_eq_ok.mp h
  have ht : SameTables s s3 := by rw [hs3]; constructor <;> rfl
  rw [ht.accessedAdmitted] at hadm
  refine ⟨hread, hread', hadm, by simpa using hr, ?_⟩
  rw [ht.accessedMem, setSeg_cs_eq]
  conv_lhs => rw [hs3]

/-- The pops of the instruction pointer and `CS` complete when both items can be read and the accessed bit written. -/
theorem popCodeSegment_completes {c : StackCtx} {n : Nat} {s : State} (d : Descriptor)
    (h0 : stackReadable c s 0 n = true) (hn : stackReadable c s n n = true)
    (ha : accessedAdmitted s (selectorOf (stackItem c s n n)) = true) : ∃ t, popCodeSegment c n d s = .ok t := by
  obtain ⟨s1, s3, h1, h3, hs3, -, hst, hoff⟩ := popTwo (c := c) (s := s) n
  have ht : SameTables s s3 := by rw [hs3]; constructor <;> rfl
  have hp := pop_eq_ok.mpr ⟨h0, rfl⟩
  rw [← h1] at hp
  have hp' := pop_eq_ok.mpr ⟨(hst.stackReadable hoff n).trans hn, rfl⟩
  rw [← h3, hst.stackItem hoff] at hp'
  have hl := loadSegDesc_eq_ok (r := .cs) (d := d).mpr ⟨(ht.accessedAdmitted _).trans ha, rfl⟩
  exact ⟨_, by unfold popCodeSegment; simp only [hp, hp', ok_bind]; exact hl⟩

/-- The pops of the new stack pointer and stack selector: everything they need and leave. -/
theorem popOuterStack_eq_ok {c : StackCtx} {n : Nat} {s : State} {p : Word × Selector × State} :
    popOuterStack c n s = .ok p →
      stackReadable c s 0 n = true ∧ stackReadable c s n n = true ∧
        p.1 = stackItem c s 0 n ∧ p.2.1 = selectorOf (stackItem c s n n) ∧ SameButSp s p.2.2 := by
  intro h
  unfold popOuterStack at h
  obtain ⟨q, hq, h⟩ := bind_eq_ok.mp h
  obtain ⟨h0, rfl⟩ := pop_eq_ok.mp hq
  obtain ⟨q, hq, h⟩ := bind_eq_ok.mp h
  obtain ⟨hn, rfl⟩ := pop_eq_ok.mp hq
  obtain rfl := (Except.ok.inj h).symm
  have hst := writeSp_sameStack s c.mode64 c.w (s.rsp + BitVec.ofNat 64 n)
  have hoff : stackOff c (writeSp c.mode64 c.w (s.rsp + BitVec.ofNat 64 n) s) 0 = stackOff c s n :=
    stackOff_of_raised (by simp) 0
  refine ⟨h0, by rwa [hst.stackReadable hoff] at hn, rfl, by simp only [hst.stackItem hoff], ?_⟩
  exact (writeSp_sameButSp ..).trans (writeSp_sameButSp ..)

theorem popOuterStack_completes {c : StackCtx} {n : Nat} {s : State} (h0 : stackReadable c s 0 n = true)
    (hn : stackReadable c s n n = true) : ∃ p, popOuterStack c n s = .ok p := by
  have hst := writeSp_sameStack s c.mode64 c.w (s.rsp + BitVec.ofNat 64 n)
  have hoff : stackOff c (writeSp c.mode64 c.w (s.rsp + BitVec.ofNat 64 n) s) 0 = stackOff c s n :=
    stackOff_of_raised (by simp) 0
  exact ⟨_, bind_eq_ok.mpr ⟨_, pop_eq_ok.mpr ⟨h0, rfl⟩,
    bind_eq_ok.mpr ⟨_, pop_eq_ok.mpr ⟨by simpa only [hst.stackReadable hoff] using hn, rfl⟩, rfl⟩⟩⟩

end Sys2Proof.Machine
end

