-- ==== Sys2Proof/Laws/Near.lean ====
section
/-! SUPPORT. Everything a near return and a far return in real-address or virtual-8086 mode can do, once each. -/

namespace Sys2Proof.Machine

open Sys2Proof.Safety

theorem stackReadable_within {c : StackCtx} {s : State} {k n : Nat} (h : stackReadable c s k n = true) :
    stackWithin c s k n = true := by
  simp only [stackReadable, Bool.and_eq_true] at h
  exact h.1

/-- The pop of a near return: it completes exactly when its item can be read and, with 16-bit operands, is within the
code limit. -/
theorem nearPop_eq_ok {c : StackCtx} {os : Size} {s t : State} :
    nearPop c os s = .ok t ↔
      stackReadable c s 0 os.bytes = true ∧ (os = .s16 → withinCsLimit s (stackItem c s 0 os.bytes) = true) ∧
        t = { writeSp c.mode64 c.w (s.rsp + BitVec.ofNat 64 os.bytes) s with pc := stackItem c s 0 os.bytes } := by
  have hit := truncTo_stackItem os c s 0
  unfold nearPop
  cases os <;> simp only [bind_eq_ok, checkStack_eq_ok, pop_eq_ok, Size.bytes] at hit ⊢
  · constructor
    · rintro ⟨-, -, p, ⟨h, rfl⟩, _, h', h''⟩
      simp only [hit, raiseUnless_eq_ok] at h' h''
      exact ⟨h, fun _ => h', (Except.ok.inj h'').symm⟩
    · rintro ⟨h, h', rfl⟩
      exact ⟨(), stackReadable_within h, _, ⟨h, rfl⟩, (), raiseUnless_eq_ok.mpr (by rw [hit]; exact h' trivial),
        by simp only [hit]⟩
  · constructor
    · rintro ⟨-, -, p, ⟨h, rfl⟩, h''⟩
      simp only [hit] at h''
      exact ⟨h, by simp, (Except.ok.inj h'').symm⟩
    · rintro ⟨h, -, rfl⟩
      exact ⟨(), stackReadable_within h, _, ⟨h, rfl⟩, by simp only [hit]⟩
  · constructor
    · rintro ⟨-, -, p, ⟨h, rfl⟩, h''⟩
      exact ⟨h, by simp, (Except.ok.inj h'').symm⟩
    · rintro ⟨h, -, rfl⟩
      exact ⟨(), stackReadable_within h, _, ⟨h, rfl⟩, rfl⟩

/-- The pop of a near return stops by `#SS(0)`, by a refusal, or with 16-bit operands by `#GP(0)`. -/
theorem nearPop_eq_error {c : StackCtx} {os : Size} {s : State} {p : Stop} (h : nearPop c os s = .error p) :
    p = .refused .stackWrap ∨ p = .refused .memory ∨ p = .fault (.exception .ss 0) ∨
      p = .fault (.exception .gp 0) ∧ os = .s16 ∧ withinCsLimit s (stackItem c s 0 os.bytes) = false := by
  have hit := truncTo_stackItem os c s 0
  unfold nearPop at h
  cases os <;> rcases bind_eq_error.mp h with h | ⟨-, -, h⟩
  case s16.inr =>
    rcases bind_eq_error.mp h with h | ⟨q, hq, h⟩
    · rcases pop_eq_error h with h | h | h <;> simp [h]
    · obtain ⟨-, rfl⟩ := pop_eq_ok.mp hq
      rcases bind_eq_error.mp h with h | ⟨-, -, h⟩
      · have h := raiseUnless_eq_error.mp h
        rw [show (2 : Nat) = Size.bytes .s16 from rfl, hit] at h
        exact .inr (.inr (.inr ⟨h.2, rfl, h.1⟩))
      · cases h
  case s32.inr | s64.inr =>
    rcases bind_eq_error.mp h with h | ⟨q, -, h⟩
    · rcases pop_eq_error h with h | h | h <;> simp [h]
    · cases h
  all_goals rcases checkStack_eq_error h with h | h <;> simp [h]

/-- A near return: exactly when it completes, and the state it leaves. -/
theorem nearReturn_eq_ok {i : RetInstr} {s t : State} :
    nearReturn i s = .ok t ↔
      stackReadable (ctxOf i s) s 0 i.operandSize.bytes = true ∧
        (i.operandSize = .s16 → withinCsLimit s (returnIp i s) = true) ∧
        t = releaseIf i.hasImm s.mode64 i.stackAddressSize i.src
          { writeSp s.mode64 i.stackAddressSize (s.rsp + BitVec.ofNat 64 i.operandSize.bytes) s with
            pc := returnIp i s } := by
  unfold nearReturn
  simp only [bind_eq_ok, nearPop_eq_ok]
  constructor
  · rintro ⟨u, ⟨h, h', rfl⟩, ht⟩
    exact ⟨h, h', (Except.ok.inj ht).symm⟩
  · rintro ⟨h, h', rfl⟩
    exact ⟨_, ⟨h, h', rfl⟩, rfl⟩

theorem nearReturn_eq_error {i : RetInstr} {s : State} {p : Stop} (h : nearReturn i s = .error p) :
    p = .refused .stackWrap ∨ p = .refused .memory ∨ p = .fault (.exception .ss 0) ∨
      p = .fault (.exception .gp 0) ∧ i.operandSize = .s16 ∧ withinCsLimit s (returnIp i s) = false := by
  unfold nearReturn at h
  rcases bind_eq_error.mp h with h | ⟨_, -, h⟩
  · exact nearPop_eq_error h
  · cases h

/-- A far return in real-address or virtual-8086 mode: what a completed one needed, and the state it leaves. -/
theorem farReturnRealV86_eq_ok {i : RetInstr} {s t : State} (h : farReturnRealV86 i s = .ok t) :
    let n := i.operandSize.bytes
    let c := ctxOf i s
    sizesBelow64 i = true ∧ stackWithin c s 0 (2 * n) = true ∧ stackReadable c s 0 n = true ∧
      stackReadable c s n n = true ∧ (i.operandSize = .s16 → withinCsLimit s (returnIp i s) = true) ∧
      ∃ s3 : State, s3 = { s with pc := returnIp i s, rsp := s3.rsp, draws := s3.draws } ∧
        RaisedSp (zeroUpper s) i.stackAddressSize (2 * n) s.rsp s3.rsp ∧
        t = releaseRealV86 i (loadSegReal .cs (returnCs i s) s3) := by
  obtain ⟨s1, s3, h1, h3, hs3, hr, hst, hoff⟩ := popTwo (c := ctxOf i s) (s := s) i.operandSize.bytes
  have hit := truncTo_stackItem i.operandSize (ctxOf i s) s 0
  unfold farReturnRealV86 at h
  obtain ⟨_, hsz, h⟩ := bind_eq_ok.mp h
  have hsz : sizesBelow64 i = true := by simpa [sizesBelow64] using hsz
  have h2n : ∀ m : Nat, m + m = 2 * m := fun m => (Nat.two_mul m).symm
  rcases i with ⟨k, b, src, os, as⟩
  cases os <;> simp only [bind_eq_ok, checkStack_eq_ok, pop_eq_ok, Size.bytes] at hit h ⊢
  · obtain ⟨-, hw, p, ⟨hp, rfl⟩, _, hlim, q, ⟨hq, rfl⟩, ht⟩ := h
    simp only [Size.bytes, ctxOf] at *
    simp only [hit, ← h1, ← h3] at *
    rw [hst.stackReadable hoff] at hq
    rw [hst.stackItem hoff] at ht
    exact ⟨hsz, hw, hp, hq, fun _ => raiseUnless_eq_ok.mp hlim, s3, hs3, hr, (Except.ok.inj ht).symm⟩
  · obtain ⟨-, hw, p, ⟨hp, rfl⟩, q, ⟨hq, rfl⟩, ht⟩ := h
    simp only [Size.bytes, ctxOf] at *
    simp only [hit, ← h1, ← h3] at *
    rw [hst.stackReadable hoff] at hq
    rw [hst.stackItem hoff] at ht
    exact ⟨hsz, hw, hp, hq, by simp, s3, hs3, hr, (Except.ok.inj ht).symm⟩
  · simp [sizesBelow64] at hsz

end Sys2Proof.Machine
end

