-- ==== Sys2Proof/Laws/Checks.lean ====
section
/-! SUPPORT. The checks of the far return: exactly when each group passes, with what it then answers, and how it stops. -/

namespace Sys2Proof.Machine

open Sys2Proof.Safety

/-- A far form's meaning is the far return of its record. -/
theorem exec_far {i : Instr} {s : State} (h : i.record.kind = .far) : exec i s = perform s (farReturn i.record s) := by
  cases i <;> first | rfl | simp [Instr.record] at h

/-- A near form's meaning is the near return of its record. -/
theorem exec_near {i : Instr} {s : State} (h : i.record.kind = .near) :
    exec i s = perform s (nearReturn i.record s) := by
  cases i <;> first | rfl | simp [Instr.record] at h

/-- A form without an immediate operand releases nothing. -/
theorem src_of_not_hasImm (i : Instr) (h : i.record.hasImm = false) : i.record.src = 0 := by
  cases i <;> first | rfl | simp [Instr.record] at h

theorem realOrV86_of_protected {s : State} (h : s.protectedMode = true) : s.realOrV86 = false := by
  simp only [State.protectedMode, State.realOrV86, Bool.and_eq_true, Bool.not_eq_true'] at *
  simp [h]

theorem realOrV86_of_ia32e {s : State} (h : s.ia32e = true) : s.realOrV86 = false := by
  simp only [State.ia32e, State.realOrV86, Bool.and_eq_true, Bool.not_eq_true'] at *
  simp [h]

theorem protected_of_ia32e {s : State} (h : s.ia32e = true) : s.protectedMode = false := by
  simp only [State.ia32e, State.protectedMode, Bool.and_eq_true, Bool.not_eq_true'] at *
  simp [h]

theorem mode_cases (s : State) : s.realOrV86 = true ∨ s.protectedMode = true ∨ s.ia32e = true := by
  simp only [State.realOrV86, State.ia32e, State.protectedMode]
  cases s.pe <;> cases s.vm <;> cases s.lma <;> simp

theorem mode64_of_not_ia32e {s : State} (h : s.ia32e = false) : s.mode64 = false := by simp [State.mode64, h]

theorem farReturn_real {i : RetInstr} {s : State} (h : s.realOrV86 = true) : farReturn i s = farReturnRealV86 i s := by
  simp [farReturn, h]

theorem farReturn_protected {i : RetInstr} {s : State} (h : s.protectedMode = true) :
    farReturn i s = farReturnProtected i s := by
  simp [farReturn, h, realOrV86_of_protected h]

theorem farReturn_ia32e {i : RetInstr} {s : State} (h : s.ia32e = true) : farReturn i s = farReturnIa32e i s := by
  simp [farReturn, protected_of_ia32e h, realOrV86_of_ia32e h]

/-! ### The code segment -/

theorem protectedCodeDescriptor_eq_ok {s : State} {sel : Selector} {d : Descriptor} :
    protectedCodeDescriptor s sel = .ok d ↔ protectedCodeOk s sel = true ∧ d = descAt s sel := by
  unfold protectedCodeDescriptor protectedCodeOk
  simp only [bind_eq_ok, raiseIf_eq_ok, raiseUnless_eq_ok, readDesc_eq_ok, exists_const, Except.ok.injEq]
  generalize descAt s sel = e
  constructor
  · rintro ⟨h1, h2, x, ⟨h3, hx⟩, h4, h5, h6, h7, h8, rfl⟩
    subst hx
    refine ⟨?_, rfl⟩
    cases hc : x.conforming <;> cases hl : x.l <;> simp_all
  · rintro ⟨h, rfl⟩
    cases hc : d.conforming <;> cases hl : d.l <;> simp_all

theorem ia32eCodeDescriptor_eq_ok {s : State} {sel : Selector} {d : Descriptor} :
    ia32eCodeDescriptor s sel = .ok d ↔ ia32eCodeOk s sel = true ∧ d = descAt s sel := by
  unfold ia32eCodeDescriptor ia32eCodeOk protectedCodeOk
  simp only [bind_eq_ok, raiseIf_eq_ok, raiseUnless_eq_ok, readDesc_eq_ok, exists_const, Except.ok.injEq]
  generalize descAt s sel = e
  constructor
  · rintro ⟨h1, h2, h3, x, ⟨h4, hx⟩, h5, h6, h7, h8, h9, h10, rfl⟩
    subst hx
    refine ⟨?_, rfl⟩
    cases hc : x.conforming <;> cases hl : x.l <;> simp_all
  · rintro ⟨h, rfl⟩
    cases hc : d.conforming <;> cases hl : d.l <;> simp_all

/-! ### The stack segment -/

theorem protectedStackDescriptor_eq_ok {s : State} {retCS sel : Selector} {ds : Descriptor} :
    protectedStackDescriptor s retCS sel = .ok ds ↔ protectedStackOk s retCS sel = true ∧ ds = descAt s sel := by
  unfold protectedStackDescriptor protectedStackOk
  simp only [bind_eq_ok, raiseIf_eq_ok, raiseUnless_eq_ok, readDesc_eq_ok, exists_const, Except.ok.injEq]
  generalize descAt s sel = e
  constructor
  · rintro ⟨h1, h2, _, ⟨h3, rfl⟩, h4, h5, rfl⟩
    exact ⟨by simp_all, rfl⟩
  · rintro ⟨h, rfl⟩
    simp_all

theorem ia32eStackDescriptor_eq_ok {s : State} {retCS sel : Selector} {o : Option Descriptor} :
    ia32eStackDescriptor s retCS sel (descAt s retCS) = .ok o ↔
      nullStackOk s retCS sel = true ∧ o = none ∨ ia32eStackOk s retCS sel = true ∧ o = some (descAt s sel) := by
  unfold ia32eStackDescriptor ia32eStackOk protectedStackOk nullStackOk
  split
  · simp only [bind_eq_ok, raiseIf_eq_ok, raiseUnless_eq_ok, refuseIf_eq_ok, exists_const, Except.ok.injEq]
    cases hn : s.params.nullSs <;> simp_all [eq_comm (a := o)]
    tauto
  · simp only [bind_eq_ok, raiseIf_eq_ok, raiseUnless_eq_ok, readDesc_eq_ok, exists_const, Except.ok.injEq]
    generalize descAt s sel = e
    constructor
    · rintro ⟨h1, h2, _, ⟨h3, rfl⟩, h4, h5, rfl⟩
      simp_all
    · rintro h
      simp_all

/-- The checks of the target in IA-32e mode. -/
theorem ia32eTargetChecks_eq_ok {c : StackCtx} {n : Nat} {d : Descriptor} {s : State} {u : Unit} :
    ia32eTargetChecks c n d s = .ok u ↔ stackReadable c s 0 n = true ∧
      withinDescLimit s d (stackItem c s 0 n) = true ∧ canonical s (stackItem c s 0 n) = true := by
  unfold ia32eTargetChecks
  simp only [bind_eq_ok, raiseUnless_eq_ok, stackRead_eq_ok, exists_const]
  constructor
  · rintro ⟨_, ⟨h, rfl⟩, h', h''⟩
    exact ⟨h, h', h''⟩
  · rintro ⟨h, h', h''⟩
    exact ⟨_, ⟨h, rfl⟩, h', h''⟩

theorem ia32eEntryChecks_eq_ok {c : StackCtx} {os : Size} {s : State} {u : Unit} :
    ia32eEntryChecks c os s = .ok u ↔ (os = .s64 ∨ stackWithin c s os.bytes os.bytes = true) ∧
      canonItem c s 0 os.bytes = true ∧ canonItem c s os.bytes os.bytes = true := by
  unfold ia32eEntryChecks
  cases os <;> simp [bind_eq_ok, Size.bytes]

theorem ia32eOuterStackChecks_eq_ok {c : StackCtx} {i : RetInstr} {s : State} {u : Unit} :
    ia32eOuterStackChecks c i s = .ok u ↔
      (i.operandSize = .s64 ∨ stackWithin c s 0 (4 * i.operandSize.bytes + i.src.toNat) = true) ∧
        canonItem c s 0 (4 * i.operandSize.bytes + i.src.toNat) = true := by
  unfold ia32eOuterStackChecks
  rcases i with ⟨k, b, src, os, as⟩
  cases os <;> simp [bind_eq_ok, Size.bytes]

end Sys2Proof.Machine
end

