-- ==== Sys2Proof/Laws/Outer.lean ====
section
/-! SUPPORT. What the pops and releases of a far return leave, at the same privilege level and at an outer one. -/

namespace Sys2Proof.Machine

open Sys2Proof.Safety

theorem zeroUpper_eq (s : State) : zeroUpper s = (s.mode64 || decide (s.params.upperSp = .zero)) := rfl

theorem release_eq (m : Bool) (w : Size) (src : BitVec 16) (s : State) :
    release m w src s = writeSp m w (s.rsp + BitVec.ofNat 64 src.toNat) s := by
  have e : src.setWidth 64 = BitVec.ofNat 64 src.toNat := by apply BitVec.eq_of_toNat_eq; simp
  rw [release, e]

/-- A bit vector is its high part and its low part put together. -/
theorem high_append_low {n m : Nat} (x : BitVec (n + m)) : x.extractLsb' m n ++ x.extractLsb' 0 m = x := by
  apply BitVec.eq_of_getLsbD_eq
  intro j hj
  rw [BitVec.getLsbD_append]
  by_cases h : j < m
  · simp [h]
  · simp [h, show j - m < n by omega, show m + (j - m) = j by omega]

/-- A release raises the stack pointer by `SRC`, in a form with an immediate operand and, as `SRC` is 0, in one without. -/
theorem releaseIf_raised {b m : Bool} {w : Size} {src : BitVec 16} {s : State} (hsrc : b = false → src = 0) {old : Word}
    {j : Nat} (h : RaisedSp (m || s.params.upperSp = .zero) w j old s.rsp) :
    RaisedSp (m || s.params.upperSp = .zero) w (j + src.toNat) old (releaseIf b m w src s).rsp := by
  cases b
  · rw [hsrc rfl]; exact h
  · rw [releaseIf, if_pos rfl, release_eq]
    exact RaisedSp.trans h (writeSp_wrote ..)

theorem releaseIf_wrote {m : Bool} {w : Size} {src : BitVec 16} {s : State} :
    RaisedSp (m || s.params.upperSp = .zero) w src.toNat s.rsp (releaseIf true m w src s).rsp := by
  rw [releaseIf, if_pos rfl, release_eq]
  exact writeSp_wrote ..

/-- A far return that stays at its level: the pops and the release. -/
theorem sameLevel_of_pops {i : RetInstr} {s s1 t : State} (hsrc : i.hasImm = false → i.src = 0)
    (h : popCodeSegment (ctxOf i s) i.operandSize.bytes (descAt s (returnCs i s)) s = .ok s1)
    (ht : t = releaseIf i.hasImm s.mode64 i.stackAddressSize i.src s1) :
    stackReadable (ctxOf i s) s 0 i.operandSize.bytes = true ∧
      stackReadable (ctxOf i s) s i.operandSize.bytes i.operandSize.bytes = true ∧
      accessedAdmitted s (returnCs i s) = true ∧ SameLevelReturned i s t := by
  obtain ⟨h0, h1, h2, h3, h4⟩ := popCodeSegment_eq_ok h
  refine ⟨h0, h1, h2, ?_⟩
  have hs : SameButSp s1 t := ht ▸ releaseIf_sameButSp ..
  have hp : s1.params = s.params := by rw [h4]
  have hr : RaisedSp (zeroUpper s) i.stackAddressSize (2 * i.operandSize.bytes + i.src.toNat) s.rsp t.rsp := by
    have h3' := h3
    rw [← Nat.two_mul, ← hp] at h3'
    have := releaseIf_raised hsrc h3'
    rw [ht, zeroUpper_eq, ← hp]
    exact this
  have hall : t = { s with pc := returnIp i s, rsp := t.rsp, draws := t.draws,
                           cs := ⟨returnCs i s, hiddenOf (descAt s (returnCs i s))⟩,
                           mem := accessedMem s (returnCs i s) } := by
    unfold SameButSp at hs
    rw [hs, h4]
    rfl
  refine ⟨?_, ?_, hr, ?_, ?_⟩ <;> rw [hall]

/-- A code selector whose privilege level is written over its RPL, which it equals. -/
theorem setCsRpl_same {s : State} (h : s.cpl = rpl s.cs.sel) : setCsRpl s = s := by
  have : s.cs.sel.extractLsb' 2 14 ++ s.cpl = s.cs.sel := by
    rw [h, rpl]
    exact high_append_low (n := 14) (m := 2) s.cs.sel
  rw [setCsRpl_eq, this]

/-- The low bits of the stack pointer after a release at the stack's width or at 64 bits. -/
theorem truncTo_releaseIf {b m : Bool} {w w' : Size} {src : BitVec 16} {s : State} (hsrc : b = false → src = 0)
    (hw : w' = w ∨ w' = .s64) :
    truncTo w (releaseIf b m w' src s).rsp = truncTo w (s.rsp + BitVec.ofNat 64 src.toNat) := by
  cases b
  · rw [hsrc rfl]; simp [releaseIf]
  · rw [releaseIf, if_pos rfl, release_eq]
    rcases hw with rfl | rfl
    · exact truncTo_writeSp ..
    · rfl

/-- The pops of a far return to an outer level: what they need, and what they find and leave. -/
theorem outerPops {i : RetInstr} {s s1 : State} {w : Size} {p : Word × Selector × State}
    (hsrc : i.hasImm = false → i.src = 0) (hw : w = i.stackAddressSize ∨ w = .s64)
    (h : popCodeSegment (ctxOf i s) i.operandSize.bytes (descAt s (returnCs i s))
      { s with cpl := rpl (returnCs i s) } = .ok s1)
    (hp : popOuterStack (ctxOf i s) i.operandSize.bytes (releaseIf i.hasImm s.mode64 w i.src (setCsRpl s1)) = .ok p) :
    outerReadable i s = true ∧ p.1 = newSp i s ∧ p.2.1 = newSs i s ∧
      p.2.2 = { s with cpl := rpl (returnCs i s), pc := returnIp i s, rsp := p.2.2.rsp, draws := p.2.2.draws,
                       cs := ⟨returnCs i s, hiddenOf (descAt s (returnCs i s))⟩,
                       mem := accessedMem s (returnCs i s) } := by
  have hlev : SameStack s { s with cpl := rpl (returnCs i s) } := by constructor <;> rfl
  obtain ⟨h0, h1, h2, h3, h4⟩ := popCodeSegment_eq_ok h
  have hs1 : s1 = { s with cpl := rpl (returnCs i s), pc := returnIp i s, rsp := s1.rsp, draws := s1.draws,
                           cs := ⟨returnCs i s, hiddenOf (descAt s (returnCs i s))⟩,
                           mem := accessedMem s (returnCs i s) } := h4
  rw [setCsRpl_same (by rw [hs1])] at hp
  set s2 := releaseIf i.hasImm s.mode64 w i.src s1 with hs2
  have h12 : SameButSp s1 s2 := releaseIf_sameButSp ..
  have hst : SameStack (afterCs i s) s2 := by
    unfold SameButSp at h12
    rw [h12, hs1]
    constructor <;> rfl
  have hst0 : SameStack { s with mem := s2.mem } s2 := by
    constructor
    · rfl
    · exact hst.pe
    · exact hst.vm
    · exact hst.lma
    · exact hst.ss
    · exact hst.params
  have hsp : truncTo i.stackAddressSize s2.rsp =
      truncTo i.stackAddressSize (s.rsp + BitVec.ofNat 64 (2 * i.operandSize.bytes + i.src.toNat)) := by
    rw [hs2, truncTo_releaseIf hsrc hw, BitVec.ofNat_add, ← BitVec.add_assoc]
    refine truncTo_add ?_ _
    rw [Nat.two_mul]
    exact WroteSp.truncTo h3
  have hoff : ∀ k, stackOff (ctxOf i s) s2 k =
      stackOff (ctxOf i s) (afterCs i s) (2 * i.operandSize.bytes + i.src.toNat + k) :=
    fun k => stackOff_of_raised (c := ctxOf i s) (s := afterCs i s) hsp k
  obtain ⟨q0, q1, q2, q3, q4⟩ := popOuterStack_eq_ok hp
  have hmem : ∀ k n, stackReadable (ctxOf i s) (afterCs i s) k n = stackReadable (ctxOf i s) s k n := by
    intro k n
    rfl
  rw [hst.stackReadable (hoff 0), hmem] at q0
  rw [hst.stackReadable (hoff _), hmem] at q1
  rw [hst.stackItem (hoff 0)] at q2
  rw [hst.stackItem (hoff _)] at q3
  have e3 : 2 * i.operandSize.bytes + i.src.toNat + i.operandSize.bytes = 3 * i.operandSize.bytes + i.src.toNat := by
    omega
  rw [e3] at q1 q3
  refine ⟨?_, q2, q3, ?_⟩
  · have h0' : stackReadable (ctxOf i s) s 0 i.operandSize.bytes = true := h0
    have h1' : stackReadable (ctxOf i s) s i.operandSize.bytes i.operandSize.bytes = true := h1
    have h2' : accessedAdmitted s (returnCs i s) = true := h2
    have q0' : stackReadable (ctxOf i s) s (2 * i.operandSize.bytes + i.src.toNat) i.operandSize.bytes = true := q0
    simp only [outerReadable, Bool.and_eq_true]
    exact ⟨⟨⟨⟨h0', h1'⟩, q0'⟩, q1⟩, h2'⟩
  · have h := h12.trans q4
    unfold SameButSp at h
    rw [h, hs1]

/-- The pops complete when the items can be read and the accessed bit written. -/
theorem outerPops_complete {i : RetInstr} {s : State} {w : Size} (d : Descriptor)
    (hsrc : i.hasImm = false → i.src = 0) (hw : w = i.stackAddressSize ∨ w = .s64) (h : outerReadable i s = true) :
    ∃ s1 p, popCodeSegment (ctxOf i s) i.operandSize.bytes d { s with cpl := rpl (returnCs i s) } = .ok s1 ∧
      popOuterStack (ctxOf i s) i.operandSize.bytes (releaseIf i.hasImm s.mode64 w i.src (setCsRpl s1)) = .ok p := by
  simp only [outerReadable, Bool.and_eq_true] at h
  obtain ⟨⟨⟨⟨h0, h1⟩, h2⟩, h3⟩, h4⟩ := h
  obtain ⟨s1, hs1⟩ := popCodeSegment_completes (c := ctxOf i s) (n := i.operandSize.bytes)
    (s := { s with cpl := rpl (returnCs i s) }) d h0 h1 h4
  refine ⟨s1, ?_⟩
  obtain ⟨-, -, -, r3, r4⟩ := popCodeSegment_eq_ok hs1
  set s2 := releaseIf i.hasImm s.mode64 w i.src (setCsRpl s1) with hs2
  have h12 : SameButSp (setCsRpl s1) s2 := releaseIf_sameButSp ..
  have hfix : ∀ m, SameStack { s with mem := m } { s2 with mem := m } := by
    intro m
    unfold SameButSp at h12
    rw [h12, setCsRpl_eq, r4]
    constructor <;> rfl
  have hsp : truncTo i.stackAddressSize s2.rsp =
      truncTo i.stackAddressSize (s.rsp + BitVec.ofNat 64 (2 * i.operandSize.bytes + i.src.toNat)) := by
    rw [hs2, truncTo_releaseIf hsrc hw, BitVec.ofNat_add, ← BitVec.add_assoc]
    refine truncTo_add ?_ _
    rw [Nat.two_mul]
    exact WroteSp.truncTo r3
  have hread : ∀ k n, stackReadable (ctxOf i s) s2 k n =
      stackReadable (ctxOf i s) s (2 * i.operandSize.bytes + i.src.toNat + k) n := by
    intro k n
    have hf := (hfix s.mem).stackReadable (c := ctxOf i s)
      (stackOff_of_raised (c := ctxOf i s) (s := { s with mem := s.mem }) (t := { s2 with mem := s.mem }) hsp k) n
    exact hf
  obtain ⟨p, hp⟩ := popOuterStack_completes (c := ctxOf i s) (n := i.operandSize.bytes) (s := s2)
    (by rw [hread]; exact h2)
    (by rw [hread, show 2 * i.operandSize.bytes + i.src.toNat + i.operandSize.bytes
          = 3 * i.operandSize.bytes + i.src.toNat by omega]; exact h3)
  exact ⟨p, hs1, hp⟩

/-- A word whose low half is two parts put together has those two parts. -/
theorem halves_of_low32 (x y : BitVec 16) (z : Word) (h : z.extractLsb' 0 32 = ((x ++ y).setWidth 64).extractLsb' 0 32) :
    z.extractLsb' 0 16 = y ∧ z.extractLsb' 16 16 = x := by
  have hb : ∀ j, j < 32 → z.getLsbD j = (x ++ y).getLsbD j := by
    intro j hj
    have := congrArg (fun q => BitVec.getLsbD q j) h
    simp only [BitVec.getLsbD_extractLsb', BitVec.getLsbD_setWidth, hj, decide_true, Bool.true_and, Nat.zero_add,
      show j < 64 by omega] at this
    exact this
  constructor
  · apply BitVec.eq_of_getLsbD_eq
    intro j hj
    rw [BitVec.getLsbD_extractLsb', hb _ (by omega), BitVec.getLsbD_append]
    simp [hj]
  · apply BitVec.eq_of_getLsbD_eq
    intro j hj
    rw [BitVec.getLsbD_extractLsb', hb _ (by omega), BitVec.getLsbD_append]
    simp [hj]

/-- What the loading of the stack pointer leaves, in a state with the parameters of the one the return began in. -/
theorem loadSp_loaded {os : Size} {s u : State} (hu : u.params = s.params) (v : Word) :
    LoadedSp s os v (loadSp s.mode64 os v u).rsp := by
  cases os
  · have h := writeSp_wrote s.mode64 .s32 (((upper16 u).1 ++ v.setWidth 16).setWidth 64) (upper16 u).2
    have hp : (upper16 u).2.params = s.params := by rw [upper16_sameButSp u]; exact hu
    obtain ⟨hl, hz⟩ := h
    rw [hp] at hz
    obtain ⟨k1, k2⟩ := halves_of_low32 _ _ _ hl
    refine ⟨?_, ?_, ?_⟩
    · rw [loadSp, k1, extractLsb'_low16]
    · intro hz0
      rw [loadSp, k2]
      simp [upper16, hu, hz0]
    · intro hzu
      exact hz hzu
  · have h := writeSp_wrote s.mode64 .s32 v u
    rw [hu] at h
    exact h
  · rfl

end Sys2Proof.Machine
end

