-- ==== Sys2Proof/Laws/Protected.lean ====
section
/-! SUPPORT. Everything a far return in protected mode can do: when it completes, and the state it leaves. -/

namespace Sys2Proof.Machine

open Sys2Proof.Safety

/-- The end of a far return to an outer level, once `SS` and memory are what they will be. -/
theorem outerFinish {i : RetInstr} {s u s4 t : State} {v : SegReg} {m : Memory} {w1 : Size}
    (hu : u = { s with cpl := rpl (returnCs i s), pc := returnIp i s, rsp := u.rsp, draws := u.draws,
                       cs := ⟨returnCs i s, hiddenOf (descAt s (returnCs i s))⟩, mem := accessedMem s (returnCs i s) })
    (h4 : s4 = { loadSp s.mode64 i.operandSize (newSp i s) u with ss := v, mem := m })
    (ht : t = releaseIf i.hasImm s.mode64 w1 i.src (invalidateDataSegs s4)) :
    OuterReturned i s t ∧ t.ss = v ∧ t.mem = m ∧ OuterSp i s w1 t.rsp := by
  have hl : SameButSp u (loadSp s.mode64 i.operandSize (newSp i s) u) := loadSp_sameButSp ..
  have hs4 : s4 = { s with cpl := rpl (returnCs i s), pc := returnIp i s,
                           rsp := (loadSp s.mode64 i.operandSize (newSp i s) u).rsp, draws := s4.draws,
                           cs := ⟨returnCs i s, hiddenOf (descAt s (returnCs i s))⟩, ss := v, mem := m } := by
    unfold SameButSp at hl
    rw [h4, hl, hu]
  have hi : invalidateDataSegs s4 =
      { s with cpl := rpl (returnCs i s), pc := returnIp i s, rsp := s4.rsp, draws := s4.draws,
               cs := ⟨returnCs i s, hiddenOf (descAt s (returnCs i s))⟩, ss := v, mem := m,
               es := invalidated (rpl (returnCs i s)) s.es, fs := invalidated (rpl (returnCs i s)) s.fs,
               gs := invalidated (rpl (returnCs i s)) s.gs, ds := invalidated (rpl (returnCs i s)) s.ds } := by
    rw [hs4, invalidateDataSegs_eq]
  have hr : SameButSp (invalidateDataSegs s4) t := ht ▸ releaseIf_sameButSp ..
  have hall : t =
      { s with cpl := rpl (returnCs i s), pc := returnIp i s, rsp := t.rsp, draws := t.draws,
               cs := ⟨returnCs i s, hiddenOf (descAt s (returnCs i s))⟩, ss := v, mem := m,
               es := invalidated (rpl (returnCs i s)) s.es, fs := invalidated (rpl (returnCs i s)) s.fs,
               gs := invalidated (rpl (returnCs i s)) s.gs, ds := invalidated (rpl (returnCs i s)) s.ds } := by
    unfold SameButSp at hr
    rw [hr, hi]
  refine ⟨?_, by rw [hall], by rw [hall], ?_⟩
  · refine ⟨?_, ?_, ?_, ?_, ?_, ?_, ?_, ?_⟩ <;> rw [hall]
  · have hrsp : (invalidateDataSegs s4).rsp = (loadSp s.mode64 i.operandSize (newSp i s) u).rsp := by
      rw [hi, hs4]
    have hpar : (invalidateDataSegs s4).params = s.params := by rw [hi]
    refine ⟨(invalidateDataSegs s4).rsp, ?_, ?_⟩
    · rw [hrsp]
      exact loadSp_loaded (by rw [hu]) _
    · rw [ht]
      cases i.hasImm
      · rfl
      · have := releaseIf_wrote (m := s.mode64) (w := w1) (src := i.src) (s := invalidateDataSegs s4)
        rw [hpar] at this
        exact this

theorem sizesBelow64_iff {r : RetInstr} :
    (r.operandSize = .s64 || r.stackAddressSize = .s64 : Bool) = false ↔ sizesBelow64 r = true := by
  simp [sizesBelow64]

theorem cpl_le_of_codeOk {s : State} {sel : Selector} (h : protectedCodeOk s sel = true) : s.cpl ≤ rpl sel := by
  simp only [protectedCodeOk, Bool.and_eq_true, decide_eq_true_eq] at h
  exact h.1.1.2

theorem descAt_afterCs_admit {i : RetInstr} {s u : State}
    (hu : u = { s with cpl := rpl (returnCs i s), pc := returnIp i s, rsp := u.rsp, draws := u.draws,
                       cs := ⟨returnCs i s, hiddenOf (descAt s (returnCs i s))⟩, mem := accessedMem s (returnCs i s) })
    (os : Size) (v : Word) : SameTables (afterCs i s) (loadSp s.mode64 os v u) := by
  have hl : SameButSp u (loadSp s.mode64 os v u) := loadSp_sameButSp ..
  unfold SameButSp at hl
  rw [hl, hu]
  constructor <;> rfl

/-- What a completed far return in protected mode needed, and the state it left. -/
theorem farReturnProtected_eq_ok {i : RetInstr} {s t : State} (hsrc : i.hasImm = false → i.src = 0)
    (hl : s.params.launchable = true) (hp : s.protectedMode = true) (h : farReturnProtected i s = .ok t) :
    protectedSameReady i s = true ∧ SameLevelReturned i s t ∨
      protectedOuterReady i s = true ∧ OuterReturned i s t ∧ OuterStackLoaded i s t ∧
        OuterSp i s (if (descAt s (returnSs i s)).db then .s32 else .s16) t.rsp := by
  unfold farReturnProtected at h
  obtain ⟨_, hsz, h⟩ := bind_eq_ok.mp h
  have hsz := sizesBelow64_iff.mp (refuseIf_eq_ok.mp hsz)
  obtain ⟨_, -, h⟩ := bind_eq_ok.mp h
  obtain ⟨retCS, hcs, h⟩ := bind_eq_ok.mp h
  obtain ⟨hn, rfl⟩ := readSelector_eq_ok.mp hcs
  obtain ⟨d, hd, h⟩ := bind_eq_ok.mp h
  obtain ⟨hok, rfl⟩ := protectedCodeDescriptor_eq_ok.mp hd
  change protectedCodeOk s (returnCs i s) = true at hok
  change (if s.cpl < rpl (returnCs i s) then protectedOuter (ctxOf i s) i (returnCs i s) (descAt s (returnCs i s)) s
    else protectedSame (ctxOf i s) i (descAt s (returnCs i s)) s) = .ok t at h
  have hle := cpl_le_of_codeOk hok
  split at h
  next hlt =>
    right
    unfold protectedOuter at h
    obtain ⟨_, hw, h⟩ := bind_eq_ok.mp h
    have hw := checkStack_eq_ok.mp hw
    obtain ⟨retSS, hss, h⟩ := bind_eq_ok.mp h
    obtain ⟨-, rfl⟩ := readSelector_eq_ok.mp hss
    obtain ⟨ds, hds, h⟩ := bind_eq_ok.mp h
    obtain ⟨hsok, rfl⟩ := protectedStackDescriptor_eq_ok.mp hds
    obtain ⟨ip, hip, h⟩ := bind_eq_ok.mp h
    obtain ⟨-, rfl⟩ := stackRead_eq_ok.mp hip
    obtain ⟨_, hlim, h⟩ := bind_eq_ok.mp h
    have hlim := raiseUnless_eq_ok.mp hlim
    obtain ⟨s1, hs1, h⟩ := bind_eq_ok.mp h
    obtain ⟨p, hpop, h⟩ := bind_eq_ok.mp h
    obtain ⟨hread, hp1, hp2, hp3⟩ := outerPops hsrc (.inl rfl) hs1 hpop
    obtain ⟨s4, h4, h⟩ := bind_eq_ok.mp h
    rw [hp1, hp2] at h4
    obtain ⟨hadm, h4⟩ := loadSegDesc_eq_ok.mp h4
    have ht := descAt_afterCs_admit hp3 i.operandSize (newSp i s)
    change accessedAdmitted (loadSp s.mode64 i.operandSize (newSp i s) p.2.2) _ = true at hadm
    change s4 = _ at h4
    rw [ht.accessedAdmitted] at hadm
    have h4' : s4 = { loadSp s.mode64 i.operandSize (newSp i s) p.2.2 with
        ss := ⟨newSs i s, hiddenOf (descAt s (returnSs i s))⟩, mem := accessedMem (afterCs i s) (newSs i s) } := by
      rw [← ht.accessedMem]; exact h4
    have hfin := (Except.ok.inj h).symm
    obtain ⟨f1, f2, f3, f4⟩ := outerFinish hp3 h4' hfin
    have hsize : protectedNewStackSize (invalidateDataSegs s4) =
        if (descAt s (returnSs i s)).db then .s32 else .s16 := by rw [h4']; rfl
    refine ⟨?_, f1, ⟨f2, f3⟩, hsize ▸ f4⟩
    have hr := hread
    simp only [outerReadable, Bool.and_eq_true] at hr
    simp only [protectedOuterReady, protectedReady, Bool.and_eq_true, decide_eq_true_eq]
    exact ⟨⟨⟨⟨⟨⟨⟨⟨⟨⟨⟨⟨hl, hp⟩, hsz⟩, hr.1.1.1.1⟩, hr.1.1.1.2⟩, hok⟩, hlim⟩, hr.2⟩, hlt⟩, hw⟩, hsok⟩, hread⟩, hadm⟩
  next hge =>
    left
    unfold protectedSame at h
    obtain ⟨ip, hip, h⟩ := bind_eq_ok.mp h
    obtain ⟨-, rfl⟩ := stackRead_eq_ok.mp hip
    obtain ⟨_, hlim, h⟩ := bind_eq_ok.mp h
    have hlim := raiseUnless_eq_ok.mp hlim
    obtain ⟨s1, hs1, h⟩ := bind_eq_ok.mp h
    obtain ⟨h0, h1, h2, h3⟩ := sameLevel_of_pops hsrc hs1 (Except.ok.inj h).symm
    refine ⟨?_, h3⟩
    simp only [protectedSameReady, protectedReady, Bool.and_eq_true, decide_eq_true_eq]
    exact ⟨⟨⟨⟨⟨⟨⟨⟨hl, hp⟩, hsz⟩, h0⟩, h1⟩, hok⟩, hlim⟩, h2⟩, (BitVec.le_antisymm hle (BitVec.not_lt.mp hge)).symm⟩

/-- The entry of a far return in protected mode, when the checks of rules R84 to R86 pass. -/
theorem farReturnProtected_entry {i : RetInstr} {s : State} (hsz : sizesBelow64 i = true)
    (hn : stackReadable (ctxOf i s) s i.operandSize.bytes i.operandSize.bytes = true)
    (hok : protectedCodeOk s (returnCs i s) = true) :
    farReturnProtected i s =
      if s.cpl < rpl (returnCs i s) then protectedOuter (ctxOf i s) i (returnCs i s) (descAt s (returnCs i s)) s
      else protectedSame (ctxOf i s) i (descAt s (returnCs i s)) s := by
  have e1 := refuseIf_eq_ok (r := .operandSize) (u := ()).mpr (sizesBelow64_iff.mpr hsz)
  have e2 := checkStack_eq_ok (u := ()).mpr (stackReadable_within hn)
  have e3 := readSelector_eq_ok.mpr ⟨hn, rfl⟩
  have e4 := protectedCodeDescriptor_eq_ok.mpr ⟨hok, rfl⟩
  unfold farReturnProtected
  simp only [ctxOf] at e2 e3
  simp only [e1, e2, e3, ok_bind]
  simp only [returnCs, ctxOf] at e4
  simp only [e4, ok_bind]
  rfl

theorem farReturnProtected_same_completes {i : RetInstr} {s : State} (h : protectedSameReady i s = true) :
    ∃ t, farReturnProtected i s = .ok t := by
  simp only [protectedSameReady, protectedReady, Bool.and_eq_true, decide_eq_true_eq] at h
  obtain ⟨⟨⟨⟨⟨⟨⟨⟨-, -⟩, hsz⟩, h0⟩, h1⟩, hok⟩, hlim⟩, h2⟩, heq⟩ := h
  obtain ⟨s1, hs1⟩ := popCodeSegment_completes (descAt s (returnCs i s)) h0 h1 h2
  have e0 := stackRead_eq_ok.mpr ⟨h0, rfl⟩
  have e1 := raiseUnless_eq_ok (x := .gp) (e := 0) (u := ()).mpr hlim
  rw [farReturnProtected_entry hsz h1 hok, if_neg (by simp [heq])]
  unfold protectedSame
  simp only [returnIp] at e1
  simp only [e0, e1, hs1, ok_bind]
  exact ⟨_, rfl⟩

theorem farReturnProtected_outer_completes {i : RetInstr} {s : State} (hsrc : i.hasImm = false → i.src = 0)
    (h : protectedOuterReady i s = true) : ∃ t, farReturnProtected i s = .ok t := by
  simp only [protectedOuterReady, protectedReady, Bool.and_eq_true, decide_eq_true_eq] at h
  obtain ⟨⟨⟨⟨⟨⟨⟨⟨⟨⟨⟨⟨-, -⟩, hsz⟩, h0⟩, h1⟩, hok⟩, hlim⟩, h2⟩, hlt⟩, hw⟩, hsok⟩, hread⟩, hadm⟩ := h
  obtain ⟨s1, p, hs1, hpop⟩ := outerPops_complete (descAt s (returnCs i s)) hsrc (.inl rfl) hread
  obtain ⟨-, hp1, hp2, hp3⟩ := outerPops hsrc (.inl rfl) hs1 hpop
  have ht := descAt_afterCs_admit hp3 i.operandSize (newSp i s)
  have h3 : stackReadable (ctxOf i s) s (3 * i.operandSize.bytes + i.src.toNat) i.operandSize.bytes = true := by
    simp only [outerReadable, Bool.and_eq_true] at hread
    exact hread.1.2
  have e0 := checkStack_eq_ok (u := ()).mpr hw
  have e1 := readSelector_eq_ok.mpr ⟨h3, rfl⟩
  have e2 := protectedStackDescriptor_eq_ok.mpr ⟨hsok, rfl⟩
  have e3 := stackRead_eq_ok.mpr ⟨h0, rfl⟩
  have e4 := raiseUnless_eq_ok (x := .gp) (e := 0) (u := ()).mpr hlim
  have e5 := loadSegDesc_eq_ok (r := .ss) (d := descAt s (returnSs i s)).mpr
    ⟨(ht.accessedAdmitted (newSs i s)).trans hadm, rfl⟩
  rw [← hp1, ← hp2] at e5
  rw [farReturnProtected_entry hsz h1 hok, if_pos hlt]
  unfold protectedOuter
  simp only [returnIp] at e4
  simp only [returnSs] at e2 e5
  simp only [e0, e1, e2, e3, e4, hs1, ok_bind]
  have hpop' : popOuterStack (ctxOf i s) i.operandSize.bytes
      (releaseIf i.hasImm (ctxOf i s).mode64 (ctxOf i s).w i.src (setCsRpl s1)) = .ok p := hpop
  rw [hpop', ok_bind]
  have e5' : loadSegDesc .ss p.2.1
      (descAt s (selectorOf (stackItem (ctxOf i s) s (3 * i.operandSize.bytes + i.src.toNat) i.operandSize.bytes)))
      (loadSp (ctxOf i s).mode64 i.operandSize p.1 p.2.2) = _ := e5
  simp only [e5', ok_bind]
  exact ⟨_, rfl⟩

end Sys2Proof.Machine
end

