-- ==== Sys2Proof/Laws/Ia32e.lean ====
section
/-! SUPPORT. Everything a far return in IA-32e mode can do: when it completes, and the state it leaves. -/

namespace Sys2Proof.Machine

open Sys2Proof.Safety

theorem protectedCodeOk_of_ia32eCodeOk {s : State} {sel : Selector} (h : ia32eCodeOk s sel = true) :
    protectedCodeOk s sel = true := by
  simp only [ia32eCodeOk, Bool.and_eq_true] at h
  exact h.1.1

/-- The width of the first release of rule R108. -/
theorem ia32eFirstRelease_eq (c : StackCtx) (i : RetInstr) (s : State) :
    ia32eFirstRelease c i s = releaseIf i.hasImm c.mode64 (if i.operandSize = .s64 then .s64 else c.w) i.src s := by
  rcases i with ⟨k, b, src, os, as⟩
  cases os <;> rfl

theorem firstWidth (i : RetInstr) (w : Size) :
    (if i.operandSize = .s64 then Size.s64 else w) = w ∨ (if i.operandSize = .s64 then Size.s64 else w) = .s64 := by
  split <;> simp

/-- The width of the second release of rule R111, by what was loaded. -/
theorem ia32eNewStackSize_eq {i : RetInstr} {s u s4 : State} {v : SegReg} {m : Memory} (hia : s.ia32e = true)
    (hu : u = { s with cpl := rpl (returnCs i s), pc := returnIp i s, rsp := u.rsp, draws := u.draws,
                       cs := ⟨returnCs i s, hiddenOf (descAt s (returnCs i s))⟩, mem := accessedMem s (returnCs i s) })
    (h4 : s4 = { loadSp s.mode64 i.operandSize (newSp i s) u with ss := v, mem := m }) :
    ia32eNewStackSize (invalidateDataSegs s4) =
      if (descAt s (returnCs i s)).l then .s64 else if v.hid.db then .s32 else .s16 := by
  have hl : SameButSp u (loadSp s.mode64 i.operandSize (newSp i s) u) := loadSp_sameButSp ..
  unfold SameButSp at hl
  rw [h4, hl, hu, invalidateDataSegs_eq]
  change (if (s.ia32e && (descAt s (returnCs i s)).l) = true then _ else _) = _
  rw [hia, Bool.true_and]

/-- What a completed far return in IA-32e mode needed, and the state it left. -/
theorem farReturnIa32e_eq_ok {i : RetInstr} {s t : State} (hsrc : i.hasImm = false → i.src = 0)
    (hl : s.params.launchable = true) (hp : s.ia32e = true) (h : farReturnIa32e i s = .ok t) :
    ia32eSameReady i s = true ∧ SameLevelReturned i s t ∨
      ia32eOuterReady i s = true ∧ OuterReturned i s t ∧ OuterStackLoaded i s t ∧
        OuterSp i s (if (descAt s (returnCs i s)).l then .s64 else if (descAt s (returnSs i s)).db then .s32 else .s16)
          t.rsp ∨
      ia32eNullReady i s = true ∧ OuterReturned i s t ∧ NullStackLoaded i s t ∧ OuterSp i s .s64 t.rsp := by
  unfold farReturnIa32e at h
  obtain ⟨_, hent, h⟩ := bind_eq_ok.mp h
  obtain ⟨-, hc0, hc1⟩ := ia32eEntryChecks_eq_ok.mp hent
  obtain ⟨retCS, hcs, h⟩ := bind_eq_ok.mp h
  obtain ⟨hn, rfl⟩ := readSelector_eq_ok.mp hcs
  obtain ⟨d, hd, h⟩ := bind_eq_ok.mp h
  obtain ⟨hok, rfl⟩ := ia32eCodeDescriptor_eq_ok.mp hd
  change ia32eCodeOk s (returnCs i s) = true at hok
  change (if s.cpl < rpl (returnCs i s) then ia32eOuter (ctxOf i s) i (returnCs i s) (descAt s (returnCs i s)) s
    else ia32eSame (ctxOf i s) i (descAt s (returnCs i s)) s) = .ok t at h
  have hle := cpl_le_of_codeOk (protectedCodeOk_of_ia32eCodeOk hok)
  split at h
  next hlt =>
    right
    unfold ia32eOuter at h
    obtain ⟨_, hw, h⟩ := bind_eq_ok.mp h
    have hw := ia32eOuterStackChecks_eq_ok.mp hw
    obtain ⟨retSS, hss, h⟩ := bind_eq_ok.mp h
    obtain ⟨-, rfl⟩ := readSelector_eq_ok.mp hss
    obtain ⟨ds, hds, h⟩ := bind_eq_ok.mp h
    obtain ⟨_, htg, h⟩ := bind_eq_ok.mp h
    obtain ⟨-, hlim, hcan⟩ := ia32eTargetChecks_eq_ok.mp htg
    obtain ⟨s1, hs1, h⟩ := bind_eq_ok.mp h
    obtain ⟨p, hpop, h⟩ := bind_eq_ok.mp h
    rw [ia32eFirstRelease_eq] at hpop
    obtain ⟨hread, hp1, hp2, hp3⟩ := outerPops hsrc (firstWidth i _) hs1 hpop
    obtain ⟨s4, h4, h⟩ := bind_eq_ok.mp h
    rw [hp1, hp2] at h4
    have ht := descAt_afterCs_admit hp3 i.operandSize (newSp i s)
    have hfin := (Except.ok.inj h).symm
    have hr := hread
    simp only [outerReadable, Bool.and_eq_true] at hr
    have hentry : ia32eOuterEntry i s = true := by
      simp only [ia32eOuterEntry, ia32eReady, Bool.and_eq_true, decide_eq_true_eq, Bool.or_eq_true]
      exact ⟨⟨⟨⟨⟨⟨⟨⟨⟨⟨⟨⟨⟨hl, hp⟩, hc0⟩, hc1⟩, hr.1.1.1.1⟩, hr.1.1.1.2⟩, hok⟩, hlim⟩, hcan⟩, hr.2⟩, hlt⟩, hw.1⟩, hw.2⟩,
        hread⟩
    rcases ia32eStackDescriptor_eq_ok.mp hds with ⟨hsok, rfl⟩ | ⟨hsok, rfl⟩
    · right
      have hls : SameButSp p.2.2 (loadSp s.mode64 i.operandSize (newSp i s) p.2.2) := loadSp_sameButSp ..
      have h4 : s4 = { loadSp s.mode64 i.operandSize (newSp i s) p.2.2 with
          ss := { sel := newSs i s, hid := { (loadSp s.mode64 i.operandSize (newSp i s) p.2.2).ss.hid with
            valid := false, dpl := (loadSp s.mode64 i.operandSize (newSp i s) p.2.2).cpl } } } :=
        (Except.ok.inj h4).symm
      unfold SameButSp at hls
      have hss : (loadSp s.mode64 i.operandSize (newSp i s) p.2.2).ss = s.ss := by rw [hls, hp3]
      have hcpl : (loadSp s.mode64 i.operandSize (newSp i s) p.2.2).cpl = rpl (returnCs i s) := by rw [hls, hp3]
      have hmem : (loadSp s.mode64 i.operandSize (newSp i s) p.2.2).mem = accessedMem s (returnCs i s) := by
        rw [hls, hp3]
      have hsel : s4 = { loadSp s.mode64 i.operandSize (newSp i s) p.2.2 with
          ss := { sel := newSs i s, hid := { s.ss.hid with valid := false, dpl := rpl (returnCs i s) } },
          mem := accessedMem s (returnCs i s) } := by
        rw [h4, hss, hcpl, ← hmem]
      obtain ⟨f1, f2, f3, f4⟩ := outerFinish hp3 hsel hfin
      have hsize := ia32eNewStackSize_eq hp hp3 hsel
      have hnull : (descAt s (returnCs i s)).l = true := by
        simp only [nullStackOk, Bool.and_eq_true] at hsok
        exact hsok.1.1.1.2
      have hsize' : ia32eNewStackSize (invalidateDataSegs s4) = .s64 := by
        rw [hsize, hnull]; rfl
      refine ⟨?_, f1, ⟨?_, f3⟩, hsize' ▸ f4⟩
      · simp only [ia32eNullReady, Bool.and_eq_true]
        exact ⟨hentry, hsok⟩
      · rw [f2, f1.2.1]
    · left
      have h4 : loadSegDesc .ss (newSs i s) (descAt s (returnSs i s))
        (loadSp s.mode64 i.operandSize (newSp i s) p.2.2) = .ok s4 := h4
      obtain ⟨hadm, h4⟩ := loadSegDesc_eq_ok.mp h4
      rw [ht.accessedAdmitted] at hadm
      have hsel : s4 = { loadSp s.mode64 i.operandSize (newSp i s) p.2.2 with
          ss := ⟨newSs i s, hiddenOf (descAt s (returnSs i s))⟩, mem := accessedMem (afterCs i s) (newSs i s) } := by
        rw [← ht.accessedMem]; exact h4
      obtain ⟨f1, f2, f3, f4⟩ := outerFinish hp3 hsel hfin
      have hsize := ia32eNewStackSize_eq hp hp3 hsel
      have hsize' : ia32eNewStackSize (invalidateDataSegs s4) =
          if (descAt s (returnCs i s)).l then .s64 else if (descAt s (returnSs i s)).db then .s32 else .s16 := by
        rw [hsize]; rfl
      refine ⟨?_, f1, ⟨f2, f3⟩, hsize' ▸ f4⟩
      simp only [ia32eOuterReady, Bool.and_eq_true]
      exact ⟨⟨hentry, hsok⟩, hadm⟩
  next hge =>
    left
    unfold ia32eSame at h
    obtain ⟨_, htg, h⟩ := bind_eq_ok.mp h
    obtain ⟨-, hlim, hcan⟩ := ia32eTargetChecks_eq_ok.mp htg
    obtain ⟨s1, hs1, h⟩ := bind_eq_ok.mp h
    obtain ⟨h0, h1, h2, h3⟩ := sameLevel_of_pops hsrc hs1 (Except.ok.inj h).symm
    refine ⟨?_, h3⟩
    simp only [ia32eSameReady, ia32eReady, Bool.and_eq_true, decide_eq_true_eq]
    exact ⟨⟨⟨⟨⟨⟨⟨⟨⟨⟨hl, hp⟩, hc0⟩, hc1⟩, h0⟩, h1⟩, hok⟩, hlim⟩, hcan⟩, h2⟩,
      (BitVec.le_antisymm hle (BitVec.not_lt.mp hge)).symm⟩

/-- The entry of a far return in IA-32e mode, when the checks of rules R97 and R98 pass. -/
theorem farReturnIa32e_entry {i : RetInstr} {s : State}
    (h0 : canonItem (ctxOf i s) s 0 i.operandSize.bytes = true)
    (h1 : canonItem (ctxOf i s) s i.operandSize.bytes i.operandSize.bytes = true)
    (hn : stackReadable (ctxOf i s) s i.operandSize.bytes i.operandSize.bytes = true)
    (hok : ia32eCodeOk s (returnCs i s) = true) :
    farReturnIa32e i s =
      if s.cpl < rpl (returnCs i s) then ia32eOuter (ctxOf i s) i (returnCs i s) (descAt s (returnCs i s)) s
      else ia32eSame (ctxOf i s) i (descAt s (returnCs i s)) s := by
  have e1 := ia32eEntryChecks_eq_ok (u := ()).mpr ⟨.inr (stackReadable_within hn), h0, h1⟩
  have e3 := readSelector_eq_ok.mpr ⟨hn, rfl⟩
  have e4 := ia32eCodeDescriptor_eq_ok.mpr ⟨hok, rfl⟩
  unfold farReturnIa32e
  simp only [ctxOf] at e1 e3
  simp only [e1, e3, ok_bind]
  simp only [returnCs, ctxOf] at e4
  simp only [e4, ok_bind]
  rfl

theorem farReturnIa32e_same_completes {i : RetInstr} {s : State} (h : ia32eSameReady i s = true) :
    ∃ t, farReturnIa32e i s = .ok t := by
  simp only [ia32eSameReady, ia32eReady, Bool.and_eq_true, decide_eq_true_eq] at h
  obtain ⟨⟨⟨⟨⟨⟨⟨⟨⟨⟨-, -⟩, hc0⟩, hc1⟩, h0⟩, h1⟩, hok⟩, hlim⟩, hcan⟩, h2⟩, heq⟩ := h
  obtain ⟨s1, hs1⟩ := popCodeSegment_completes (descAt s (returnCs i s)) h0 h1 h2
  have e0 := ia32eTargetChecks_eq_ok (u := ()).mpr ⟨h0, hlim, hcan⟩
  rw [farReturnIa32e_entry hc0 hc1 h1 hok, if_neg (by simp [heq])]
  unfold ia32eSame
  simp only [e0, hs1, ok_bind]
  exact ⟨_, rfl⟩

/-- A far return in IA-32e mode to an outer level completes when its stack selector passes and its loads are admitted. -/
theorem farReturnIa32e_outer_completes {i : RetInstr} {s : State} (hsrc : i.hasImm = false → i.src = 0)
    (h : ia32eOuterEntry i s = true)
    (hss : nullStackOk s (returnCs i s) (returnSs i s) = true ∨
      ia32eStackOk s (returnCs i s) (returnSs i s) = true ∧ accessedAdmitted (afterCs i s) (newSs i s) = true) :
    ∃ t, farReturnIa32e i s = .ok t := by
  simp only [ia32eOuterEntry, ia32eReady, Bool.and_eq_true, decide_eq_true_eq, Bool.or_eq_true] at h
  obtain ⟨⟨⟨⟨⟨⟨⟨⟨⟨⟨⟨⟨⟨-, -⟩, hc0⟩, hc1⟩, h0⟩, h1⟩, hok⟩, hlim⟩, hcan⟩, h2⟩, hlt⟩, hw⟩, hcm⟩, hread⟩ := h
  obtain ⟨s1, p, hs1, hpop⟩ := outerPops_complete (descAt s (returnCs i s)) hsrc (firstWidth i _) hread
  obtain ⟨-, hp1, hp2, hp3⟩ := outerPops hsrc (firstWidth i _) hs1 hpop
  have ht := descAt_afterCs_admit hp3 i.operandSize (newSp i s)
  have h3 : stackReadable (ctxOf i s) s (3 * i.operandSize.bytes + i.src.toNat) i.operandSize.bytes = true := by
    simp only [outerReadable, Bool.and_eq_true] at hread
    exact hread.1.2
  have e0 := ia32eOuterStackChecks_eq_ok (u := ()).mpr ⟨hw, hcm⟩
  have e1 := readSelector_eq_ok.mpr ⟨h3, rfl⟩
  have e3 := ia32eTargetChecks_eq_ok (u := ()).mpr ⟨h0, hlim, hcan⟩
  have e5 : ∃ o s4, ia32eStackDescriptor s (returnCs i s) (returnSs i s) (descAt s (returnCs i s)) = .ok o ∧
      loadSs p.2.1 o (loadSp s.mode64 i.operandSize p.1 p.2.2) = .ok s4 := by
    rcases hss with hn | ⟨hs, hadm⟩
    · exact ⟨none, _, ia32eStackDescriptor_eq_ok.mpr (.inl ⟨hn, rfl⟩), rfl⟩
    · have e := loadSegDesc_eq_ok (r := .ss) (d := descAt s (returnSs i s)).mpr
        ⟨(ht.accessedAdmitted (newSs i s)).trans hadm, rfl⟩
      rw [← hp1, ← hp2] at e
      exact ⟨some (descAt s (returnSs i s)), _, ia32eStackDescriptor_eq_ok.mpr (.inr ⟨hs, rfl⟩), e⟩
  obtain ⟨o, s4, e5, e6⟩ := e5
  rw [farReturnIa32e_entry hc0 hc1 h1 hok, if_pos hlt]
  unfold ia32eOuter
  simp only [returnSs] at e5
  simp only [e0, e1, e3, e5, hs1, ok_bind, ia32eFirstRelease_eq]
  have hpop' : popOuterStack (ctxOf i s) i.operandSize.bytes
      (releaseIf i.hasImm (ctxOf i s).mode64 (if i.operandSize = .s64 then .s64 else (ctxOf i s).w) i.src
        (setCsRpl s1)) = .ok p := hpop
  rw [hpop', ok_bind]
  have e6' : loadSs p.2.1 o (loadSp (ctxOf i s).mode64 i.operandSize p.1 p.2.2) = .ok s4 := e6
  simp only [e6', ok_bind]
  exact ⟨_, rfl⟩

end Sys2Proof.Machine
end

