-- ==== Sys2Proof/Laws/Step.lean ====
section
/-! SUPPORT. What an instruction can do, once: the four kinds of completion, and where a step comes from. -/

namespace Sys2Proof.Machine

open Sys2Proof.Safety

/-- A near return that completes leaves what `NearReturned` says. -/
theorem nearReturned_of_ok {r : RetInstr} {s t : State} (hsrc : r.hasImm = false → r.src = 0)
    (h : nearReturn r s = .ok t) : NearReturned r s t := by
  obtain ⟨-, -, ht⟩ := nearReturn_eq_ok.mp h
  set u := { writeSp s.mode64 r.stackAddressSize (s.rsp + BitVec.ofNat 64 r.operandSize.bytes) s with
    pc := returnIp r s } with hu
  have h1 := writeSp_sameButSp s s.mode64 r.stackAddressSize (s.rsp + BitVec.ofNat 64 r.operandSize.bytes)
  have h2 : SameButSp u t := ht ▸ releaseIf_sameButSp ..
  have hall : t = { s with pc := returnIp r s, rsp := t.rsp, draws := t.draws } := by
    unfold SameButSp at h1 h2
    rw [h2, hu, h1]
  have hw : RaisedSp (s.mode64 || s.params.upperSp = .zero) r.stackAddressSize r.operandSize.bytes s.rsp u.rsp :=
    writeSp_wrote ..
  have hp : u.params = s.params := by simp [hu]
  rw [← hp] at hw
  have hz := releaseIf_raised hsrc hw
  rw [hp, ← ht] at hz
  exact ⟨by rw [hall], hz, by rw [hall], fun a => by rw [hall]⟩

/-- A far return in real-address or virtual-8086 mode that completes leaves what `RealReturned` says. -/
theorem realReturned_of_ok {r : RetInstr} {s t : State} (hsrc : r.hasImm = false → r.src = 0)
    (h : farReturnRealV86 r s = .ok t) : RealReturned r s t := by
  obtain ⟨-, -, -, -, -, s3, h3, hr, ht⟩ := farReturnRealV86_eq_ok h
  have hs : SameButSp (loadSegReal .cs (returnCs r s) s3) t := ht ▸ releaseIf_sameButSp ..
  have hall : t = { s with pc := returnIp r s, rsp := t.rsp, draws := t.draws,
                           cs := { sel := returnCs r s,
                                   hid := { s.cs.hid with base := (returnCs r s).setWidth 64 * 16 } } } := by
    unfold SameButSp at hs
    rw [hs]
    simp only [loadSegReal, State.setSeg, State.seg]
    rw [h3]
  have he : r.src &&& 0xFFFF = r.src := by
    rw [show (0xFFFF : BitVec 16) = BitVec.allOnes 16 by decide, BitVec.and_allOnes]
  refine ⟨by rw [hall], by rw [hall], ⟨s3.rsp, hr, ?_⟩, by rw [hall], fun a => by rw [hall]⟩
  rw [ht, releaseRealV86, he]
  cases hb : r.hasImm
  · rw [hsrc hb]
    constructor <;> simp [releaseIf, loadSegReal, State.setSeg]
  · rw [releaseIf, if_pos rfl, release_eq]
    exact writeSp_wrote false .s16 _ (loadSegReal .cs (returnCs r s) s3)

/-- The ways an instruction completes: a near return, a far return in real-address or virtual-8086 mode, a far return
at the same privilege level, and one to an outer level, with `SS` from a descriptor or from a NULL selector. -/
theorem exec_next_cases {i : Instr} {s t : State} (h : exec i s = .next t) :
    let r := i.record
    r.kind = .near ∧ NearReturned r s t ∨
      r.kind = .far ∧ s.realOrV86 = true ∧ RealReturned r s t ∨
      r.kind = .far ∧ s.realOrV86 = false ∧ rpl (returnCs r s) = s.cpl ∧ SameLevelReturned r s t ∨
      r.kind = .far ∧ s.realOrV86 = false ∧ s.cpl < rpl (returnCs r s) ∧ OuterReturned r s t ∧
        (OuterStackLoaded r s t ∨ s.ia32e = true ∧ NullStackLoaded r s t) := by
  intro r
  have hsrc := src_of_not_hasImm i
  cases hk : i.record.kind
  · rw [exec_near hk, perform_eq_next] at h
    exact .inl ⟨rfl, nearReturned_of_ok hsrc h.2⟩
  · rw [exec_far hk, perform_eq_next] at h
    obtain ⟨hl, h⟩ := h
    rcases mode_cases s with hm | hm | hm
    · rw [farReturn_real hm] at h
      exact .inr (.inl ⟨rfl, hm, realReturned_of_ok hsrc h⟩)
    · have hr := realOrV86_of_protected hm
      rw [farReturn_protected hm] at h
      rcases farReturnProtected_eq_ok hsrc hl hm h with ⟨hq, h⟩ | ⟨hq, h1, h2, -⟩
      · simp only [protectedSameReady, Bool.and_eq_true, decide_eq_true_eq] at hq
        exact .inr (.inr (.inl ⟨rfl, hr, hq.2, h⟩))
      · simp only [protectedOuterReady, Bool.and_eq_true, decide_eq_true_eq] at hq
        exact .inr (.inr (.inr ⟨rfl, hr, hq.1.1.1.1.2, h1, .inl h2⟩))
    · have hr := realOrV86_of_ia32e hm
      rw [farReturn_ia32e hm] at h
      rcases farReturnIa32e_eq_ok hsrc hl hm h with ⟨hq, h⟩ | ⟨hq, h1, h2, -⟩ | ⟨hq, h1, h2, -⟩
      · simp only [ia32eSameReady, Bool.and_eq_true, decide_eq_true_eq] at hq
        exact .inr (.inr (.inl ⟨rfl, hr, hq.2, h⟩))
      · simp only [ia32eOuterReady, ia32eOuterEntry, Bool.and_eq_true, decide_eq_true_eq] at hq
        exact .inr (.inr (.inr ⟨rfl, hr, hq.1.1.1.1.1.2, h1, .inl h2⟩))
      · simp only [ia32eNullReady, ia32eOuterEntry, Bool.and_eq_true, decide_eq_true_eq] at hq
        exact .inr (.inr (.inr ⟨rfl, hr, hq.1.1.1.1.2, h1, .inr ⟨hm, h2⟩⟩))

/-- A step that gives a next state is the `exec` of some instruction at that state. -/
theorem step_eq_next {s t : State} (h : step s = .next t) : ∃ i, nextInstr s = .ok i ∧ exec i s = .next t := by
  unfold step at h
  split at h
  · exact ⟨_, ‹_›, h⟩
  · cases h
  · cases h

end Sys2Proof.Machine
end

