-- ==== Sys2Proof/Laws/Bytes.lean ====
section
/-! SUPPORT. The bytes of a value read from memory, and what the setting of an accessed bit leaves of them. -/

namespace Sys2Proof.Machine

open Sys2Proof.Safety

/-- The digits of a little-endian value are its bytes. -/
theorem leValue_digit (bs : List Byte) (j : Nat) :
    leValue bs / 256 ^ j % 256 = if h : j < bs.length then (bs[j]).toNat else 0 := by
  induction bs generalizing j with
  | nil => simp [leValue]
  | cons b bs ih =>
    have hb : b.toNat < 256 := b.isLt
    cases j with
    | zero => simp [leValue]; omega
    | succ j =>
      have : leValue (b :: bs) / 256 ^ (j + 1) = leValue bs / 256 ^ j := by
        rw [Nat.pow_succ', ← Nat.div_div_eq_div_mul, leValue, Nat.add_mul_div_left _ _ (by decide : 0 < 256),
          Nat.div_eq_of_lt hb, Nat.zero_add]
      rw [this, ih]
      simp

/-- Byte `j` of a value of `n` bytes is the byte of memory `j` above its address. -/
theorem memValue_byte (s : State) (a : Word) {n : Nat} (j : Nat) (hn : n ≤ 8) :
    (memValue s a n).extractLsb' (8 * j) 8 = if j < n then s.mem.read (byteAddr s a j).toNat else 0 := by
  have hl : leValue ((List.range n).map fun i => s.mem.read (byteAddr s a i).toNat) < 2 ^ 64 := by
    refine lt_of_lt_of_le (leValue_lt _) ?_
    simpa using Nat.pow_le_pow_right (by decide : 0 < 256) hn
  apply BitVec.eq_of_toNat_eq
  have hd := leValue_digit ((List.range n).map fun i => s.mem.read (byteAddr s a i).toNat) j
  rw [BitVec.extractLsb'_toNat, memValue, BitVec.toNat_ofNat, Nat.mod_eq_of_lt hl, Nat.shiftRight_eq_div_pow, Nat.pow_mul]
  refine hd.trans ?_
  by_cases h : j < n <;> simp [h]

/-- Bit 40 of a descriptor is bit 0 of its byte 5. -/
theorem descriptor_accessed_bit (s : State) (sel : Selector) :
    (memValue s (descAddr s sel) 8).getLsbD 40 = (s.mem.read (accessedAddr s sel).toNat).getLsbD 0 := by
  have h := memValue_byte s (descAddr s sel) 5 (n := 8) (by decide)
  rw [if_pos (by decide)] at h
  have h' := congrArg (fun b : Byte => b.getLsbD 0) h
  simpa [accessedAddr] using h'

theorem needsAccessed_iff {s : State} {sel : Selector} : needsAccessed s sel = true ↔
    s.params.setAccessed = true ∧ (s.mem.read (accessedAddr s sel).toNat).getLsbD 0 = false := by
  rw [needsAccessed, Bool.and_eq_true, Bool.not_eq_true', descriptor_accessed_bit]

theorem accessedMem_wf {s : State} {sel : Selector} (h : s.mem.wf = true) : (accessedMem s sel).wf = true := by
  unfold accessedMem
  split
  · exact Memory.wf_write h (BitVec.isLt _)
  · exact h

/-- A byte that the setting of an accessed bit changes is the one that holds the bit, which was clear and is now set. -/
theorem accessedMem_changed {s : State} {sel : Selector} {a : Nat} (hw : s.mem.wf = true)
    (h : (accessedMem s sel).read a ≠ s.mem.read a) :
    a = (accessedAddr s sel).toNat ∧ s.params.setAccessed = true ∧ (s.mem.read a).getLsbD 0 = false ∧
      (accessedMem s sel).read a = s.mem.read a ||| 1 := by
  unfold accessedMem at *
  split at h
  next hn =>
    rw [Memory.read_write hw] at h
    by_cases ha : a = (accessedAddr s sel).toNat
    · rw [if_pos hn, Memory.read_write hw, if_pos ha, ha]
      exact ⟨rfl, (needsAccessed_iff.mp hn).1, (needsAccessed_iff.mp hn).2, rfl⟩
    · simp [ha] at h
  next => exact absurd rfl h

/-- After the setting of an accessed bit, the bit is set where the parameters ask for it. -/
theorem accessedMem_set {s : State} {sel : Selector} (hw : s.mem.wf = true) (hp : s.params.setAccessed = true) :
    ((accessedMem s sel).read (accessedAddr s sel).toNat).getLsbD 0 = true := by
  unfold accessedMem
  split
  · rw [Memory.read_write hw, if_pos rfl]
    simp
  · rename_i h
    rw [needsAccessed_iff] at h
    simpa [hp] using h

end Sys2Proof.Machine
end

