-- ==== Sys2Proof/Laws/PerInstr.lean ====
section
/-! SUPPORT. The statement made of every instruction, and its lemma for each constructor. -/

namespace Sys2Proof.Laws.EncodeLength

/-- The length of an encoding (rules R59, R64): one byte, or three with an immediate operand, and at most two prefixes, in
every state. -/
def Statement (i : Instr) : Prop :=
  ∀ c : DecodeCtx,
    (if i.record.hasImm then 3 else 1) ≤ (encode c i).length ∧
      (encode c i).length ≤ (if i.record.hasImm then 3 else 1) + 2 ∧ (encode c i).length ≤ maxLength

/-- The prefixes of an encoding are none, one or two bytes. -/
theorem of_record (i : Instr) : Statement i := by
  intro c
  unfold encode maxLength
  dsimp only
  cases i.record.hasImm <;> cases needs66 c i.record.kind i.record.operandSize <;>
    cases needsRexW c i.record.kind i.record.operandSize <;> simp

theorem ret (os as : Size) : Statement (.ret os as) := of_record _

theorem retImm16 (imm16 : BitVec 16) (os as : Size) : Statement (.retImm16 imm16 os as) := of_record _

theorem retf (os as : Size) : Statement (.retf os as) := of_record _

theorem retfImm16 (imm16 : BitVec 16) (os as : Size) : Statement (.retfImm16 imm16 os as) := of_record _

end Sys2Proof.Laws.EncodeLength
end

