-- ==== Sys2Proof/Tests/Slice0.lean ====
section
/-! SUPPORT. Tests of the model on small states, and one witness for each obligation that has hypotheses. The expected
results are the vectors of `95_test_vectors.md` (named in each docstring), which the spec works out by hand. -/

open Sys2Proof Sys2Proof.Machine Sys2Proof.Safety Sys2Proof.Config

namespace Sys2Proof.Tests

set_option Elab.async false

/-! ### Helpers and the fixtures of `95_test_vectors.md` section 2.0 -/

/-- The cells of bytes at rising addresses, in canonical form. -/
def cells (a : Nat) : List Byte → Memory
  | [] => []
  | b :: bs => Memory.cons a b (cells (a + 1) bs)

/-- Items of `n` bytes, each low-order byte first. -/
def items (n : Nat) (vs : List Nat) : List Byte :=
  vs.flatMap fun v => (List.range n).map fun k => BitVec.ofNat 8 (v / 256 ^ k)

/-- The entries of descriptor table `T`. -/
def entries : List Nat :=
  [0x0, 0x00CF9B000000FFFF, 0x00CF93000000FFFF, 0x00CFFB000000FFFF, 0x00CFF3000000FFFF, 0x00AF9B000000FFFF,
    0x00AFFB000000FFFF, 0x00009B0000007FFF, 0x0000F3000000FFFF, 0x00CF1B000000FFFF, 0x00CF9F000000FFFF,
    0x00CFFA000000FFFF, 0x00EF9B000000FFFF, 0x00CF73000000FFFF, 0x0000890000000067, 0x00CFFF000000FFFF,
    0x0040FB0000007FFF, 0x00AFBB000000FFFF, 0x00209B0000000000, 0x00CFB3000000FFFF]

def table : Memory := cells 0x1000 (items 8 entries)

/-- "`Seg` = s (entry k)". -/
def seg (sel : Selector) (k : Nat) : SegReg := ⟨sel, hiddenOf (decodeDescriptor (BitVec.ofNat 64 (entries.getD k 0)))⟩

/-- A data segment register that holds nothing. -/
def unused : SegReg := ⟨0, { SegHidden.resetData with valid := false }⟩

/-- `UPPER_SP_POLICY = zero`, so that no free value enters an expected result. -/
def fixed : Params := { Params.default with upperSp := .zero }

def real : State :=
  { State.reset with
    cs := ⟨0, { SegHidden.resetCode with base := 0 }⟩, es := unused, fs := unused, gs := unused, ds := unused, params := fixed }

def v86 : State := { real with pe := true, vm := true, cpl := 3 }

def p32 : State :=
  { real with
    pe := true, cs := seg 0x0008 1, ss := seg 0x0010 2, gdtr := ⟨0x1000, 0x9F⟩, ldtr := ⟨0, false, 0, 0⟩, mem := table }

def p32r3 : State := { p32 with cpl := 3, cs := seg 0x001B 3, ss := seg 0x0023 4 }
def p32o : State := { p32 with ds := seg 0x0010 2, es := seg 0x0023 4, fs := seg 0x0050 10 }
def l64 : State := { p32 with lma := true, cs := seg 0x0028 5 }
def compat : State := { p32 with lma := true }

/-- All four data segment registers hold entry 2. -/
def data0 (s : State) : State :=
  { s with ds := seg 0x0010 2, es := seg 0x0010 2, fs := seg 0x0010 2, gs := seg 0x0010 2 }

/-- The stack pointer at `sp`, with items of `n` bytes in memory from there on. -/
def stack (s : State) (sp n : Nat) (vs : List Nat) : State :=
  { s with rsp := BitVec.ofNat 64 sp, mem := s.mem ++ cells sp (items n vs) }

/-- The program counter at an address, with the bytes of an instruction there, above all other bytes. -/
def code (s : State) (pc : Nat) (bs : List Byte) : State :=
  { s with pc := BitVec.ofNat 64 pc, mem := s.mem ++ cells pc bs }

/-- A launch that does not admit the accesses of a kind and size at one address. -/
def deny (s : State) (kind : AccessKind) (size a : Nat) : State :=
  { s with params := { s.params with denied := [⟨kind, size, a, a⟩] } }

def loadNull (s : State) : State := { s with params := { s.params with nullSs := .loadNull } }
def limitSs (s : State) (n : BitVec 32) : State := { s with ss := { s.ss with hid := { s.ss.hid with limit := n } } }
def limitCs (s : State) (n : BitVec 32) : State := { s with cs := { s.cs with hid := { s.cs.hid with limit := n } } }

/-- The outcome is a next state of which `p` holds. -/
def nexts (o : Host.Outcome State Fault Refusal) (p : State → Bool) : Bool :=
  match o with
  | .next t => p t
  | _ => false

def faults (o : Host.Outcome State Fault Refusal) (f : Fault) : Bool :=
  match o with
  | .fault g => g = f
  | _ => false

def refuses (o : Host.Outcome State Fault Refusal) (r : Refusal) : Bool :=
  match o with
  | .refused q => q = r
  | _ => false

theorem of_nexts {o : Host.Outcome State Fault Refusal} {p : State → Bool} (h : nexts o p = true) :
    ∃ t, o = .next t ∧ p t = true := by
  cases o with
  | next t => exact ⟨t, rfl, h⟩
  | fault f => cases h
  | refused r => cases h

theorem of_faults {o : Host.Outcome State Fault Refusal} {f : Fault} (h : faults o f = true) : o = .fault f := by
  cases o with
  | next t => cases h
  | fault g => exact congrArg _ (of_decide_eq_true h)
  | refused r => cases h

theorem of_refuses {o : Host.Outcome State Fault Refusal} {r : Refusal} (h : refuses o r = true) : o = .refused r := by
  cases o with
  | next t => cases h
  | fault g => cases h
  | refused q => exact congrArg _ (of_decide_eq_true h)

def ss (e : Selector) : Fault := .exception .ss e
def gp (e : Selector) : Fault := .exception .gp e
def np (e : Selector) : Fault := .exception .np e

/-! ### Well-formedness: an ill-formed term for each check -/

/-- A near return of 32 bits in 64-bit mode. -/
theorem test_ill_formed_near32 : (Instr.ret .s32 .s64).wellFormed = false := by decide
/-- A 64-bit operand on a 16-bit stack. -/
theorem test_ill_formed_size64 : (Instr.retfImm16 4 .s64 .s16).wellFormed = false := by decide
/-- A stack-address size other than the state's. -/
theorem test_ill_formed_stack : (Instr.retf .s32 .s16).wellFormedIn ⟨false, true, true, .ignored⟩ = false := by decide
/-- A 64-bit operand outside 64-bit mode. -/
theorem test_ill_formed_operand : (Instr.retf .s64 .s32).wellFormedIn ⟨false, true, true, .ignored⟩ = false := by decide
/-- A 16-bit near return in 64-bit mode where 66H is ignored. -/
theorem test_ill_formed_near16 :
    (Instr.retImm16 0 .s16 .s64).wellFormedIn ⟨true, false, true, .ignored⟩ = false ∧
      (Instr.retImm16 0 .s16 .s64).wellFormedIn ⟨true, false, true, .honoured⟩ = true := by decide

/-! ### Decoding: words written out from rules R58 to R63 -/

/-- DEC1, DEC2, DEC16: C3H is 1100 0011, C2H is 1100 0010. -/
theorem test_decode_ret :
    decode p32.decodeCtx [0b11000011] = .ok (.ret .s32 .s32, []) ∧
      decode ⟨false, true, false, .ignored⟩ [0xC3] = .ok (.ret .s32 .s16, []) := by decide +kernel
theorem test_decode_retImm16 :
    decode p32.decodeCtx [0x66, 0b11000010, 0x34, 0x12] = .ok (.retImm16 0x1234 .s16 .s32, []) := by decide +kernel
/-- DEC3, DEC7, DEC9, DEC10, DEC12: CBH is 1100 1011. -/
theorem test_decode_retf :
    decode real.decodeCtx [0b11001011] = .ok (.retf .s16 .s16, []) ∧
      decode l64.decodeCtx [0xCB] = .ok (.retf .s32 .s64, []) ∧
      decode l64.decodeCtx [0x66, 0x48, 0xCB] = .ok (.retf .s64 .s64, []) ∧
      decode l64.decodeCtx [0x66, 0xCB] = .ok (.retf .s16 .s64, []) ∧
      decode compat.decodeCtx [0xCB] = .ok (.retf .s32 .s32, []) := by decide +kernel
/-- DEC4, DEC8: CAH is 1100 1010. -/
theorem test_decode_retfImm16 :
    decode real.decodeCtx [0x66, 0b11001010, 0xFF, 0xFF] = .ok (.retfImm16 0xFFFF .s32 .s16, []) ∧
      decode l64.decodeCtx [0x48, 0xCA, 0x10, 0x00] = .ok (.retfImm16 0x0010 .s64 .s64, []) := by decide +kernel
/-- DEC5, DEC6, DEC11: a near return in 64-bit mode. -/
theorem test_decode_near64 :
    decode l64.decodeCtx [0xC3] = .ok (.ret .s64 .s64, []) ∧ decode l64.decodeCtx [0x48, 0xC3] = .ok (.ret .s64 .s64, []) ∧
      decode l64.decodeCtx [0x66, 0xC3] = .ok (.ret .s64 .s64, []) ∧
      decode ⟨true, false, true, .honoured⟩ [0x66, 0xC3] = .ok (.ret .s16 .s64, []) := by decide +kernel
/-- DEC13 to DEC15: what is in no form. -/
theorem test_decode_refuses :
    [[0x48, 0xCB], [0xF3, 0xC3], [0xF0, 0xC3], [0x67, 0xC3], [0x2E, 0xCB], [0x66, 0x66, 0xC3], [0xC9], [0xCF], [0x90]].all
      (fun bs => decode p32.decodeCtx bs = .error .notInScope) = true := by decide +kernel
/-- The opcode table's words. -/
theorem test_decode_table_words :
    decodeTableWord 8 0xC3 = some (.ret .s16 .s16) ∧ decodeTableWord 24 0x1234C2 = some (.retImm16 0x1234 .s16 .s16) ∧
      decodeTableWord 8 0xCB = some (.retf .s16 .s16) ∧
      decodeTableWord 24 0x1234CA = some (.retfImm16 0x1234 .s16 .s16) := by decide +kernel

/-! ### One step of each instruction -/

/-- NR1, through the fetch. -/
theorem test_ret_step :
    nexts (step (code (stack p32 0xFFF0 4 [0x12345678]) 0x10000 [0xC3])) (fun t => t.pc = 0x12345678 && t.rsp = 0xFFF4) = true := by
  decide +kernel
/-- NR4: `SP` wraps, and the bits above it stay. -/
theorem test_ret_wraps :
    nexts (exec (.ret .s16 .s16) (stack (stack real 0xFFFE 2 [0x1000]) 0x0000AAAA0000FFFE 2 []))
      (fun t => t.pc = 0x1000 && t.rsp = 0x0000AAAA00000000) = true := by decide +kernel
/-- NR12: `SRC` is unsigned. -/
theorem test_retImm16_unsigned :
    nexts (exec (.retImm16 0xFFFF .s64 .s64) (stack l64 0x9000 8 [0x401000])) (fun t => t.pc = 0x401000 && t.rsp = 0x19007) =
      true := by decide +kernel
/-- NR8. -/
theorem test_retImm16_wraps :
    nexts (exec (.retImm16 0x20 .s16 .s16) (stack real 0xFFF0 2 [0x1000])) (fun t => t.pc = 0x1000 && t.rsp = 0x12) = true := by
  decide +kernel
/-- O1: which data segment registers are taken away. -/
theorem test_retf_outer :
    nexts (exec (.retf .s32 .s32) (stack p32o 0x8FF0 4 [0x401000, 0x1B, 0x12FFE0, 0x23])) (fun t =>
      t.pc = 0x401000 && t.rsp = 0x12FFE0 && t.cs = seg 0x1B 3 && t.ss = seg 0x23 4 && t.cpl = 3 && t.es = p32o.es &&
        t.fs = p32o.fs && t.gs = p32o.gs && t.ds = { sel := 0, hid := { p32o.ds.hid with valid := false } }) = true := by
  decide +kernel
/-- Program B step 1. -/
theorem test_retf_step :
    nexts (step { real with rsp := 0xFFF0, pc := 0x100, mem := cells 0x100 [0xCB] ++ cells 0xFFF0 (items 2 [0x10, 0x2000]) })
      (fun t => t.pc = 0x10 && t.cs.sel = 0x2000 && t.cs.hid.base = 0x20000 && t.rsp = 0xFFF4) = true := by decide +kernel
/-- O3i: `SRC` is added twice, the second time without a carry into bits 31:16. -/
theorem test_retfImm16_outer16 :
    nexts (exec (.retfImm16 2 .s16 .s32) (stack p32o 0x8FF0 2 [0x1000, 0x1B, 0x5555, 0xFFFE, 0x43])) (fun t =>
      t.pc = 0x1000 && t.rsp = 0 && t.ss = seg 0x43 8) = true := by decide +kernel
/-- E8i: from compatibility mode into 64-bit mode. -/
theorem test_retfImm16_compat :
    nexts (exec (.retfImm16 4 .s32 .s32) (stack (data0 compat) 0x8FF0 4 [0x401000, 0x33, 0x7777, 0x12FFE0, 0x23])) (fun t =>
      t.pc = 0x401000 && t.rsp = 0x12FFE4 && t.mode64 && t.ds.sel = 0) = true := by decide +kernel

/-- The machine right after reset: its memory is in canonical form, and it runs the instruction placed for it. -/
theorem test_reset_memory : State.reset.mem.wf = true := by decide
theorem test_reset_runs_ret :
    nexts (step (State.reset.withFetchWord 8 0xC3)) (fun t => t.pc = 0 && t.rsp = 2) = true := by decide +kernel

/-! ### Witnesses: states and operands that meet the hypotheses of each obligation, on every branch -/

/-- Some next state. -/
def completes (i : Instr) (s : State) : Bool := nexts (exec i s) fun _ => true

/-- Each form in a state that gives it its sizes, with the immediate at its least and greatest value. -/
theorem witness_DecodeReadsBackEncode :
    (Instr.ret .s16 .s64).wellFormedIn ⟨true, false, true, .honoured⟩ = true ∧
      (Instr.retImm16 0 .s64 .s64).wellFormedIn ⟨true, false, true, .ignored⟩ = true ∧
      (Instr.retImm16 0xFFFF .s32 .s16).wellFormedIn ⟨false, true, false, .ignored⟩ = true ∧
      (Instr.retf .s16 .s32).wellFormedIn ⟨false, true, true, .ignored⟩ = true ∧
      (Instr.retfImm16 0xFFFF .s64 .s64).wellFormedIn ⟨true, false, true, .ignored⟩ = true := by decide

theorem witness_PrefixesAndStateGiveTheSizes :
    ((some 0xF#4).isSome = true → l64.decodeCtx.mode64 = true) ∧ ((none : Option (BitVec 4)).isSome = true →
      p32.decodeCtx.mode64 = true) := by decide +kernel

theorem witness_DecodedInstructionIsWellFormed :
    decode l64.decodeCtx [0x66, 0x4F, 0xCA, 0xFF, 0xFF, 0x90] = .ok (.retfImm16 0xFFFF .s64 .s64, [0x90]) ∧
      decode p32.decodeCtx [0xC3, 0x90] = .ok (.ret .s32 .s32, [0x90]) := by decide +kernel

/-- The bytes next to the opcodes, and the ends of the REX range in and outside 64-bit mode. -/
theorem witness_OtherByteSequencesAreRefused :
    let opcode := fun b : Byte => decide (b = 0xC3 ∨ b = 0xC2 ∨ b = 0xCB ∨ b = 0xCA)
    let rex := fun b : Byte => decide (b.extractLsb' 4 4 = 4#4)
    ([0xC1, 0xC4, 0xC9, 0xCC, 0x3F, 0x50, 0x65, 0x67, 0x00, 0xFF].all fun b => !opcode b && b ≠ 0x66 && !rex b) = true ∧
      ([0x40, 0x4F].all fun b => !opcode b && rex b) = true ∧ opcode 0x66 = false ∧ rex 0x66 = false ∧
      l64.decodeCtx.mode64 = true ∧ p32.decodeCtx.mode64 = false := by decide +kernel

theorem witness_StepRunsTheDecodedInstruction :
    decode p32.decodeCtx (fetchBytes (code p32 0x10000 [0xC2, 0x08])) = .ok (.retImm16 8 .s32 .s32, [0, 0]) ∧
      p32.decodeCtx = (code p32 0x10000 [0xC2, 0x08]).decodeCtx := by decide +kernel

/-- The state after reset, whose memory reads zero: byte 00H is in no form. -/
theorem witness_StepRefusesOtherBytes :
    decode State.reset.decodeCtx (fetchBytes State.reset) = .error .notInScope := by decide +kernel

/-- The last of five bytes, outside and in 64-bit mode, and the one byte at the end of the segment. -/
theorem witness_FetchReadsMemoryAtCs :
    4 < (fetchBytes real).length ∧ 4 < (fetchBytes l64).length ∧ (fetchBytes { real with pc := 0xFFFF }).length = 1 := by
  decide +kernel

theorem witness_FetchOutsideTheCodeSegmentFaults :
    (real.mode64 = false ∧ real.cs.hid.limit.toNat < ({ real with pc := 0x10000 } : State).pc.toNat) ∧
      ({ l64 with pc := 0x0000800000000000 } : State).mode64 = true ∧
      canonical { l64 with pc := 0x0000800000000000 } 0x0000800000000000 = false := by decide +kernel

theorem witness_LaunchWithExtraChecksIsRefused :
    ({ fixed with alignmentCheck := true } : Params).alignmentCheck = true ∧
      ({ fixed with extraChecks := true } : Params).extraChecks = true := by decide

/-- NR1, NR5's neighbour (the last two bytes of the segment), NR6b, NR9 and NR18. -/
theorem witness_RetCompletes :
    nearReady (Instr.ret .s32 .s32).record (stack p32 0xFFF0 4 [0x12345678]) = true ∧
      nearReady (Instr.ret .s16 .s16).record (stack real 0xFFFE 2 [0x1000]) = true ∧
      nearReady (Instr.ret .s16 .s16).record (stack (limitCs real 0x7FFF) 0xFFF0 2 [0x7FFF]) = true ∧
      nearReady (Instr.ret .s64 .s64).record (stack l64 0x00007FFFFFFFFFF8 8 [0xFFFF700000000000]) = true ∧
      nearReady (Instr.ret .s16 .s64).record (stack l64 0x9000 2 [0x1234]) = true := by decide +kernel

/-- NR2, NR8, NR12 and NR19. -/
theorem witness_RetImm16Completes :
    nearReady (Instr.retImm16 8 .s32 .s32).record (stack p32 0xFFF0 4 [0x12345678]) = true ∧
      nearReady (Instr.retImm16 0x20 .s16 .s16).record (stack real 0xFFF0 2 [0x1000]) = true ∧
      nearReady (Instr.retImm16 0xFFFF .s64 .s64).record (stack l64 0x9000 8 [0x401000]) = true ∧
      nearReady (Instr.retImm16 0 .s32 .s32).record (stack p32 0xFFF0 4 [0x12345678]) = true := by decide +kernel

/-- A 16-bit stack in a segment whose limit exceeds FFFFH. -/
def wideSs : State := { p32 with ss := { p32.ss with hid := { p32.ss.hid with db := false, limit := 0xFFFFF } } }

/-- NR5, NR16, an access not admitted, NR6 and NR6b: one state for each branch. -/
theorem witness_NearReturnStops :
    real.params.launchable = true ∧ (Instr.ret .s16 .s16).record.kind = .near ∧
      faults (exec (.ret .s16 .s16) { real with rsp := 0xFFFF }) (ss 0) = true ∧
      refuses (exec (.ret .s16 .s16) { wideSs with rsp := 0xFFFF }) .stackWrap = true ∧
      refuses (exec (.ret .s16 .s16) (deny { real with rsp := 0xFFF0 } .stackRead 2 0xFFF0)) .memory = true ∧
      faults (exec (.ret .s16 .s16) (stack (limitCs real 0x7FFF) 0xFFF0 2 [0x8000])) (gp 0) = true ∧
      completes (.ret .s16 .s16) (stack (limitCs real 0x7FFF) 0xFFF0 2 [0x7FFF]) = true := by decide +kernel

theorem witness_NearReturnRaisesNothingElse :
    exec (.retImm16 4 .s32 .s32) { p32 with rsp := 0xFFFFFFFE } = .fault (ss 0) ∧
      exec (.ret .s16 .s16) (stack (limitCs real 0x7FFF) 0xFFF0 2 [0x8000]) = .fault (gp 0) :=
  ⟨of_faults (by decide +kernel), of_faults (by decide +kernel)⟩

/-- All three outcomes of a near return. -/
theorem witness_NearReturnIgnoresPrivilegeAndTables :
    (Instr.ret .s16 .s16).record.kind = .near ∧
      completes (.ret .s16 .s16) (stack real 0xFFF0 2 [0x1000]) = true ∧
      faults (exec (.ret .s16 .s16) { real with rsp := 0xFFFF }) (ss 0) = true ∧
      refuses (exec (.ret .s16 .s16) { wideSs with rsp := 0xFFFF }) .stackWrap = true := by decide +kernel

/-- `REAL` with the stack segment of RV1. -/
def realSs : State := { real with ss := ⟨0x2000, { SegHidden.resetData with base := 0x20000 }⟩, mem := cells 0x2FFFA [0x34, 0x12, 0, 0x30] }

/-- RV1, RV2, RV3, RV6, RV9 and RV7. -/
theorem witness_FarReturnRealV86Completes :
    realReady (Instr.retf .s16 .s16).record { realSs with rsp := 0xFFFA } = true ∧
      realReady (Instr.retfImm16 4 .s16 .s16).record { realSs with rsp := 0xFFFA } = true ∧
      realReady (Instr.retf .s32 .s16).record (stack real 0xFFF0 4 [0x12345, 0x12343000]) = true ∧
      realReady (Instr.retf .s16 .s16).record (stack v86 0xFFF0 2 [0xFFFF, 0x3000]) = true ∧
      realReady (Instr.retf .s16 .s16).record (stack real 0xFFFC 2 [0x100, 0]) = true ∧
      realReady (Instr.retfImm16 8 .s16 .s32).record (stack (limitSs real 0xFFFFFFFF) 0x1FFFA 2 [0x1234, 0x3000]) = true := by
  decide +kernel

/-- RV5 and RV4. -/
theorem witness_FarReturnRealV86Faults :
    let i := Instr.retf .s16 .s16
    let s := stack (limitCs real 0x8FFF) 0xFFF0 2 [0x9000, 0x3000]
    i.record.kind = .far ∧ real.params.launchable = true ∧ real.realOrV86 = true ∧ sizesBelow64 i.record = true ∧
      stackOutside (ctxOf i.record { real with rsp := 0xFFFE }) { real with rsp := 0xFFFE } 0 4 = true ∧
      s.params.launchable = true ∧ s.realOrV86 = true ∧ stackWithin (ctxOf i.record s) s 0 4 = true ∧
      stackReadable (ctxOf i.record s) s 0 2 = true ∧ withinCsLimit s (returnIp i.record s) = false := by decide +kernel

/-- RV8, P16, and a 64-bit stack. -/
theorem witness_FarReturnSize64IsRefusedOutsideIa32e :
    (Instr.retf .s64 .s16).record.kind = .far ∧ real.params.launchable = true ∧ real.ia32e = false ∧ p32.ia32e = false ∧
      (Instr.retf .s64 .s32).record.operandSize = .s64 ∧ (Instr.retfImm16 4 .s32 .s64).record.stackAddressSize = .s64 := by
  decide +kernel

theorem witness_FarReturnRealV86UsesNoDescriptor :
    v86.realOrV86 = true ∧ real.realOrV86 = true ∧
      (∃ t, exec (.retf .s16 .s16) (stack v86 0xFFF0 2 [0xFFFF, 0x3000]) = .next t ∧ (t.cs.sel = 0x3000 : Bool) = true) ∧
      exec (.retf .s16 .s16) { real with rsp := 0xFFFE } = .fault (ss 0) ∧
      exec (.retf .s64 .s16) real = .refused .operandSize :=
  ⟨by decide +kernel, by decide +kernel, of_nexts (p := fun t => t.cs.sel = 0x3000) (by decide +kernel),
    of_faults (by decide +kernel), of_refuses (by decide +kernel)⟩

/-- P1, P1i, P8, P10b, P15 and P17. -/
theorem witness_FarReturnProtectedSameLevelCompletes :
    protectedSameReady (Instr.retf .s32 .s32).record (stack p32 0x8FF0 4 [0x1234, 8]) = true ∧
      protectedSameReady (Instr.retfImm16 4 .s32 .s32).record (stack p32 0x8FF0 4 [0x1234, 8]) = true ∧
      protectedSameReady (Instr.retf .s32 .s32).record (stack p32r3 0x8FF0 4 [0x1234, 0x53]) = true ∧
      protectedSameReady (Instr.retf .s32 .s32).record (stack p32 0x8FF0 4 [0x7FFF, 0x38]) = true ∧
      protectedSameReady (Instr.retf .s16 .s32).record (stack p32 0x8FF0 2 [0x1234, 8]) = true ∧
      protectedSameReady (Instr.retf .s32 .s32).record (stack p32r3 0x8FF0 4 [0x1234, 0x5B]) = true := by decide +kernel

/-- O1, O2, O3, O9 and O11. -/
theorem witness_FarReturnProtectedOuterLevelCompletes :
    protectedOuterReady (Instr.retf .s32 .s32).record (stack p32o 0x8FF0 4 [0x401000, 0x1B, 0x12FFE0, 0x23]) = true ∧
      protectedOuterReady (Instr.retfImm16 8 .s32 .s32).record
        (stack p32o 0x8FF0 4 [0x401000, 0x1B, 0xAAAAAAAA, 0xBBBBBBBB, 0x12FFE0, 0x23]) = true ∧
      protectedOuterReady (Instr.retf .s16 .s32).record (stack p32o 0x8FF0 2 [0x1000, 0x1B, 0xFFE0, 0x43]) = true ∧
      protectedOuterReady (Instr.retf .s32 .s32).record (stack p32o 0x8FF0 4 [0x401000, 0x5B, 0x12FFE0, 0x23]) = true ∧
      protectedOuterReady (Instr.retf .s32 .s32).record (stack p32o 0x8FF0 4 [0x401000, 0x89, 0x12FFE0, 0x99]) = true := by
  decide +kernel

/-- The premises that the statements on the protected-mode checks share. -/
def protectedEntry (i : Instr) (s : State) : Bool :=
  i.record.kind = .far && s.params.launchable && s.protectedMode && sizesBelow64 i.record

/-- P13: the second item begins just above the limit. -/
theorem witness_FarReturnProtectedChecksSecondItem :
    let s := limitSs { p32 with rsp := 0xFFFC } 0xFFFF
    protectedEntry (.retf .s32 .s32) s = true ∧ stackOutside (ctxOf (Instr.retf .s32 .s32).record s) s 4 4 = true := by
  decide +kernel

/-- A far return of 32 bits with these items on the stack meets the premises of the checks of the code selector. -/
def protectedCode (s : State) (vs : List Nat) : Bool :=
  let t := stack s 0x8FF0 4 vs
  protectedEntry (.retf .s32 .s32) t && stackReadable (ctxOf (Instr.retf .s32 .s32).record t) t 4 4

/-- P3, P4, a table not admitted, P5, P6, P8b, P7b, P9 and P1: one state for each branch. -/
theorem witness_FarReturnProtectedChecksCodeSelector :
    let run := fun s vs => exec (.retf .s32 .s32) (stack s 0x8FF0 4 vs)
    (protectedCode p32 [0x1234, 3] = true ∧ faults (run p32 [0x1234, 3]) (gp 0) = true) ∧
      (protectedCode p32 [0x1234, 0xA0] = true ∧ faults (run p32 [0x1234, 0xA0]) (gp 0xA0) = true) ∧
      (protectedCode (deny p32 .tableRead 8 0x1008) [0x1234, 8] = true ∧
        refuses (run (deny p32 .tableRead 8 0x1008) [0x1234, 8]) .memory = true) ∧
      (protectedCode p32 [0x1234, 0x10] = true ∧ faults (run p32 [0x1234, 0x10]) (gp 0x10) = true) ∧
      (protectedCode p32r3 [0x1234, 8] = true ∧ faults (run p32r3 [0x1234, 8]) (gp 8) = true) ∧
      (protectedCode p32 [0x1234, 0x78] = true ∧ faults (run p32 [0x1234, 0x78]) (gp 0x78) = true) ∧
      (protectedCode p32 [0x1234, 9] = true ∧ faults (run p32 [0x1234, 9]) (gp 8) = true) ∧
      (protectedCode p32 [0x1234, 0x48] = true ∧ faults (run p32 [0x1234, 0x48]) (np 0x48) = true) ∧
      protectedCode p32 [0x1234, 8] = true ∧ nexts (run p32 [0x1234, 8]) (fun _ => true) = true := by decide +kernel

/-- A far return of 32 bits with these items meets the premises of the checks of the outer stack. -/
def protectedOuter' (s : State) (vs : List Nat) : Bool :=
  let t := stack s 0x8FF0 4 vs
  let r := (Instr.retf .s32 .s32).record
  protectedCode s vs && protectedCodeOk t (returnCs r t) && t.cpl < rpl (returnCs r t)

/-- The same with all four items readable. -/
def protectedSs (s : State) (cs ss : Nat) : Bool :=
  let vs := [0x401000, cs, 0x12FFE0, ss]
  let t := stack s 0x8FF0 4 vs
  let c := ctxOf (Instr.retf .s32 .s32).record t
  protectedOuter' s vs && stackWithin c t 0 16 && stackReadable c t 12 4

/-- O7, O4, O10, a table not admitted, O5a, O5b, O5c, O6 and O1: one state for each branch. -/
theorem witness_FarReturnProtectedChecksOuterStack :
    let run := fun s cs ss => exec (.retf .s32 .s32) (stack s 0x8FF0 4 [0x401000, cs, 0x12FFE0, ss])
    (protectedOuter' (limitSs p32o 0x8FFB) [0x401000, 0x1B, 0x12FFE0, 0x23] = true ∧
        faults (run (limitSs p32o 0x8FFB) 0x1B 0x23) (ss 0) = true) ∧
      (protectedSs p32o 0x1B 0 = true ∧ faults (run p32o 0x1B 0) (gp 0) = true) ∧
      (protectedSs p32o 0x1B 0xA3 = true ∧ faults (run p32o 0x1B 0xA3) (gp 0xA0) = true) ∧
      (protectedSs (deny p32o .tableRead 8 0x1020) 0x1B 0x23 = true ∧
        refuses (run (deny p32o .tableRead 8 0x1020) 0x1B 0x23) .memory = true) ∧
      (protectedSs p32o 0x1B 0x20 = true ∧ faults (run p32o 0x1B 0x20) (gp 0x20) = true) ∧
      (protectedSs p32o 0x1B 0x13 = true ∧ faults (run p32o 0x1B 0x13) (gp 0x10) = true) ∧
      (protectedSs p32o 0x1B 0x1B = true ∧ faults (run p32o 0x1B 0x1B) (gp 0x18) = true) ∧
      (protectedSs p32o 0x1B 0x6B = true ∧ faults (run p32o 0x1B 0x6B) (ss 0x68) = true) ∧
      protectedSs p32o 0x1B 0x23 = true ∧ nexts (run p32o 0x1B 0x23) (fun _ => true) = true := by decide +kernel

/-- P10 at the same level and O8 at an outer one. -/
theorem witness_FarReturnProtectedChecksTarget :
    let i := Instr.retf .s32 .s32
    let same := stack p32 0x8FF0 4 [0x8000, 0x38]
    let outer := stack p32o 0x8FF0 4 [0x8000, 0x83, 0x12FFE0, 0x23]
    let base := fun s => protectedEntry i s && stackReadable (ctxOf i.record s) s 0 4 && stackReadable (ctxOf i.record s) s 4 4 &&
      protectedCodeOk s (returnCs i.record s) && !withinDescLimit s (descAt s (returnCs i.record s)) (returnIp i.record s)
    (base same = true ∧ rpl (returnCs i.record same) = same.cpl) ∧
      base outer = true ∧ outer.cpl < rpl (returnCs i.record outer) ∧ stackWithin (ctxOf i.record outer) outer 0 16 = true ∧
      stackReadable (ctxOf i.record outer) outer 12 4 = true ∧
      protectedStackOk outer (returnCs i.record outer) (returnSs i.record outer) = true := by decide +kernel

/-- E1, E1i, E2, E4b and E11. -/
theorem witness_FarReturnIa32eSameLevelCompletes :
    ia32eSameReady (Instr.retf .s64 .s64).record (stack l64 0x9000 8 [0xFFFFFFFF80001000, 0x28]) = true ∧
      ia32eSameReady (Instr.retfImm16 0x18 .s64 .s64).record (stack l64 0x9000 8 [0xFFFFFFFF80001000, 0x28]) = true ∧
      ia32eSameReady (Instr.retf .s32 .s64).record (stack l64 0x9000 4 [0x1000, 8]) = true ∧
      ia32eSameReady (Instr.retf .s64 .s64).record (stack l64 0x9000 8 [0x00007FFFFFFFFFFF, 0x90]) = true ∧
      ia32eSameReady (Instr.retf .s16 .s64).record (stack l64 0x9000 2 [0x1000, 0x38]) = true := by decide +kernel

/-- E5, E5i, E8 and E13. -/
theorem witness_FarReturnIa32eOuterLevelCompletes :
    ia32eOuterReady (Instr.retf .s64 .s64).record (stack (data0 l64) 0x9000 8 [0x401000, 0x33, 0x00007FFFFFFFE000, 0x23]) = true ∧
      ia32eOuterReady (Instr.retfImm16 0x10 .s64 .s64).record
        (stack (data0 l64) 0x9000 8 [0x401000, 0x33, 0x1111, 0x2222, 0x00007FFFFFFFE000, 0x23]) = true ∧
      ia32eOuterReady (Instr.retf .s32 .s32).record (stack (data0 compat) 0x8FF0 4 [0x401000, 0x33, 0x12FFE0, 0x23]) = true ∧
      ia32eOuterReady (Instr.retf .s32 .s64).record (stack (data0 l64) 0x9000 4 [0x1000, 0x1B, 0x12FFE0, 0x23]) = true := by
  decide +kernel

/-- E6b under `load-null`. -/
theorem witness_FarReturnIa32eNullStackSelectorCompletes :
    let s := stack (loadNull (data0 l64)) 0x9000 8 [0x401000, 0x89, 0x00007FFFFFFFE000, 1]
    ia32eNullReady (Instr.retf .s64 .s64).record s = true ∧
      ia32eNullReady (Instr.retfImm16 8 .s64 .s64).record
        (stack (loadNull (data0 l64)) 0x9000 8 [0x401000, 0x89, 0x1111, 0x00007FFFFFFFE000, 1]) = true ∧
      nexts (exec (.retf .s64 .s64) s) (fun t => t.cpl = 1 && t.ss.sel = 1 && !t.ss.hid.valid && t.rsp = 0x00007FFFFFFFE000) =
        true := by decide +kernel

/-- The premises that the statements on the IA-32e checks share. -/
def ia32eEntry (i : Instr) (s : State) : Bool := i.record.kind = .far && s.params.launchable && s.ia32e

/-- Sixteen implemented address bits, so that a compatibility-mode stack can leave the canonical addresses. -/
def few (s : State) : State := { s with params := { s.params with vaBits := 16 } }

/-- A second item outside the limits, E9, and a first item just below the canonical addresses of the upper half. -/
theorem witness_FarReturnIa32eChecksFirstItems :
    let i := Instr.retf .s32 .s32
    let out := limitSs { compat with rsp := 0xFFFC } 0xFFFF
    let edge : State := { l64 with rsp := 0x00007FFFFFFFFFF8 }
    let low : State := { l64 with rsp := 0xFFFF7FFFFFFFFFFC }
    (ia32eEntry i out = true ∧ stackOutside (ctxOf i.record out) out 4 4 = true ∧ faults (exec i out) (ss 0) = true) ∧
      (ia32eEntry (.retf .s64 .s64) edge = true ∧
        canonItem (ctxOf (Instr.retf .s64 .s64).record edge) edge 8 8 = false ∧
        faults (exec (.retf .s64 .s64) edge) (ss 0) = true) ∧
      ia32eEntry (.retf .s32 .s64) low = true ∧ stackWithin (ctxOf (Instr.retf .s32 .s64).record low) low 4 4 = true ∧
      canonItem (ctxOf (Instr.retf .s32 .s64).record low) low 0 4 = false ∧
      faults (exec (.retf .s32 .s64) low) (ss 0) = true := by decide +kernel

/-- A far return of 64 bits with these items meets the premises of the checks of the code selector. -/
def ia32eCode (s : State) (vs : List Nat) : Bool :=
  let t := stack s 0x9000 8 vs
  let c := ctxOf (Instr.retf .s64 .s64).record t
  ia32eEntry (.retf .s64 .s64) t && canonItem c t 0 8 && canonItem c t 8 8 && stackReadable c t 8 8

def l64r3 : State := { l64 with cpl := 3, cs := seg 0x33 6, ss := seg 0x23 4 }

/-- `L64` with its table just below the end of the lower canonical addresses (E10). -/
def edgeTable (base : Word) : State := { l64 with gdtr := ⟨base, 0x9F⟩ }

/-- A NULL selector, one beyond the table, E10, a table not admitted, a data segment, E3, an inner level, a conforming
segment of an outer level, a level other than the selector's, a segment not present, and E1: one state for each branch. -/
theorem witness_FarReturnIa32eChecksCodeSelector :
    let run := fun s cs => exec (.retf .s64 .s64) (stack s 0x9000 8 [0x401000, cs])
    let ok := fun s cs => ia32eCode s [0x401000, cs]
    (ok l64 3 = true ∧ faults (run l64 3) (gp 0) = true) ∧
      (ok l64 0xA3 = true ∧ faults (run l64 0xA3) (gp 0xA0) = true) ∧
      (ok (edgeTable 0x00007FFFFFFFFFD8) 0x28 = true ∧ faults (run (edgeTable 0x00007FFFFFFFFFD8) 0x28) (gp 0x28) = true) ∧
      (ok (deny l64 .tableRead 8 0x1028) 0x28 = true ∧ refuses (run (deny l64 .tableRead 8 0x1028) 0x28) .memory = true) ∧
      (ok l64 0x10 = true ∧ faults (run l64 0x10) (gp 0x10) = true) ∧
      (ok l64 0x60 = true ∧ faults (run l64 0x60) (gp 0x60) = true) ∧
      (ok l64r3 0x28 = true ∧ faults (run l64r3 0x28) (gp 0x28) = true) ∧
      (ok l64 0x78 = true ∧ faults (run l64 0x78) (gp 0x78) = true) ∧
      (ok l64 0x29 = true ∧ faults (run l64 0x29) (gp 0x28) = true) ∧
      (ok l64 0x48 = true ∧ faults (run l64 0x48) (np 0x48) = true) ∧
      ok l64 0x28 = true ∧ nexts (run l64 0x28) (fun _ => true) = true := by decide +kernel

/-- The premises of the checks of the outer stack. -/
def ia32eOuter' (i : Instr) (s : State) : Bool :=
  let c := ctxOf i.record s
  let n := i.record.operandSize.bytes
  ia32eEntry i s && canonItem c s 0 n && canonItem c s n n && stackReadable c s n n && ia32eCodeOk s (returnCs i.record s) &&
    s.cpl < rpl (returnCs i.record s)

/-- A stack beyond the limit, E16, and a compatibility-mode stack that leaves the canonical addresses. -/
theorem witness_FarReturnIa32eChecksOuterStackSize :
    let i := Instr.retf .s32 .s32
    let out := stack (limitSs compat 0x8FFE) 0x8FF0 4 [0x401000, 0x33]
    let edge := stack l64 0x00007FFFFFFFFFE8 8 [0x401000, 0x33]
    let low := stack (few compat) 0x7FF8 4 [0x401000, 0x33]
    (ia32eOuter' i out = true ∧ stackOutside (ctxOf i.record out) out 0 16 = true ∧ faults (exec i out) (ss 0) = true) ∧
      (ia32eOuter' (.retf .s64 .s64) edge = true ∧
        canonItem (ctxOf (Instr.retf .s64 .s64).record edge) edge 0 32 = false ∧
        faults (exec (.retf .s64 .s64) edge) (ss 0) = true) ∧
      ia32eOuter' i low = true ∧ stackWithin (ctxOf i.record low) low 0 16 = true ∧
      canonItem (ctxOf i.record low) low 0 16 = false ∧ faults (exec i low) (ss 0) = true := by decide +kernel

/-- A far return of 64 bits with these selectors meets the premises of the checks of the stack selector. -/
def ia32eSs (s : State) (cs ss : Nat) : Bool :=
  let t := stack s 0x9000 8 [0x401000, cs, 0x00007FFFFFFFE000, ss]
  let c := ctxOf (Instr.retf .s64 .s64).record t
  ia32eOuter' (.retf .s64 .s64) t && canonItem c t 0 32 && stackReadable c t 24 8

/-- A table whose entry 6 is the last at canonical addresses. -/
def edgeTable6 : State := { edgeTable 0x00007FFFFFFFFFC8 with mem := [] }

/-- `edgeTable6` with a stack, and entry 6 of `T` in its place. -/
def edge6 (ss : Nat) : State :=
  let s := stack edgeTable6 0x9000 8 [0x401000, 0x33, 0x00007FFFFFFFE000, ss]
  { s with mem := s.mem ++ cells 0x00007FFFFFFFFFF8 (items 8 [0x00AFFB000000FFFF]) }

/-- E7, E6a, E6b under each policy, E6d, a selector beyond the table, a descriptor at no canonical address, a table not
admitted, a level, a type and a descriptor level that do not fit, E15 and E5: one state for each branch. -/
theorem witness_FarReturnIa32eChecksStackSelector :
    let run := fun s cs ss => exec (.retf .s64 .s64) (stack s 0x9000 8 [0x401000, cs, 0x00007FFFFFFFE000, ss])
    (ia32eSs l64 0x1B 0 = true ∧ faults (run l64 0x1B 0) (gp 0) = true) ∧
      (ia32eSs l64 0x33 3 = true ∧ faults (run l64 0x33 3) (gp 0) = true) ∧
      (ia32eSs l64 0x89 1 = true ∧ refuses (run l64 0x89 1) .nullStackSelector = true) ∧
      (ia32eSs (loadNull l64) 0x33 0 = true ∧ faults (run (loadNull l64) 0x33 0) (gp 0) = true) ∧
      (ia32eSs (loadNull l64) 0x89 1 = true ∧ nexts (run (loadNull l64) 0x89 1) (fun _ => true) = true) ∧
      (ia32eSs l64 0x33 0xA3 = true ∧ faults (run l64 0x33 0xA3) (gp 0xA0) = true) ∧
      (ia32eOuter' (.retf .s64 .s64) (edge6 0x3B) = true ∧
        canonItem (ctxOf (Instr.retf .s64 .s64).record (edge6 0x3B)) (edge6 0x3B) 0 32 = true ∧
        stackReadable (ctxOf (Instr.retf .s64 .s64).record (edge6 0x3B)) (edge6 0x3B) 24 8 = true ∧
        faults (exec (.retf .s64 .s64) (edge6 0x3B)) (gp 0x38) = true) ∧
      (ia32eSs (deny l64 .tableRead 8 0x1020) 0x33 0x23 = true ∧
        refuses (run (deny l64 .tableRead 8 0x1020) 0x33 0x23) .memory = true) ∧
      (ia32eSs l64 0x33 0x20 = true ∧ faults (run l64 0x33 0x20) (gp 0x20) = true) ∧
      (ia32eSs l64 0x33 0x1B = true ∧ faults (run l64 0x33 0x1B) (gp 0x18) = true) ∧
      (ia32eSs l64 0x33 0x13 = true ∧ faults (run l64 0x33 0x13) (gp 0x10) = true) ∧
      (ia32eSs l64 0x33 0x6B = true ∧ faults (run l64 0x33 0x6B) (ss 0x68) = true) ∧
      ia32eSs l64 0x33 0x23 = true ∧ nexts (run l64 0x33 0x23) (fun _ => true) = true := by decide +kernel

/-- E4 and E12 at the same level, a target outside the canonical addresses and one beyond the limit at an outer one, and the
first again with a NULL stack selector. -/
theorem witness_FarReturnIa32eChecksTarget :
    let base := fun (i : Instr) s =>
      let c := ctxOf i.record s
      let n := i.record.operandSize.bytes
      ia32eEntry i s && canonItem c s 0 n && canonItem c s n n && stackReadable c s 0 n && stackReadable c s n n &&
        ia32eCodeOk s (returnCs i.record s)
    let stackOk := fun (i : Instr) s =>
      let c := ctxOf i.record s
      let n := i.record.operandSize.bytes
      s.cpl < rpl (returnCs i.record s) && (i.record.operandSize = .s64 || stackWithin c s 0 (4 * n)) && canonItem c s 0 (4 * n) &&
        stackReadable c s (3 * n) n
    let i64 := Instr.retf .s64 .s64
    let i32 := Instr.retf .s32 .s32
    let e4 := stack l64 0x9000 8 [0x0000800000000000, 0x28]
    let e12 := stack compat 0x8FF0 4 [0x8000, 0x38]
    let far := stack l64 0x9000 8 [0x0000800000000000, 0x33, 0x00007FFFFFFFE000, 0x23]
    let beyond := stack compat 0x8FF0 4 [0x8000, 0x83, 0x12FFE0, 0x23]
    let null := stack (loadNull l64) 0x9000 8 [0x0000800000000000, 0x89, 0x00007FFFFFFFE000, 1]
    (base i64 e4 = true ∧ canonical e4 (returnIp i64.record e4) = false ∧ rpl (returnCs i64.record e4) = e4.cpl) ∧
      (base i32 e12 = true ∧ withinDescLimit e12 (descAt e12 0x38) (returnIp i32.record e12) = false ∧
        returnCs i32.record e12 = 0x38 ∧ rpl (0x38 : Selector) = e12.cpl) ∧
      (base i64 far = true ∧ canonical far (returnIp i64.record far) = false ∧ stackOk i64 far = true ∧
        ia32eStackOk far (returnCs i64.record far) (returnSs i64.record far) = true) ∧
      (base i32 beyond = true ∧ withinDescLimit beyond (descAt beyond 0x83) (returnIp i32.record beyond) = false ∧
        returnCs i32.record beyond = 0x83 ∧ stackOk i32 beyond = true ∧
        ia32eStackOk beyond 0x83 (returnSs i32.record beyond) = true) ∧
      base i64 null = true ∧ canonical null (returnIp i64.record null) = false ∧ stackOk i64 null = true ∧
      nullStackOk null (returnCs i64.record null) (returnSs i64.record null) = true := by decide +kernel

/-- The outer-level return of O1, placed in memory for the fetch. -/
def outerStep : State := code (stack p32o 0x8FF0 4 [0x401000, 0x1B, 0x12FFE0, 0x23]) 0x10000 [0xCB]

theorem witness_StepKeepsInvariant : Inv outerStep ∧ ∃ t, step outerStep = .next t ∧ (t.cpl = 3 : Bool) = true :=
  ⟨⟨by decide +kernel, by unfold CplMatchesCs; decide +kernel, by unfold DataSegsGuarded; decide +kernel⟩,
    of_nexts (p := fun t => t.cpl = 3) (by decide +kernel)⟩

/-- A near return, a far return at the same level, and O1. -/
theorem witness_ReturnFrame :
    (∃ t, exec (.ret .s32 .s32) (stack p32 0xFFF0 4 [0x1000]) = .next t ∧ true = true) ∧
      (∃ t, exec (.retf .s32 .s32) (stack p32 0x8FF0 4 [0x1234, 8]) = .next t ∧ (t.cpl = p32.cpl : Bool) = true) ∧
      ∃ t, exec (.retf .s32 .s32) outerStep = .next t ∧ (t.cpl = 3 : Bool) = true :=
  ⟨of_nexts (p := fun _ => true) (by decide +kernel), of_nexts (p := fun t => t.cpl = p32.cpl) (by decide +kernel),
    of_nexts (p := fun t => t.cpl = 3) (by decide +kernel)⟩

/-- O9 with the accessed bit of entry 4 clear as well: both descriptors are written. -/
def unmarked : State :=
  { stack p32o 0x8FF0 4 [0x401000, 0x5B, 0x12FFE0, 0x23] with
    mem := (stack p32o 0x8FF0 4 [0x401000, 0x5B, 0x12FFE0, 0x23]).mem.write 0x1025 0xF2 }

theorem witness_OnlyAccessedBitsAreWritten :
    unmarked.mem.wf = true ∧ ∃ t, exec (.retf .s32 .s32) unmarked = .next t ∧
      (t.mem.read 0x105D = 0xFB && t.mem.read 0x1025 = 0xF3 && unmarked.mem.read 0x105D = 0xFA &&
        unmarked.mem.read 0x1025 = 0xF2 : Bool) = true :=
  ⟨by decide +kernel, of_nexts (p := fun t => t.mem.read 0x105D = 0xFB && t.mem.read 0x1025 = 0xF3 &&
    unmarked.mem.read 0x105D = 0xFA && unmarked.mem.read 0x1025 = 0xF2) (by decide +kernel)⟩

theorem witness_NoReturnGainsPrivilege :
    ∃ t, exec (.retf .s32 .s32) outerStep = .next t ∧ (t.cpl ≠ outerStep.cpl : Bool) = true :=
  of_nexts (p := fun t => t.cpl ≠ outerStep.cpl) (by decide +kernel)

/-- O1: `DS` is taken away, `ES` is kept. -/
theorem witness_OuterReturnInvalidatesDataSegments :
    ∃ t, exec (.retf .s32 .s32) outerStep = .next t ∧
      (t.cpl ≠ outerStep.cpl && t.ds ≠ outerStep.ds && t.es = outerStep.es : Bool) = true :=
  of_nexts (p := fun t => t.cpl ≠ outerStep.cpl && t.ds ≠ outerStep.ds && t.es = outerStep.es) (by decide +kernel)

/-- E2 and E8: the sub-mode changes either way. -/
theorem witness_FarReturnKeepsModeClass :
    (∃ t, exec (.retf .s32 .s64) (stack l64 0x9000 4 [0x1000, 8]) = .next t ∧ (!t.mode64 : Bool) = true) ∧
      compat.ia32e = true ∧ l64.ia32e = true ∧
      ∃ t, exec (.retf .s32 .s32) (stack (data0 compat) 0x8FF0 4 [0x401000, 0x33, 0x12FFE0, 0x23]) = .next t ∧
        (t.mode64 : Bool) = true :=
  ⟨of_nexts (p := fun t => !t.mode64) (by decide +kernel), by decide +kernel, by decide +kernel,
    of_nexts (p := fun t => t.mode64) (by decide +kernel)⟩

theorem witness_FaultsAreExceptionsWithErrorCodes :
    exec (.retf .s32 .s32) (stack p32 0x8FF0 4 [0x1234, 0xA3]) = .fault (gp 0xA0) := of_faults (by decide +kernel)

/-- P9. -/
theorem witness_NotPresentFaultHasOneCause :
    exec (.retf .s32 .s32) (stack p32 0x8FF0 4 [0x1234, 0x48]) = .fault (.exception .np 0x48) :=
  of_faults (by decide +kernel)

/-- The three outcomes, the first with a value drawn. -/
theorem witness_DrawsReachOnlyTheStackPointer :
    (∃ t, exec (.ret .s32 .s32) { stack p32 0xFFF0 4 [0x1000] with params := .default } = .next t ∧
        (t.draws = 1 : Bool) = true) ∧
      exec (.ret .s16 .s16) { real with rsp := 0xFFFF } = .fault (ss 0) ∧
      exec (.ret .s16 .s16) { wideSs with rsp := 0xFFFF } = .refused .stackWrap :=
  ⟨of_nexts (p := fun t => t.draws = 1) (by decide +kernel), of_faults (by decide +kernel), of_refuses (by decide +kernel)⟩

theorem witness_WriteStackPointer : real.params.upperSp = .zero := by decide

theorem witness_CanonicalAddresses :
    1 ≤ p32.params.vaBits ∧ p32.params.vaBits ≤ 64 ∧ p32.params.vaBits = 48 ∧ 33 ≤ p32.params.vaBits ∧
      canonical p32 0x00007FFFFFFFFFFF = true ∧ canonical p32 0x0000800000000000 = false ∧
      canonical p32 0xFFFF7FFFFFFFFFFF = false ∧ canonical p32 0xFFFF800000000000 = true := by decide +kernel

/-- The greatest NULL selector. -/
theorem witness_ErrorCodes : isNull 3 = true ∧ isNull 4 = false := by decide

/-- NR16. -/
theorem witness_StackLimits :
    withinStackLimits ⟨false, .s16⟩ { wideSs with rsp := 0xFFFF } 0 2 = .error (.refused .stackWrap) ∧ 1 ≤ 2 := by
  decide +kernel

/-- NR1 and NR5. -/
theorem witness_StackReadsAndPops :
    stackRead ⟨false, .s32⟩ (stack p32 0xFFF0 4 [0x12345678]) 0 4 = .ok 0x12345678 ∧
      pop ⟨false, .s32⟩ (stack p32 0xFFF0 4 [0x12345678]) 4 =
        .ok (0x12345678, { stack p32 0xFFF0 4 [0x12345678] with rsp := 0xFFF4 }) ∧
      stackRead ⟨false, .s16⟩ { real with rsp := 0xFFFF } 0 2 = .error (.fault (ss 0)) := by decide +kernel

/-- Both ends of the address space, and a memory that reads like the written one. -/
theorem witness_MemoryReadAfterWrite :
    table.wf = true ∧ 0 < 2 ^ 64 ∧ 2 ^ 64 - 1 < 2 ^ 64 ∧ (table.write 0 0).wf = true ∧
      (table.write (2 ^ 64 - 1) 5).read (2 ^ 64 - 1) = 5 := by decide +kernel

theorem witness_MemoryReadsAreLittleEndian :
    (0xFFFFFFF8 : Word).toNat + 8 ≤ (if p32.ia32e then 2 ^ 64 else 2 ^ 32) ∧
      (0xFFFFFFFFFFFFFFF8 : Word).toNat + 8 ≤ (if l64.ia32e then 2 ^ 64 else 2 ^ 32) := by decide +kernel

/-- A descriptor to write, one written already, and a launch that writes none. -/
theorem witness_SetAccessedWritesOneBit :
    p32.mem.wf = true ∧ accessedAdmitted p32 0x5B = true ∧ (memValue p32 (descAddr p32 0x5B) 8).getLsbD 40 = false ∧
      accessedAdmitted p32 0x1B = true ∧ (memValue p32 (descAddr p32 0x1B) 8).getLsbD 40 = true ∧
      accessedAdmitted { p32 with params := { fixed with setAccessed := false } } 0x5B = true := by decide +kernel

end Sys2Proof.Tests
end

/-! The writes of the stack pointer in numbers (rules R9, R14, R81). -/

namespace Sys2Proof.Machine

/-- Bit vectors with the same low `n` bits are congruent modulo `2 ^ n`. -/
theorem toNat_mod_of_low_eq {n : Nat} {a b : Word} (h : a.extractLsb' 0 n = b.extractLsb' 0 n) :
    a.toNat % 2 ^ n = b.toNat % 2 ^ n := by
  simpa using congrArg BitVec.toNat h

/-- The bits 63:16 are the quotient by `2 ^ 16`. -/
theorem toNat_extractLsb'_high48 (a : Word) : (a.extractLsb' 16 48).toNat = a.toNat / 2 ^ 16 := by
  rw [BitVec.extractLsb'_toNat, Nat.shiftRight_eq_div_pow]
  have := a.isLt
  omega

theorem toNat_lt_of_high32_eq_zero {a : Word} (h : a.extractLsb' 32 32 = 0) : a.toNat < 2 ^ 32 := by
  have h' := congrArg BitVec.toNat h
  rw [BitVec.extractLsb'_toNat, Nat.shiftRight_eq_div_pow] at h'
  have := a.isLt
  simp at h'
  omega

/-- A write of the stack pointer takes the low bits of the value. -/
theorem writeSp_toNat_mod (m : Bool) (w : Size) (v : Word) (s : State) :
    (writeSp m w v s).rsp.toNat % 2 ^ w.bits = v.toNat % 2 ^ w.bits := by
  have h := writeSp_wrote m w v s
  cases w
  case s16 => exact toNat_mod_of_low_eq h.1
  case s32 => exact toNat_mod_of_low_eq h.1
  case s64 => rfl

/-- A release adds `SRC` to the bits of the width it is made at, modulo the width. -/
theorem release_toNat_mod (m : Bool) (w : Size) (src : BitVec 16) (s : State) :
    (release m w src s).rsp.toNat % 2 ^ w.bits = (s.rsp.toNat + src.toNat) % 2 ^ w.bits := by
  have hw : 2 ^ w.bits ∣ 2 ^ 64 := Nat.pow_dvd_pow 2 (by cases w <;> decide)
  have hsrc : (src.setWidth 64).toNat = src.toNat := BitVec.toNat_setWidth_of_le (by decide)
  rw [release, writeSp_toNat_mod, BitVec.toNat_add, hsrc, Nat.mod_mod_of_dvd _ hw]

/-- A 16-bit write leaves bits 63:16. -/
theorem writeSp16_toNat_div (m : Bool) (v : Word) (s : State) :
    (writeSp m .s16 v s).rsp.toNat / 2 ^ 16 = s.rsp.toNat / 2 ^ 16 := by
  obtain ⟨-, hhigh⟩ := writeSp_wrote m .s16 v s
  rw [← toNat_extractLsb'_high48, ← toNat_extractLsb'_high48, hhigh]

/-- A 32-bit write leaves zero in bits 63:32 in 64-bit mode and under `UPPER_SP_POLICY = zero`. -/
theorem writeSp32_toNat_lt {m : Bool} (v : Word) {s : State} (hz : m = true ∨ s.params.upperSp = .zero) :
    (writeSp m .s32 v s).rsp.toNat < 2 ^ 32 := by
  obtain ⟨-, hupper⟩ := writeSp_wrote m .s32 v s
  exact toNat_lt_of_high32_eq_zero (hupper (by simpa using hz))

/-- A 64-bit release adds `SRC` to all of the stack pointer, modulo `2 ^ 64`. -/
theorem release64_toNat (m : Bool) (src : BitVec 16) (s : State) :
    (release m .s64 src s).rsp.toNat = (s.rsp.toNat + src.toNat) % 2 ^ 64 := by
  rw [← Nat.mod_eq_of_lt (release m .s64 src s).rsp.isLt]
  exact release_toNat_mod m .s64 src s

/-- Settles O45, from what a write leaves at each width (`writeSp_wrote`) read as numbers. -/
theorem writeStackPointer : Obligations.WriteStackPointer := fun mode64 s v src =>
  ⟨rfl, writeSp_toNat_mod mode64 .s32 v s, writeSp32_toNat_lt v, writeSp_toNat_mod mode64 .s16 v s,
    writeSp16_toNat_div mode64 v s, release_toNat_mod mode64 .s16 src s, release_toNat_mod mode64 .s32 src s,
    release64_toNat mode64 src s, fun w => writeSp_sameButSp s mode64 w v⟩

/-- The mask of rule R81 keeps all of `SRC`. -/
theorem releaseRealV86_eq (i : RetInstr) (s : State) : releaseRealV86 i s = releaseIf i.hasImm false .s16 i.src s := by
  rw [releaseRealV86, show (0xFFFF : BitVec 16) = BitVec.allOnes 16 by decide, BitVec.and_allOnes]

/-- Settles O46: with an immediate operand the release is a 16-bit write, and without one it does nothing. -/
theorem realReleaseWritesSpAlone : Obligations.RealReleaseWritesSpAlone := by
  intro i s
  rw [releaseRealV86_eq]
  cases i.hasImm
  case false => exact ⟨rfl, rfl, rfl⟩
  case true => exact ⟨rfl, writeSp16_toNat_div false _ s, release_toNat_mod false .s16 i.src s⟩

end Sys2Proof.Machine

/-! The free values of rule R12 reach only the stack pointer: two runs of one instruction, of which the drawn values may
differ, are alike. The relation `SameAtWidth` holds between their states at every stack access, because a drawn bit lies
above the width the stack is read at. The checks before the first pop read no count of draws, so that each is by `rfl` the
same in both runs (`Alike.bind_same`). -/

namespace Sys2Proof.Machine

open Sys2Proof.Safety

/-! ### Answers that are alike -/

/-- Two answers are alike: related values, or the same stop. -/
inductive Alike {α : Type} (R : α → α → Prop) : Res α → Res α → Prop
  | ok {a b : α} (h : R a b) : Alike R (.ok a) (.ok b)
  | error (p : Stop) : Alike R (.error p) (.error p)

section

variable {α β : Type} {R Q : α → α → Prop} {S : β → β → Prop} {q r : Res α} {f g : α → Res β}

theorem Alike.mono (h : Alike R q r) (hRQ : ∀ a b, R a b → Q a b) : Alike Q q r := by
  cases h with
  | ok h => exact .ok (hRQ _ _ h)
  | error p => exact .error p

/-- Sequences are alike when their parts are. -/
theorem Alike.bind (h : Alike R q r) (hfg : ∀ a b, R a b → Alike S (f a) (g b)) : Alike S (q >>= f) (r >>= g) := by
  cases h with
  | ok h => exact hfg _ _ h
  | error p => exact .error p

/-- Sequences that begin with one answer are alike when they go on alike. -/
theorem Alike.bind_same (h : r = q) (hfg : ∀ a, Alike S (f a) (g a)) : Alike S (q >>= f) (r >>= g) := by
  subst h
  cases r with
  | ok a => exact hfg a
  | error p => exact .error p

end

/-! ### States that are alike -/

/-- Two states differ in the stack pointer and the count of draws alone, and agree on the low `w` bits of the first. -/
structure SameAtWidth (w : Size) (s t : State) : Prop where
  sameButSp : SameButSp s t
  low : truncTo w t.rsp = truncTo w s.rsp

theorem sameAtWidth_draws (w : Size) (s : State) (k : Nat) : SameAtWidth w s { s with draws := k } := ⟨rfl, rfl⟩

/-- The form in which an update of another field is seen to keep the relation. -/
theorem SameButSp.exists_eq {s t : State} (h : SameButSp s t) : ∃ x k, t = { s with rsp := x, draws := k } :=
  ⟨_, _, h⟩

theorem SameButSp.symm {s t : State} (h : SameButSp s t) : SameButSp t s := by
  obtain ⟨x, k, rfl⟩ := h.exists_eq
  rfl

theorem SameButSp.sameStack {s t : State} (h : SameButSp s t) : SameStack s t := by
  obtain ⟨x, k, rfl⟩ := h.exists_eq
  constructor <;> rfl

theorem SameButSp.sameTables {s t : State} (h : SameButSp s t) : SameTables s t := by
  obtain ⟨x, k, rfl⟩ := h.exists_eq
  constructor <;> rfl

theorem SameButSp.setSeg {s t : State} (h : SameButSp s t) (r : SegName) (v : SegReg) :
    SameButSp (s.setSeg r v) (t.setSeg r v) := by
  obtain ⟨x, k, rfl⟩ := h.exists_eq
  cases r <;> rfl

theorem SameButSp.setMem {s t : State} (h : SameButSp s t) (m : Memory) :
    SameButSp { s with mem := m } { t with mem := m } := by
  obtain ⟨x, k, rfl⟩ := h.exists_eq
  rfl

theorem SameButSp.invalidateDataSegs {s t : State} (h : SameButSp s t) :
    SameButSp (invalidateDataSegs s) (invalidateDataSegs t) := by
  obtain ⟨x, k, rfl⟩ := h.exists_eq
  rfl

theorem SameAtWidth.setPc {w : Size} {s t : State} (h : SameAtWidth w s t) (v : Word) :
    SameAtWidth w { s with pc := v } { t with pc := v } := by
  obtain ⟨x, k, rfl⟩ := h.sameButSp.exists_eq
  exact ⟨rfl, h.low⟩

theorem SameAtWidth.setCpl {w : Size} {s t : State} (h : SameAtWidth w s t) (v : BitVec 2) :
    SameAtWidth w { s with cpl := v } { t with cpl := v } := by
  obtain ⟨x, k, rfl⟩ := h.sameButSp.exists_eq
  exact ⟨rfl, h.low⟩

theorem SameAtWidth.setCsRpl {w : Size} {s t : State} (h : SameAtWidth w s t) :
    SameAtWidth w (setCsRpl s) (setCsRpl t) := by
  obtain ⟨x, k, rfl⟩ := h.sameButSp.exists_eq
  exact ⟨rfl, h.low⟩

/-! ### Writes of the stack pointer -/

theorem SameButSp.of_writes {s t s' t' : State} (h : SameButSp s t) (hs : SameButSp s s') (ht : SameButSp t t') :
    SameButSp s' t' :=
  (hs.symm.trans h).trans ht

/-- Releases at any two widths reach the stack pointer alone. -/
theorem SameButSp.releaseIf {s t : State} (h : SameButSp s t) (b m : Bool) (w w' : Size) (src : BitVec 16) :
    SameButSp (releaseIf b m w src s) (releaseIf b m w' src t) :=
  h.of_writes (releaseIf_sameButSp ..) (releaseIf_sameButSp ..)

theorem SameButSp.loadSp {s t : State} (h : SameButSp s t) (m : Bool) (os : Size) (v : Word) :
    SameButSp (loadSp m os v s) (loadSp m os v t) :=
  h.of_writes (loadSp_sameButSp ..) (loadSp_sameButSp ..)

/-- Writes of values that agree at the width: the bits above it are drawn or kept, and those at it agree. -/
theorem SameAtWidth.writeSp {w : Size} {s t : State} (h : SameAtWidth w s t) (m : Bool) {x y : Word}
    (hxy : truncTo w y = truncTo w x) : SameAtWidth w (writeSp m w x s) (writeSp m w y t) where
  sameButSp := h.sameButSp.of_writes (writeSp_sameButSp ..) (writeSp_sameButSp ..)
  low := by rw [truncTo_writeSp, truncTo_writeSp, hxy]

/-- A release at the stack's width or at 64 bits keeps the agreement at the stack's width. -/
theorem SameAtWidth.releaseIf {w w' : Size} {s t : State} (h : SameAtWidth w s t) (hw : w' = w ∨ w' = .s64) (b m : Bool)
    (src : BitVec 16) : SameAtWidth w (releaseIf b m w' src s) (releaseIf b m w' src t) where
  sameButSp := h.sameButSp.releaseIf ..
  low := by
    cases b
    case false => exact h.low
    case true => rw [truncTo_releaseIf (by simp) hw, truncTo_releaseIf (by simp) hw, truncTo_add h.low]

/-! ### The stack -/

theorem SameAtWidth.stackOff {c : StackCtx} {s t : State} (h : SameAtWidth c.w s t) (k : Nat) :
    stackOff c t k = stackOff c s k :=
  truncTo_add h.low _

/-- A read of the stack gives the same value, or stops alike. -/
theorem SameAtWidth.stackRead {c : StackCtx} {s t : State} (h : SameAtWidth c.w s t) (k n : Nat) :
    stackRead c t k n = stackRead c s k n := by
  have hs := h.sameButSp.sameStack
  have ho := h.stackOff k
  unfold Machine.stackRead checkStack memRead
  rw [hs.withinStackLimits ho, hs.stackAddr ho, hs.memAdmit, hs.memValue]

theorem SameAtWidth.pop {c : StackCtx} {s t : State} (h : SameAtWidth c.w s t) (n : Nat) :
    Alike (fun p q => q.1 = p.1 ∧ SameAtWidth c.w p.2 q.2) (pop c s n) (pop c t n) :=
  .bind_same (h.stackRead 0 n) fun _ => .ok ⟨rfl, h.writeSp c.mode64 (truncTo_add h.low _)⟩

/-- The load of a segment register, as one equation. -/
theorem loadSegDesc_eq (r : SegName) (sel : Selector) (d : Descriptor) (s : State) :
    loadSegDesc r sel d s =
      if accessedAdmitted s sel then .ok { s.setSeg r ⟨sel, hiddenOf d⟩ with mem := accessedMem s sel }
      else refuse .memory := by
  split
  case isTrue hadm => exact loadSegDesc_eq_ok.mpr ⟨hadm, rfl⟩
  case isFalse hadm =>
    cases hr : loadSegDesc r sel d s with
    | ok t => exact absurd (loadSegDesc_eq_ok.mp hr).1 hadm
    | error p => rw [loadSegDesc_eq_error hr]; rfl

/-- The load of a segment register does not read the stack pointer, and leaves it. -/
theorem SameButSp.loadSegDesc {s t : State} (h : SameButSp s t) (r : SegName) (sel : Selector) (d : Descriptor) :
    Alike (fun a b => SameButSp a b ∧ a.rsp = s.rsp ∧ b.rsp = t.rsp) (loadSegDesc r sel d s)
      (loadSegDesc r sel d t) := by
  rw [loadSegDesc_eq, loadSegDesc_eq, h.sameTables.accessedAdmitted, h.sameTables.accessedMem]
  split
  · exact .ok ⟨(h.setSeg r _).setMem _, by simp, by simp⟩
  · exact .error _

theorem SameAtWidth.popCodeSegment {c : StackCtx} {s t : State} (h : SameAtWidth c.w s t) (n : Nat) (d : Descriptor) :
    Alike (SameAtWidth c.w) (popCodeSegment c n d s) (popCodeSegment c n d t) := by
  refine (h.pop n).bind ?_
  rintro ⟨_, s1⟩ ⟨ip, t1⟩ ⟨rfl, h1⟩
  refine ((h1.setPc ip).pop n).bind ?_
  rintro ⟨_, s3⟩ ⟨v, t3⟩ ⟨rfl, h3⟩
  refine (h3.sameButSp.loadSegDesc .cs (selectorOf v) d).mono ?_
  rintro a b ⟨hab, ha, hb⟩
  exact ⟨hab, by rw [ha, hb]; exact h3.low⟩

theorem SameAtWidth.popOuterStack {c : StackCtx} {s t : State} (h : SameAtWidth c.w s t) (n : Nat) :
    Alike (fun p q => q.1 = p.1 ∧ q.2.1 = p.2.1 ∧ SameAtWidth c.w p.2.2 q.2.2) (popOuterStack c n s)
      (popOuterStack c n t) := by
  refine (h.pop n).bind ?_
  rintro ⟨_, s1⟩ ⟨sp, t1⟩ ⟨rfl, h1⟩
  refine (h1.pop n).bind ?_
  rintro ⟨_, s2⟩ ⟨v, t2⟩ ⟨rfl, h2⟩
  exact .ok ⟨rfl, rfl, h2⟩

/-! ### The returns -/

/-- The pop of a near return tests and writes the same value in both runs. -/
theorem nearPop_alike (c : StackCtx) (os : Size) (s : State) (k : Nat) :
    Alike (SameAtWidth c.w) (nearPop c os s) (nearPop c os { s with draws := k }) := by
  have h := sameAtWidth_draws c.w s k
  cases os
  case s16 =>
    refine .bind_same rfl fun _ => (h.pop 2).bind ?_
    rintro ⟨_, s1⟩ ⟨ip, t1⟩ ⟨rfl, h1⟩
    exact .bind_same rfl fun _ => .ok (h1.setPc _)
  case s32 =>
    refine .bind_same rfl fun _ => (h.pop 4).bind ?_
    rintro ⟨_, s1⟩ ⟨ip, t1⟩ ⟨rfl, h1⟩
    exact .ok (h1.setPc _)
  case s64 =>
    refine .bind_same rfl fun _ => (h.pop 8).bind ?_
    rintro ⟨_, s1⟩ ⟨ip, t1⟩ ⟨rfl, h1⟩
    exact .ok (h1.setPc _)

theorem nearReturn_alike (i : RetInstr) (s : State) (k : Nat) :
    Alike SameButSp (nearReturn i s) (nearReturn i { s with draws := k }) :=
  (nearPop_alike (ctxOf i s) i.operandSize s k).bind fun _ _ h => .ok (h.releaseIf (.inl rfl) _ _ _).sameButSp

/-- The end of a far return in real-address or virtual-8086 mode: the load of `CS` and the release. -/
theorem SameButSp.releaseRealV86 {s t : State} (h : SameButSp s t) (i : RetInstr) (sel : Selector) :
    SameButSp (releaseRealV86 i (loadSegReal .cs sel s)) (releaseRealV86 i (loadSegReal .cs sel t)) := by
  have hcs : SameButSp (loadSegReal .cs sel s) (loadSegReal .cs sel t) := by
    obtain ⟨x, k, rfl⟩ := h.exists_eq
    rfl
  exact hcs.releaseIf ..

theorem farReturnRealV86_alike (i : RetInstr) (s : State) (k : Nat) :
    Alike SameButSp (farReturnRealV86 i s) (farReturnRealV86 i { s with draws := k }) := by
  have h := sameAtWidth_draws (ctxOf i s).w s k
  rcases i with ⟨kind, hasImm, src, os, as⟩
  refine .bind_same rfl fun _ => ?_
  cases os
  case s16 =>
    refine .bind_same rfl fun _ => (h.pop 2).bind ?_
    rintro ⟨_, s1⟩ ⟨ip, t1⟩ ⟨rfl, h1⟩
    refine .bind_same rfl fun _ => ((h1.setPc _).pop 2).bind ?_
    rintro ⟨_, s3⟩ ⟨v, t3⟩ ⟨rfl, h3⟩
    exact .ok (h3.sameButSp.releaseRealV86 _ _)
  case s32 =>
    refine .bind_same rfl fun _ => (h.pop 4).bind ?_
    rintro ⟨_, s1⟩ ⟨ip, t1⟩ ⟨rfl, h1⟩
    refine ((h1.setPc _).pop 4).bind ?_
    rintro ⟨_, s3⟩ ⟨v, t3⟩ ⟨rfl, h3⟩
    exact .ok (h3.sameButSp.releaseRealV86 _ _)
  case s64 => exact .error _

theorem SameButSp.loadSs {s t : State} (h : SameButSp s t) (sel : Selector) (ds : Option Descriptor) :
    Alike SameButSp (loadSs sel ds s) (loadSs sel ds t) := by
  cases ds with
  | none =>
    obtain ⟨x, k, rfl⟩ := h.exists_eq
    exact .ok (Eq.refl _)
  | some d => exact (h.loadSegDesc .ss sel d).mono fun _ _ hab => hab.1

theorem protectedSame_alike (c : StackCtx) (i : RetInstr) (d : Descriptor) (s : State) (k : Nat) :
    Alike SameButSp (protectedSame c i d s) (protectedSame c i d { s with draws := k }) :=
  .bind_same rfl fun _ => .bind_same rfl fun _ => ((sameAtWidth_draws c.w s k).popCodeSegment _ d).bind fun _ _ h =>
    .ok (h.releaseIf (.inl rfl) _ _ _).sameButSp

theorem protectedOuter_alike (c : StackCtx) (i : RetInstr) (retCS : Selector) (d : Descriptor) (s : State) (k : Nat) :
    Alike SameButSp (protectedOuter c i retCS d s) (protectedOuter c i retCS d { s with draws := k }) := by
  have h := (sameAtWidth_draws c.w s k).setCpl (rpl retCS)
  refine .bind_same rfl fun _ => .bind_same rfl fun retSS => .bind_same rfl fun ds => .bind_same rfl fun _ =>
    .bind_same rfl fun _ => (h.popCodeSegment _ d).bind fun s1 t1 h1 => ?_
  refine ((h1.setCsRpl.releaseIf (.inl rfl) _ _ _).popOuterStack _).bind ?_
  rintro ⟨_, _, s3⟩ ⟨sp, ss, t3⟩ ⟨rfl, rfl, h3⟩
  refine ((h3.sameButSp.loadSp c.mode64 i.operandSize sp).loadSs ss (some ds)).bind fun s4 t4 h4 => .ok ?_
  exact h4.invalidateDataSegs.releaseIf ..

theorem ia32eSame_alike (c : StackCtx) (i : RetInstr) (d : Descriptor) (s : State) (k : Nat) :
    Alike SameButSp (ia32eSame c i d s) (ia32eSame c i d { s with draws := k }) :=
  .bind_same rfl fun _ => ((sameAtWidth_draws c.w s k).popCodeSegment _ d).bind fun _ _ h =>
    .ok (h.releaseIf (.inl rfl) _ _ _).sameButSp

theorem ia32eOuter_alike (c : StackCtx) (i : RetInstr) (retCS : Selector) (d : Descriptor) (s : State) (k : Nat) :
    Alike SameButSp (ia32eOuter c i retCS d s) (ia32eOuter c i retCS d { s with draws := k }) := by
  have h := (sameAtWidth_draws c.w s k).setCpl (rpl retCS)
  refine .bind_same rfl fun _ => .bind_same rfl fun retSS => .bind_same rfl fun ds => .bind_same rfl fun _ =>
    (h.popCodeSegment _ d).bind fun s1 t1 h1 => ?_
  rw [ia32eFirstRelease_eq, ia32eFirstRelease_eq]
  refine ((h1.setCsRpl.releaseIf (firstWidth i _) _ _ _).popOuterStack _).bind ?_
  rintro ⟨_, _, s3⟩ ⟨sp, ss, t3⟩ ⟨rfl, rfl, h3⟩
  refine ((h3.sameButSp.loadSp c.mode64 i.operandSize sp).loadSs ss ds).bind fun s4 t4 h4 => .ok ?_
  exact h4.invalidateDataSegs.releaseIf ..

/-- The checks of rules R84 to R86 read no count, so both runs take the same branch. -/
theorem farReturnProtected_alike (i : RetInstr) (s : State) (k : Nat) :
    Alike SameButSp (farReturnProtected i s) (farReturnProtected i { s with draws := k }) := by
  refine .bind_same rfl fun _ => .bind_same rfl fun _ => .bind_same rfl fun retCS => .bind_same rfl fun d => ?_
  dsimp only
  split
  · exact protectedOuter_alike _ i retCS d s k
  · exact protectedSame_alike _ i d s k

/-- The checks of rules R97 and R98 read no count, so both runs take the same branch. -/
theorem farReturnIa32e_alike (i : RetInstr) (s : State) (k : Nat) :
    Alike SameButSp (farReturnIa32e i s) (farReturnIa32e i { s with draws := k }) := by
  refine .bind_same rfl fun _ => .bind_same rfl fun retCS => .bind_same rfl fun d => ?_
  dsimp only
  split
  · exact ia32eOuter_alike _ i retCS d s k
  · exact ia32eSame_alike _ i d s k

theorem farReturn_alike (i : RetInstr) (s : State) (k : Nat) :
    Alike SameButSp (farReturn i s) (farReturn i { s with draws := k }) := by
  rcases mode_cases s with hm | hm | hm
  · rw [farReturn_real hm, farReturn_real (s := { s with draws := k }) hm]
    exact farReturnRealV86_alike i s k
  · rw [farReturn_protected hm, farReturn_protected (s := { s with draws := k }) hm]
    exact farReturnProtected_alike i s k
  · rw [farReturn_ia32e hm, farReturn_ia32e (s := { s with draws := k }) hm]
    exact farReturnIa32e_alike i s k

/-- Every instruction is the operation of its record, and the two runs of it are alike. -/
theorem exec_alike (i : Instr) (s : State) (k : Nat) :
    ∃ r r', exec i s = perform s r ∧ exec i { s with draws := k } = perform s r' ∧ Alike SameButSp r r' := by
  cases hk : i.record.kind
  case near => exact ⟨_, _, exec_near hk, exec_near hk, nearReturn_alike i.record s k⟩
  case far => exact ⟨_, _, exec_far hk, exec_far hk, farReturn_alike i.record s k⟩

/-- A completed operation ends in its state, when the spec does not refuse the launch. -/
theorem perform_ok (s t : State) :
    perform s (.ok t) = if s.params.launchable then .next t else .refused .launchFeature := rfl

/-- Settles O44: the two runs of an instruction are alike (`exec_alike`), as `SameAtWidth` relates their states. -/
theorem drawsReachOnlyTheStackPointer : Obligations.DrawsReachOnlyTheStackPointer := by
  intro i s k
  obtain ⟨q, r, hq, hr, h⟩ := exec_alike i s k
  rw [hq, hr]
  cases h with
  | @ok a b hab =>
    cases hl : s.params.launchable <;> simp only [perform_ok, hl, if_true, Bool.false_eq_true, if_false]
    case false => simp
    case true =>
      refine ⟨fun t ht => ?_, by simp, by simp⟩
      obtain rfl := Host.Outcome.next.inj ht
      exact ⟨b, rfl, hab⟩
  | error p =>
    exact ⟨fun t ht => absurd (perform_eq_next.mp ht).2 (by simp), fun _ hstop => hstop, fun _ hstop => hstop⟩

end Sys2Proof.Machine

/-! The near return, and the far return that stays at its level: it completes wherever the claims' condition on the
state holds, and leaves what the inversion of its meaning says of every completion (rules R70 to R74, R80, R84 to R90). -/

namespace Sys2Proof.Machine

open Sys2Proof.Safety

/-- A near form completes where it is ready, and leaves what a near return leaves. -/
theorem exec_near_completes {i : Instr} {s : State} (hk : i.record.kind = .near) (h : nearReady i.record s = true) :
    ∃ t, exec i s = .next t ∧ NearReturned i.record s t := by
  simp only [nearReady, Bool.and_eq_true, Bool.or_eq_true, decide_eq_true_eq] at h
  obtain ⟨⟨hlaunch, hread⟩, hlimit⟩ := h
  have hok := nearReturn_eq_ok.mpr ⟨hread, fun h16 => hlimit.resolve_left (not_not_intro h16), rfl⟩
  exact ⟨_, by rw [exec_near hk, perform_eq_next]; exact ⟨hlaunch, hok⟩, nearReturned_of_ok (src_of_not_hasImm i) hok⟩

/-- Settles O11: a near return without an immediate operand. -/
theorem retCompletes : Obligations.RetCompletes := fun _ _ _ h => exec_near_completes rfl h

/-- Settles O12: a near return with an immediate operand, on the same condition. -/
theorem retImm16Completes : Obligations.RetImm16Completes := fun _ _ _ _ h => exec_near_completes rfl h

/-- Two pops in a row answer when both items can be read. -/
theorem popTwo_completes {c : StackCtx} {s : State} {n : Nat} (h0 : stackReadable c s 0 n = true)
    (hn : stackReadable c s n n = true) :
    ∃ s1 q, pop c s n = .ok (stackItem c s 0 n, s1) ∧ pop c { s1 with pc := stackItem c s 0 n } n = .ok q := by
  obtain ⟨s1, s3, rfl, -, -, -, hst, hoff⟩ := popTwo (c := c) (s := s) n
  exact ⟨_, _, pop_eq_ok.mpr ⟨h0, rfl⟩, pop_eq_ok.mpr ⟨(hst.stackReadable hoff n).trans hn, rfl⟩⟩

/-- A far return in real-address or virtual-8086 mode completes where it is ready. -/
theorem farReturnRealV86_completes {i : RetInstr} {s : State} (h : realReady i s = true) :
    ∃ t, farReturnRealV86 i s = .ok t := by
  simp only [realReady, Bool.and_eq_true, Bool.or_eq_true, decide_eq_true_eq] at h
  obtain ⟨⟨⟨⟨⟨-, hsize⟩, hwithin⟩, h0⟩, hn⟩, hlimit⟩ := h
  obtain ⟨s1, q, hpop, hpop'⟩ := popTwo_completes h0 hn
  have hitem := truncTo_stackItem i.operandSize (ctxOf i s) s 0
  have hrefuse := refuseIf_eq_ok (r := .operandSize) (u := ()).mpr (sizesBelow64_iff.mpr hsize)
  rcases i with ⟨kind, hasImm, src, os, as⟩
  cases os
  case s16 =>
    rw [← hitem] at hpop'
    have hcheck := raiseUnless_eq_ok (x := .gp) (e := 0) (u := ()).mpr (hlimit.resolve_left (not_not_intro rfl))
    rw [returnIp, ← hitem] at hcheck
    exact ⟨_, bind_eq_ok.mpr ⟨(), hrefuse, bind_eq_ok.mpr ⟨(), checkStack_eq_ok.mpr hwithin,
      bind_eq_ok.mpr ⟨_, hpop, bind_eq_ok.mpr ⟨(), hcheck, bind_eq_ok.mpr ⟨q, hpop', rfl⟩⟩⟩⟩⟩⟩
  case s32 =>
    rw [← hitem] at hpop'
    exact ⟨_, bind_eq_ok.mpr ⟨(), hrefuse, bind_eq_ok.mpr ⟨(), checkStack_eq_ok.mpr hwithin,
      bind_eq_ok.mpr ⟨_, hpop, bind_eq_ok.mpr ⟨q, hpop', rfl⟩⟩⟩⟩⟩
  case s64 => simp [sizesBelow64] at hsize

/-- A far form in real-address or virtual-8086 mode completes where it is ready, and leaves what the far return there
leaves. -/
theorem exec_far_real_completes {i : Instr} {s : State} (hk : i.record.kind = .far) (h : realReady i.record s = true) :
    ∃ t, exec i s = .next t ∧ RealReturned i.record s t := by
  obtain ⟨t, ht⟩ := farReturnRealV86_completes h
  simp only [realReady, Bool.and_eq_true] at h
  obtain ⟨⟨⟨⟨⟨⟨hlaunch, hmode⟩, -⟩, -⟩, -⟩, -⟩, -⟩ := h
  refine ⟨t, ?_, realReturned_of_ok (src_of_not_hasImm i) ht⟩
  rw [exec_far hk, perform_eq_next, farReturn_real hmode]
  exact ⟨hlaunch, ht⟩

/-- Settles O16: both far forms in real-address and virtual-8086 mode. -/
theorem farReturnRealV86Completes : Obligations.FarReturnRealV86Completes :=
  fun _ _ _ _ => ⟨exec_far_real_completes rfl, exec_far_real_completes rfl⟩

/-- A far form in protected mode completes where it is ready at its level, and leaves what a far return that stays there
leaves: the completion to an outer level needs another level in the selector. -/
theorem exec_far_protected_same_completes {i : Instr} {s : State} (hk : i.record.kind = .far)
    (h : protectedSameReady i.record s = true) :
    ∃ t, exec i s = .next t ∧ SameLevelReturned i.record s t := by
  obtain ⟨t, ht⟩ := farReturnProtected_same_completes h
  simp only [protectedSameReady, protectedReady, Bool.and_eq_true, decide_eq_true_eq] at h
  obtain ⟨⟨⟨⟨⟨⟨⟨⟨hlaunch, hmode⟩, -⟩, -⟩, -⟩, -⟩, -⟩, -⟩, hlevel⟩ := h
  refine ⟨t, ?_, ?_⟩
  · rw [exec_far hk, perform_eq_next, farReturn_protected hmode]
    exact ⟨hlaunch, ht⟩
  · rcases farReturnProtected_eq_ok (src_of_not_hasImm i) hlaunch hmode ht with ⟨-, hsame⟩ | ⟨houter, -⟩
    · exact hsame
    · simp [protectedOuterReady, hlevel] at houter

/-- Settles O20: both far forms in protected mode at the same privilege level. -/
theorem farReturnProtectedSameLevelCompletes : Obligations.FarReturnProtectedSameLevelCompletes :=
  fun _ _ _ _ => ⟨exec_far_protected_same_completes rfl, exec_far_protected_same_completes rfl⟩

end Sys2Proof.Machine

/-! What a return may change (rules R25, R26, R54, R94): read off the four kinds of completion (`exec_next_cases`), of
which only the one to an outer level touches the level, `SS` and the data segment registers. -/

namespace Sys2Proof.Machine

open Sys2Proof.Safety

/-- Two states agree on what no return writes (rule R25). -/
structure SameSystem (s t : State) : Prop where
  gprs : t.gprs = s.gprs
  pe : t.pe = s.pe
  vm : t.vm = s.vm
  lma : t.lma = s.lma
  gdtr : t.gdtr = s.gdtr
  ldtr : t.ldtr = s.ldtr
  params : t.params = s.params

/-- Two states agree on what only a return to an outer level writes. -/
structure SameLevel (s t : State) : Prop where
  cpl : t.cpl = s.cpl
  ss : t.ss = s.ss
  es : t.es = s.es
  fs : t.fs = s.fs
  gs : t.gs = s.gs
  ds : t.ds = s.ds

section

variable {i : Instr} {s t : State}

/-- Every completion leaves what no return writes. -/
theorem exec_sameSystem (h : exec i s = .next t) : SameSystem s t := by
  rcases exec_next_cases h with ⟨-, -, -, hall, -⟩ | ⟨-, -, -, -, -, hall, -⟩ | ⟨-, -, -, -, -, -, -, hall⟩ |
    ⟨-, -, -, ⟨-, -, -, -, -, -, -, hall⟩, -⟩
  all_goals constructor <;> rw [hall]

/-- A completion leaves the level and its segment registers, or is a far return to an outer level. -/
theorem exec_sameLevel_or_outer (h : exec i s = .next t) :
    SameLevel s t ∨ i.record.kind = .far ∧ s.cpl < t.cpl ∧ OuterReturned i.record s t := by
  rcases exec_next_cases h with ⟨-, -, -, hall, -⟩ | ⟨-, -, -, -, -, hall, -⟩ | ⟨-, -, -, -, -, -, -, hall⟩ |
    ⟨hfar, -, hlt, houter, -⟩
  case inr.inr.inr =>
    obtain ⟨-, hcpl, -⟩ := id houter
    exact .inr ⟨hfar, hcpl ▸ hlt, houter⟩
  all_goals exact .inl (by constructor <;> rw [hall])

/-- A near form that completes is a near return. -/
theorem exec_near_returned (hk : i.record.kind = .near) (h : exec i s = .next t) : NearReturned i.record s t := by
  rw [exec_near hk, perform_eq_next] at h
  exact nearReturned_of_ok (src_of_not_hasImm i) h.2

end

/-- Settles O37: what no return writes (`exec_sameSystem`), what a near one leaves, and that only a far return to an
outer level, which is no near return and changes the level, writes the level and its segment registers. -/
theorem returnFrame : Obligations.ReturnFrame := by
  intro i s t h
  obtain ⟨hgprs, hpe, hvm, hlma, hgdtr, hldtr, hparams⟩ := exec_sameSystem h
  refine ⟨hgprs, hpe, hvm, hlma, hgdtr, hldtr, hparams, fun hk => ?_, fun hk => ?_⟩
  · obtain ⟨-, -, hall, hbytes⟩ := exec_near_returned hk h
    exact ⟨by rw [hall], hbytes⟩
  · rcases exec_sameLevel_or_outer h with ⟨hcpl, hss, hes, hfs, hgs, hds⟩ | ⟨hfar, hlt, -⟩
    · exact ⟨hcpl, hss, hes, hfs, hgs, hds⟩
    · rcases hk with hnear | heq
      · exact absurd (hnear.symm.trans hfar) (by decide)
      · exact absurd (heq ▸ hlt) (BitVec.lt_irrefl _)

/-! ### The data segment registers -/

/-- The condition of rule R94, its two kinds of segment read together. -/
theorem mustNull_iff {cpl : BitVec 2} {v : SegReg} :
    mustNull cpl v = true ↔
      v.hid.valid = true ∧ (v.hid.isCode = false ∨ v.hid.conforming = false) ∧ v.hid.dpl < cpl := by
  unfold mustNull
  cases v.hid.isCode <;> simp [and_assoc]

/-- What rule R94 leaves in a register, by its condition. -/
theorem invalidated_eq (cpl : BitVec 2) (v : SegReg) :
    invalidated cpl v =
      if v.hid.valid = true ∧ (v.hid.isCode = false ∨ v.hid.conforming = false) ∧ v.hid.dpl < cpl then
        { sel := 0, hid := { v.hid with valid := false } }
      else v := by
  simp only [invalidated, mustNull_iff, nullSeg]

/-- Settles O40: a completion with another level is a return to an outer one, which leaves each of the four registers as
rule R94 does (`invalidated_eq`). -/
theorem outerReturnInvalidatesDataSegments : Obligations.OuterReturnInvalidatesDataSegments := by
  intro i s t h hne
  rcases exec_sameLevel_or_outer h with hsame | ⟨-, -, -, -, -, hes, hfs, hgs, hds, -⟩
  · exact absurd hsame.cpl hne
  · have hall : ∀ p ∈ [(s.es, t.es), (s.fs, t.fs), (s.gs, t.gs), (s.ds, t.ds)], p.2 = invalidated t.cpl p.1 := by
      simp [← hes, ← hfs, ← hgs, ← hds]
    intro p hp
    rw [hall p hp, invalidated_eq]
    split <;> rfl

/-! ### The bytes of memory -/

/-- The setting of an accessed bit after the code segment's own: a byte that differs is at one of the two addresses, and
its bit 0, which was clear, is set by the one write or by the other. -/
theorem accessedMem_afterCs_changed {r : RetInstr} {s : State} {sel : Selector} {a : Nat} (hw : s.mem.wf = true)
    (h : (accessedMem (afterCs r s) sel).read a ≠ s.mem.read a) :
    s.params.setAccessed = true ∧ (a = (accessedAddr s (returnCs r s)).toNat ∨ a = (accessedAddr s sel).toNat) ∧
      (s.mem.read a).getLsbD 0 = false ∧ (accessedMem (afterCs r s) sel).read a = s.mem.read a ||| 1 := by
  have hw' : (afterCs r s).mem.wf = true := accessedMem_wf hw
  by_cases hcs : (afterCs r s).mem.read a = s.mem.read a
  · rw [← hcs] at h ⊢
    obtain ⟨haddr, hset, hclear, hval⟩ := accessedMem_changed hw' h
    exact ⟨hset, .inr haddr, hclear, hval⟩
  · obtain ⟨haddr, hset, hclear, hval⟩ := accessedMem_changed hw hcs
    have hkept : (accessedMem (afterCs r s) sel).read a = (afterCs r s).mem.read a := by
      by_contra hne
      obtain ⟨-, -, hclear', -⟩ := accessedMem_changed hw' hne
      rw [show (afterCs r s).mem.read a = s.mem.read a ||| 1 from hval] at hclear'
      simp at hclear'
    exact ⟨hset, .inl haddr, hclear, hkept.trans hval⟩

/-- Settles O38: a near return and a far one in real-address or virtual-8086 mode leave every byte, and the others leave
memory as the setting of one accessed bit or of two does. -/
theorem onlyAccessedBitsAreWritten : Obligations.OnlyAccessedBitsAreWritten := by
  intro i s t a hw h hne
  rcases exec_next_cases h with ⟨-, -, -, -, hbytes⟩ | ⟨-, -, -, -, -, -, hbytes⟩ |
    ⟨hfar, hmode, -, -, hcs, -, hmem, -⟩ | ⟨hfar, hmode, hlt, ⟨-, hcpl, hcs, -⟩, ⟨hss, hmem⟩ | ⟨-, -, hmem⟩⟩
  · exact absurd (hbytes a) hne
  · exact absurd (hbytes a) hne
  · rw [hmem] at hne ⊢
    obtain ⟨haddr, hset, hclear, hval⟩ := accessedMem_changed hw hne
    exact ⟨hfar, hmode, hset, .inl (by rw [hcs]; exact haddr), hclear, hval⟩
  · rw [hmem] at hne ⊢
    obtain ⟨hset, haddr, hclear, hval⟩ := accessedMem_afterCs_changed hw hne
    rw [hcs, hss, hcpl]
    exact ⟨hfar, hmode, hset, haddr.imp_right fun ha => ⟨ha, hlt⟩, hclear, hval⟩
  · rw [hmem] at hne ⊢
    obtain ⟨haddr, hset, hclear, hval⟩ := accessedMem_changed hw hne
    exact ⟨hfar, hmode, hset, .inl (by rw [hcs]; exact haddr), hclear, hval⟩

end Sys2Proof.Machine

/-! The step, the state after reset, and the effective limit (rules R28, R44, R53, R69). -/

namespace Sys2Proof.Machine

open Sys2Proof.Safety

/-- The next instruction is the one the fetched bytes decode to. -/
theorem nextInstr_of_decode {s : State} {i : Instr} {rest : List Byte}
    (h : decode s.decodeCtx (fetchBytes s) = .ok (i, rest)) : nextInstr s = .ok i := by
  rw [nextInstr, h]

theorem step_of_nextInstr {s : State} {i : Instr} (h : nextInstr s = .ok i) : step s = exec i s := by
  rw [step, h]

/-- Settles O6: the next instruction is the decoded one, and a step runs it. -/
theorem stepRunsTheDecodedInstruction : Obligations.StepRunsTheDecodedInstruction :=
  fun _ _ _ h => step_of_nextInstr (nextInstr_of_decode h)

theorem reset_realOrV86 : State.reset.realOrV86 = true := rfl

/-- Settles O35: memory lists nothing, and the mode class after reset is none that the other two parts speak of. -/
theorem resetMeetsInvariant : Obligations.ResetMeetsInvariant :=
  have hmode : State.reset.realOrV86 ≠ false := by simp [reset_realOrV86]
  ⟨rfl, fun h => absurd h hmode, fun h => absurd h hmode⟩

/-- The five segment registers other than `CS` hold one value after reset. -/
theorem reset_dataSegs :
    ∀ v ∈ [State.reset.ss, State.reset.es, State.reset.fs, State.reset.gs, State.reset.ds], v = ⟨0, .resetData⟩ := by
  simp [State.reset]

/-- Settles O36: each value of the table is a field of `State.reset`. -/
theorem resetValues : Obligations.ResetValues := by
  refine ⟨rfl, rfl, rfl, rfl, rfl, rfl, rfl, fun v hv => ?_, rfl, rfl, rfl, rfl, rfl, rfl, rfl, rfl, rfl,
    reset_realOrV86⟩
  rw [reset_dataSegs v hv]
  exact ⟨rfl, rfl, rfl, rfl, rfl, rfl⟩

/-- A limit with twelve ones below it is the last byte of its 4096-byte unit. -/
theorem toNat_append_fff (x : BitVec 20) : (x ++ 0xFFF#12).toNat = x.toNat * 4096 + 0xFFF := by
  rw [BitVec.toNat_append, ← Nat.shiftLeft_add_eq_or_of_lt (BitVec.isLt _), Nat.shiftLeft_eq]
  rfl

/-- Settles O51, by the granularity bit. -/
theorem effectiveLimit : Obligations.EffectiveLimit := by
  intro d
  refine ⟨?_, rfl⟩
  unfold effLimit
  cases d.g
  case false => exact BitVec.toNat_setWidth_of_le (by decide)
  case true => exact toNat_append_fff d.limit20

end Sys2Proof.Machine

/-! What every step keeps (rules R31, R94, R110, R135): the invariant's three parts, each read off the ways an
instruction completes. -/

namespace Sys2Proof.Machine

open Sys2Proof.Safety

section

variable {i : Instr} {s t : State}

theorem exec_realOrV86 (h : exec i s = .next t) : t.realOrV86 = s.realOrV86 := by
  have hsys := exec_sameSystem h
  rw [State.realOrV86, State.realOrV86, hsys.pe, hsys.vm]

/-- The only writes of memory are the settings of accessed bits, which keep the canonical form. -/
theorem exec_keeps_memWf (hw : s.mem.wf = true) (h : exec i s = .next t) : t.mem.wf = true := by
  rcases exec_next_cases h with ⟨-, -, -, hall, -⟩ | ⟨-, -, -, -, -, hall, -⟩ | ⟨-, -, -, -, -, -, hmem, -⟩ |
    ⟨-, -, -, -, ⟨-, hmem⟩ | ⟨-, -, hmem⟩⟩
  · rw [hall]; exact hw
  · rw [hall]; exact hw
  · rw [hmem]; exact accessedMem_wf hw
  · have hw' : (afterCs i.record s).mem.wf = true := accessedMem_wf hw
    rw [hmem]; exact accessedMem_wf hw'
  · rw [hmem]; exact accessedMem_wf hw

/-- A far return loads into `CS` the selector whose RPL is, or becomes, the level; a near one writes neither. -/
theorem exec_keeps_cplMatchesCs (hc : CplMatchesCs s) (h : exec i s = .next t) : CplMatchesCs t := by
  intro hmode
  rw [exec_realOrV86 h] at hmode
  rcases exec_next_cases h with ⟨-, -, -, hall, -⟩ | ⟨-, hreal, -⟩ | ⟨-, -, hrpl, -, hcs, -, -, hall⟩ |
    ⟨-, -, -, ⟨-, hcpl, hcs, -⟩, -⟩
  · rw [hall]; exact hc hmode
  · exact absurd (hreal.symm.trans hmode) (by decide)
  · have hcpl : t.cpl = s.cpl := by rw [hall]
    rw [hcs, hcpl]; exact hrpl
  · rw [hcs, hcpl]

/-- Where the level stays so do the data segment registers, and a return to an outer level invalidates what the new
level may not keep (`mustNull_invalidated`). -/
theorem exec_keeps_dataSegsGuarded (hd : DataSegsGuarded s) (h : exec i s = .next t) : DataSegsGuarded t := by
  intro hmode
  rw [exec_realOrV86 h] at hmode
  rcases exec_sameLevel_or_outer h with hsame | ⟨-, -, -, -, -, hes, hfs, hgs, hds, -⟩
  · rw [hsame.cpl, hsame.es, hsame.fs, hsame.gs, hsame.ds]
    exact hd hmode
  · rw [hes, hfs, hgs, hds]
    simp

theorem exec_keeps_inv (hi : Inv s) (h : exec i s = .next t) : Inv t :=
  have ⟨hw, hc, hd⟩ := hi
  ⟨exec_keeps_memWf hw h, exec_keeps_cplMatchesCs hc h, exec_keeps_dataSegsGuarded hd h⟩

end

/-- Settles O34: a step is the `exec` of an instruction, and every `exec` that completes keeps the invariant. -/
theorem stepKeepsInvariant : Obligations.StepKeepsInvariant := by
  intro s t hi h
  obtain ⟨i, -, hexec⟩ := step_eq_next h
  exact exec_keeps_inv hi hexec

end Sys2Proof.Machine

/-! Addresses in numbers: truncation, linear addresses, canonical addresses, the stack offsets and the code limit (rules
R7, R31, R33 to R35, R38, R39). -/

namespace Sys2Proof.Machine

open Sys2Proof.Safety

/-- The bytes an address of the mode can name (rule R31). -/
def addressSpace (ia32e : Bool) : Nat := if ia32e then 2 ^ 64 else 2 ^ 32

theorem truncTo_toNat (w : Size) (v : Word) : (truncTo w v).toNat = v.toNat % 2 ^ w.bits := by
  have hv := v.isLt
  cases w <;> simp [truncTo, Size.bits] <;> omega

theorem two_pow_bits_dvd (w : Size) : 2 ^ w.bits ∣ 2 ^ 64 := Nat.pow_dvd_pow 2 (by cases w <;> decide)

theorem wrapLinear_toNat (ia32e : Bool) (a : Word) : (wrapLinear ia32e a).toNat = a.toNat % addressSpace ia32e := by
  cases ia32e
  case false => exact truncTo_toNat .s32 a
  case true => exact (Nat.mod_eq_of_lt a.isLt).symm

/-- A sum formed modulo 2^64 and then brought into the address space is the sum modulo the address space. -/
theorem wrapLinear_add_toNat (ia32e : Bool) (a : Word) (k : Nat) :
    (wrapLinear ia32e (a + BitVec.ofNat 64 k)).toNat = (a.toNat + k) % addressSpace ia32e := by
  have hdvd : addressSpace ia32e ∣ 2 ^ 64 := by cases ia32e <;> decide
  rw [wrapLinear_toNat, BitVec.toNat_add, BitVec.toNat_ofNat, Nat.add_mod_mod, Nat.mod_mod_of_dvd _ hdvd]

theorem byteAddr_toNat (s : State) (a : Word) (k : Nat) :
    (byteAddr s a k).toNat = (a.toNat + k) % addressSpace s.ia32e :=
  wrapLinear_add_toNat s.ia32e a k

/-! ### Linear addresses -/

theorem flatIn64_iff {r : SegName} : r.flatIn64 = true ↔ r ≠ .fs ∧ r ≠ .gs := by
  cases r <;> simp [SegName.flatIn64]

/-- Settles O53: the two cases of the linear address, the second a sum modulo 2^64 whose low 32 bits are taken. -/
theorem linearAddresses : Obligations.LinearAddresses := by
  intro mode64 s r off
  simp only [lin, ← flatIn64_iff, ← Bool.and_eq_true]
  split
  · rfl
  · rw [truncTo_toNat, BitVec.toNat_add]
    exact Nat.mod_mod_of_dvd _ (two_pow_bits_dvd .s32)

/-! ### The code limit -/

theorem withinLimit_iff {s : State} {l : Bool} {limit : BitVec 32} {ip : Word} :
    withinLimit s l limit ip = true ↔ s.ia32e = true ∧ l = true ∨ ip.toNat ≤ limit.toNat := by
  rw [withinLimit, ← Bool.and_eq_true]
  split
  · simp [*]
  · simp [*]

/-- Settles O56: the code segment in force and a descriptor are two uses of one comparison. -/
theorem codeLimits : Obligations.CodeLimits := fun _ _ _ => ⟨withinLimit_iff, withinLimit_iff⟩

/-! ### Canonical addresses -/

/-- An address is the sign extension of its low bits exactly if the bits above them repeat the highest of them. -/
theorem canonical_iff_bits {s : State} {a : Word} (h1 : 1 ≤ s.params.vaBits) (h64 : s.params.vaBits ≤ 64) :
    canonical s a = true ↔ ∀ j, s.params.vaBits - 1 ≤ j → j < 64 → a.getLsbD j = a.getLsbD (s.params.vaBits - 1) := by
  have hbit : ∀ j < 64, ((a.setWidth s.params.vaBits).signExtend 64).getLsbD j =
      if j < s.params.vaBits then a.getLsbD j else a.getLsbD (s.params.vaBits - 1) := by
    intro j hj
    have htop : s.params.vaBits - 1 < s.params.vaBits := by omega
    simp only [BitVec.getLsbD_signExtend, hj, decide_true, Bool.true_and, BitVec.getLsbD_setWidth,
      BitVec.msb_eq_getLsbD_last, htop]
    split <;> simp [*]
  rw [canonical, decide_eq_true_eq]
  constructor
  · intro heq j hlo hj
    by_cases htop : j = s.params.vaBits - 1
    · rw [htop]
    · rw [congrArg (·.getLsbD j) heq]
      exact (hbit j hj).trans (if_neg (by omega))
  · intro hrep
    refine BitVec.eq_of_getLsbD_eq fun j hj => ?_
    rw [hbit j hj]
    split
    · rfl
    · exact hrep j (by omega) hj

/-- The bits repeated may as well be compared with bit 63, the highest of them. -/
theorem canonical_iff {s : State} {a : Word} (h1 : 1 ≤ s.params.vaBits) (h64 : s.params.vaBits ≤ 64) :
    canonical s a = true ↔ ∀ j, s.params.vaBits - 1 ≤ j → j < 64 → a.getLsbD j = a.getLsbD 63 := by
  rw [canonical_iff_bits h1 h64]
  constructor
  · intro hrep j hlo hj
    rw [hrep j hlo hj, hrep 63 (by omega) (by decide)]
  · intro hrep j hlo hj
    rw [hrep j hlo hj, hrep _ le_rfl (by omega)]

theorem canonicalRange_iff {s : State} {a : Word} {n : Nat} (hn : 1 ≤ n) :
    canonicalRange s a n = true ↔
      canonical s a = true ∧ canonical s (a + BitVec.ofNat 64 (n - 1)) = true ∧ a.toNat + n - 1 < 2 ^ 64 := by
  simp only [canonicalRange, Bool.and_eq_true, decide_eq_true_eq, and_assoc, Nat.add_sub_assoc hn]

/-- The sign extension of 48 bits, in numbers: the quotient by 2^47 is all zeros or all ones. -/
theorem canonical48_iff {s : State} {a : Word} (h48 : s.params.vaBits = 48) :
    canonical s a = true ↔ a ≤ 0x00007FFFFFFFFFFF ∨ 0xFFFF800000000000 ≤ a := by
  have ha := a.isLt
  have hext : ((a.setWidth 48).signExtend 64).toNat =
      a.toNat % 2 ^ 48 + if 2 ^ 47 ≤ a.toNat % 2 ^ 48 then 2 ^ 64 - 2 ^ 48 else 0 := by
    rw [BitVec.toNat_signExtend, BitVec.msb_eq_decide]
    simp only [BitVec.toNat_setWidth, decide_eq_true_eq, Nat.reduceSub]
    omega
  rw [canonical, decide_eq_true_eq, h48, ← BitVec.toNat_inj, hext, BitVec.le_def, BitVec.le_def]
  split <;> simp <;> omega

/-- A linear address formed outside 64-bit mode has no bits from 32 on (rule R39). -/
theorem lin_false_lt (s : State) (r : SegName) (off : Word) : (lin false s r off).toNat < 2 ^ 32 := by
  rw [lin, Bool.false_and, if_neg Bool.false_ne_true, truncTo_toNat]
  exact Nat.mod_lt _ (by decide)

/-- Where bit `VA_BITS-1` and those above it are zero an address is canonical. -/
theorem canonical_of_lt {s : State} {a : Word} (h33 : 33 ≤ s.params.vaBits) (h64 : s.params.vaBits ≤ 64)
    (ha : a.toNat < 2 ^ 32) : canonical s a = true := by
  have hzero : ∀ j, 32 ≤ j → a.getLsbD j = false := fun j hj =>
    Nat.testBit_lt_two_pow (ha.trans_le (Nat.pow_le_pow_right (by decide) hj))
  rw [canonical_iff (by omega) h64]
  intro j hlo _
  rw [hzero j (by omega), hzero 63 (by decide)]

/-- Settles O47, from the bits of a sign extension. -/
theorem canonicalAddresses : Obligations.CanonicalAddresses := fun s _ h1 h64 =>
  ⟨canonical_iff h1 h64, canonical48_iff, fun _ => canonicalRange_iff,
    fun h33 r off => canonical_of_lt h33 h64 (lin_false_lt s r off)⟩

/-! ### The stack limits -/

theorem stackOff_toNat (c : StackCtx) (s : State) (k : Nat) :
    (stackOff c s k).toNat = (s.rsp.toNat + k) % 2 ^ c.w.bits := by
  rw [stackOff, truncTo_toNat, BitVec.toNat_add, BitVec.toNat_ofNat, Nat.add_mod_mod,
    Nat.mod_mod_of_dvd _ (two_pow_bits_dvd c.w)]

/-- What the refusal of rule R34 says of the bytes: the segment reaches past the width they wrap at. -/
theorem withinStackLimits_refused {c : StackCtx} {s : State} {k n : Nat}
    (h : withinStackLimits c s k n = .error (.refused .stackWrap)) :
    s.ss.hid.expandDown = false ∧ 2 ^ c.w.bits ≤ s.ss.hid.limit.toNat := by
  unfold withinStackLimits at h
  dsimp only at h
  split_ifs at h with _ _ hup hlim hwrap
  exact ⟨by simpa using hup, hwrap.trans (Nat.le_of_not_lt hlim)⟩

/-- Only at 16 bits can a segment limit, of 32 bits, reach past the width. -/
theorem size_of_two_pow_bits_le {w : Size} {limit : BitVec 32} (h : 2 ^ w.bits ≤ limit.toNat) : w = .s16 := by
  have hlt := limit.isLt
  cases w
  case s16 => rfl
  case s32 => exact absurd h (Nat.not_le_of_lt hlt)
  case s64 => exact absurd h (Nat.not_le_of_lt (hlt.trans (by decide)))

/-- Settles O54: the branches in order, and the refusal (`withinStackLimits_refused`), which only a 16-bit stack can
reach. -/
theorem stackLimits : Obligations.StackLimits := by
  intro c s k n hn
  refine ⟨?_, fun hrefused => ?_⟩
  · simp only [← stackOff_toNat, BitVec.ofNat_toNat, BitVec.setWidth_eq, Nat.add_sub_assoc hn, Bool.decide_and,
      withinStackLimits, refuse, Bool.not_eq_true']
  · obtain ⟨hup, hlim⟩ := withinStackLimits_refused hrefused
    have hw := size_of_two_pow_bits_le hlim
    rw [hw] at hlim
    exact ⟨hw, hup, hlim⟩

end Sys2Proof.Machine

/-! Selectors, tables and descriptors in numbers (rules R40 to R43). -/

namespace Sys2Proof.Machine

open Sys2Proof.Safety

/-- A bit in numbers. -/
theorem getLsbD_iff {w : Nat} {x : BitVec w} {k : Nat} : x.getLsbD k = true ↔ x.toNat / 2 ^ k % 2 = 1 := by
  rw [BitVec.getLsbD, Nat.testBit_eq_decide_div_mod_eq, decide_eq_true_eq]

/-- A field in numbers. -/
theorem toNat_extractLsb' {w : Nat} (x : BitVec w) (k len : Nat) :
    (x.extractLsb' k len).toNat = x.toNat / 2 ^ k % 2 ^ len := by
  rw [BitVec.extractLsb'_toNat, Nat.shiftRight_eq_div_pow]

/-- Two parts put together, in numbers. -/
theorem toNat_append {n m : Nat} (x : BitVec n) (y : BitVec m) : (x ++ y).toNat = x.toNat * 2 ^ m + y.toNat := by
  rw [BitVec.toNat_append, ← Nat.shiftLeft_add_eq_or_of_lt y.isLt, Nat.shiftLeft_eq]

/-! ### Selectors -/

theorem rpl_toNat (sel : Selector) : (rpl sel).toNat = sel.toNat % 4 := by
  rw [rpl, toNat_extractLsb', pow_zero, Nat.div_one]
  rfl

theorem tableIndicator_iff {sel : Selector} : tableIndicator sel = true ↔ sel.toNat / 4 % 2 = 1 := getLsbD_iff

/-- The index is all of the selector above its three low bits. -/
theorem selIndex_eq (sel : Selector) : selIndex sel = sel.toNat / 8 := by
  rw [selIndex, toNat_extractLsb']
  have := sel.isLt
  omega

theorem isNull_iff_lt {sel : Selector} : isNull sel = true ↔ sel.toNat < 4 := by
  rw [isNull, decide_eq_true_eq, ← BitVec.toNat_inj, toNat_extractLsb', BitVec.toNat_ofNat]
  have := sel.isLt
  omega

/-- Settles O48: the fields as quotients and remainders, and the four selectors below 4. -/
theorem selectorFields : Obligations.SelectorFields := by
  intro sel
  constructor
  · simp only [selIndex_eq, tableIndicator_iff, rpl_toNat]
    split <;> omega
  · rw [isNull_iff_lt]
    bv_omega

/-! ### Descriptor tables -/

theorem descInTable_iff {s : State} {sel : Selector} : descInTable s sel = true ↔
    if sel.toNat / 4 % 2 = 1 then s.ldtr.valid = true ∧ sel.toNat / 8 * 8 + 7 ≤ s.ldtr.limit.toNat
    else sel.toNat / 8 * 8 + 7 ≤ s.gdtr.limit.toNat := by
  simp only [descInTable, selIndex_eq, ← tableIndicator_iff]
  split <;> simp

theorem tableBase_toNat (s : State) (sel : Selector) :
    (tableBase s sel).toNat = if sel.toNat / 4 % 2 = 1 then s.ldtr.base.toNat else s.gdtr.base.toNat := by
  simp only [tableBase, ← tableIndicator_iff]
  exact apply_ite BitVec.toNat ..

/-- Settles O49: the limit and the base of the table, and the sum modulo the address space of the mode. -/
theorem descriptorTableLookup : Obligations.DescriptorTableLookup := by
  intro s sel
  refine ⟨descInTable_iff, ?_⟩
  rw [descAddr, wrapLinear_add_toNat, tableBase_toNat, selIndex_eq]
  rfl

/-! ### Descriptors -/

theorem decodeDescriptor_dpl_toNat (q : Word) : (decodeDescriptor q).dpl.toNat = q.toNat / 2 ^ 45 % 4 :=
  toNat_extractLsb' q 45 2

/-- The base lies in two pieces, of which the upper one ends the descriptor. -/
theorem decodeDescriptor_base_toNat (q : Word) :
    (decodeDescriptor q).base.toNat = q.toNat / 2 ^ 56 * 2 ^ 24 + q.toNat / 2 ^ 16 % 2 ^ 24 := by
  have htop : q.toNat / 2 ^ 56 % 2 ^ 8 = q.toNat / 2 ^ 56 := by
    have := q.isLt
    omega
  rw [decodeDescriptor, BitVec.toNat_setWidth_of_le (by decide), toNat_append, toNat_extractLsb', toNat_extractLsb',
    htop]

theorem decodeDescriptor_limit20_toNat (q : Word) :
    (decodeDescriptor q).limit20.toNat = q.toNat / 2 ^ 48 % 16 * 2 ^ 16 + q.toNat % 2 ^ 16 := by
  rw [decodeDescriptor, toNat_append, toNat_extractLsb', toNat_extractLsb', pow_zero, Nat.div_one]
  rfl

/-- Settles O50: each property is a conjunction of bits, and each number a field. -/
theorem descriptorFields : Obligations.DescriptorFields := by
  intro q
  refine ⟨?_, ?_, ?_, ?_, ?_, decodeDescriptor_dpl_toNat q, getLsbD_iff, getLsbD_iff, getLsbD_iff, getLsbD_iff,
    decodeDescriptor_base_toNat q, decodeDescriptor_limit20_toNat q⟩
  all_goals
    simp only [decodeDescriptor, Bool.and_eq_true, Bool.not_eq_true', ← Bool.not_eq_true, getLsbD_iff, and_assoc]

end Sys2Proof.Machine

/-! Memory: its bytes, the values read from it, and the setting of an accessed bit (rules R31, R32, R50, R54). -/

namespace Sys2Proof.Machine

open Sys2Proof.Safety

/-- Settles O57, from the laws of a write and the canonical form. -/
theorem memoryReadAfterWrite : Obligations.MemoryReadAfterWrite := fun _ _ _ hw ha =>
  ⟨fun _ => Memory.read_write hw, Memory.wf_write hw ha, fun _ hw' hread =>
    Memory.ext_read hw' (Memory.wf_write hw ha) hread⟩

/-- Inside the address space the bytes of an item lie at the addresses above its own. -/
theorem byteAddr_toNat_of_lt {s : State} {a : Word} {k : Nat} (h : a.toNat + k < addressSpace s.ia32e) :
    (byteAddr s a k).toNat = a.toNat + k := by
  rw [byteAddr_toNat, Nat.mod_eq_of_lt h]

/-- Settles O58: the bytes of a value (`memValue_byte`), at addresses that do not wrap. -/
theorem memoryReadsAreLittleEndian : Obligations.MemoryReadsAreLittleEndian := by
  intro s a n j hn hspace
  rw [memValue_byte s a j hn]
  split
  case isTrue hj => rw [byteAddr_toNat_of_lt (lt_of_lt_of_le (by omega) hspace)]
  case isFalse => rfl

theorem needsAccessed_iff_bit40 {s : State} {sel : Selector} : needsAccessed s sel = true ↔
    s.params.setAccessed = true ∧ (memValue s (descAddr s sel) 8).getLsbD 40 = false := by
  rw [needsAccessed, Bool.and_eq_true, Bool.not_eq_true']

/-- Where an accessed bit is to be set, the byte that holds it is written with its bit 0 set, and no other. -/
theorem accessedMem_read {s : State} {sel : Selector} (hw : s.mem.wf = true) (hn : needsAccessed s sel = true)
    (a : Nat) : (accessedMem s sel).read a =
      if a = (accessedAddr s sel).toNat then s.mem.read a ||| 1 else s.mem.read a := by
  rw [accessedMem, if_pos hn, Memory.read_write hw]
  split
  case isTrue ha => rw [ha]
  case isFalse => rfl

/-- Settles O59: with its accesses admitted `SetAccessed` leaves `accessedMem`. -/
theorem setAccessedWritesOneBit : Obligations.SetAccessedWritesOneBit := by
  intro s sel hw hadm
  refine ⟨_, setAccessed_eq_ok.mpr ⟨hadm, rfl⟩, rfl, ?_⟩
  simp only [← needsAccessed_iff_bit40]
  split
  case isTrue hn => exact accessedMem_read hw hn
  case isFalse hn => exact if_neg hn

end Sys2Proof.Machine

/-! The items of the stack, the stops of a near return and of a refused launch, and the fetch (rules R34, R36, R37, R46,
R49, R53, R70, R123). -/

namespace Sys2Proof.Machine

open Sys2Proof.Safety

/-! ### Items of the stack -/

theorem memRead_eq (s : State) (a : Word) (n : Nat) (k : Config.AccessKind) :
    memRead s a n k = if memAdmit s a n k = true then .ok (memValue s a n) else .error (.refused .memory) := rfl

/-- A read of the stack by its three outcomes: the check of the limits, and then the admission of the access. -/
theorem stackRead_eq (c : StackCtx) (s : State) (k n : Nat) :
    stackRead c s k n =
      match withinStackLimits c s k n with
      | .error stop => .error stop
      | .ok false => .error (.fault (.exception .ss 0))
      | .ok true =>
        if memAdmit s (stackAddr c s k) n .stackRead = true then .ok (memValue s (stackAddr c s k) n)
        else .error (.refused .memory) := by
  rw [stackRead, checkStack]
  cases withinStackLimits c s k n with
  | error stop => rfl
  | ok inside => cases inside <;> rfl

/-- A pop is the read at the top of stack, and stops as it does. -/
theorem pop_eq (c : StackCtx) (s : State) (n : Nat) :
    pop c s n = stackRead c s 0 n >>= fun v => .ok (v, writeSp c.mode64 c.w (s.rsp + BitVec.ofNat 64 n) s) := rfl

/-- Settles O55: the outcomes of a read (`stackRead_eq`), of which a pop makes one and raises the stack pointer over
it. -/
theorem stackReadsAndPops : Obligations.StackReadsAndPops := by
  intro c s k n
  refine ⟨stackRead_eq c s k n, fun v hv => ?_, fun stop hstop => ?_, fun v t hpop => ?_⟩
  · rw [pop_eq, hv, ok_bind]
  · rw [pop_eq, hstop, error_bind]
  · obtain ⟨-, hvt⟩ := pop_eq_ok.mp hpop
    obtain ⟨-, rfl⟩ := Prod.mk.inj hvt
    exact ⟨writeSp_sameButSp .., writeSp_raised s c n⟩

/-! ### The launch -/

theorem perform_of_launchable {s : State} (h : s.params.launchable = true) (r : Res State) : perform s r = outcome r :=
  if_pos h

theorem perform_of_not_launchable {s : State} (h : s.params.launchable = false) (r : Res State) :
    perform s r = .refused .launchFeature := by
  rw [perform, h, if_neg Bool.false_ne_true]

theorem launchable_eq_false_iff {p : Config.Params} :
    p.launchable = false ↔ p.alignmentCheck = true ∨ p.extraChecks = true := by
  rw [Config.Params.launchable, Bool.and_eq_false_iff, Bool.not_eq_false', Bool.not_eq_false']

/-- Settles O10: a near and a far return both answer through `perform`. -/
theorem launchWithExtraChecksIsRefused : Obligations.LaunchWithExtraChecksIsRefused := by
  intro i s h
  rw [← launchable_eq_false_iff] at h
  cases hk : i.record.kind
  case near => rw [exec_near hk, perform_of_not_launchable h]
  case far => rw [exec_far hk, perform_of_not_launchable h]

/-! ### The stops of a near return -/

/-- The pop of a near return at every operand size: it is one check, one pop, and in the 16-bit form the test of the
target. -/
theorem nearPop_eq (c : StackCtx) (os : Size) (s : State) :
    nearPop c os s = (do
      checkStack c s 0 os.bytes
      let (t, s1) ← pop c s os.bytes
      raiseUnless (os ≠ .s16 || withinCsLimit s (truncTo os t)) .gp 0
      .ok { s1 with pc := truncTo os t }) := by
  cases os <;> rfl

/-- Where the limits are neither met nor missed, the stack check is the refusal of rule R34. -/
theorem checkStack_of_wrap {c : StackCtx} {s : State} {k n : Nat} (hout : stackOutside c s k n = false)
    (hin : stackWithin c s k n = false) : checkStack c s k n = .error (.refused .stackWrap) := by
  cases hw : withinStackLimits c s k n with
  | ok inside => simp_all [stackOutside, stackWithin]
  | error stop => rw [checkStack, hw, withinStackLimits_eq_error hw, error_bind]

section

variable {i : RetInstr} {s : State}

theorem nearReturn_of_checkStack_error {stop : Stop}
    (h : checkStack (ctxOf i s) s 0 i.operandSize.bytes = .error stop) : nearReturn i s = .error stop := by
  have hpop : nearPop (ctxOf i s) i.operandSize s = .error stop := by rw [nearPop_eq, h, error_bind]
  exact bind_eq_error.mpr (.inl hpop)

/-- An item within the limits whose access is not admitted is the refusal of rule R49. -/
theorem nearReturn_of_not_admitted (hin : stackWithin (ctxOf i s) s 0 i.operandSize.bytes = true)
    (hadm : memAdmit s (stackAddr (ctxOf i s) s 0) i.operandSize.bytes .stackRead = false) :
    nearReturn i s = .error (.refused .memory) := by
  have hcheck := checkStack_eq_ok (u := ()).mpr hin
  have hpop : pop (ctxOf i s) s i.operandSize.bytes = .error (.refused .memory) := by
    rw [pop_eq, stackRead, hcheck, ok_bind, memRead_eq, hadm]
    rfl
  have hnear : nearPop (ctxOf i s) i.operandSize s = .error (.refused .memory) := by
    rw [nearPop_eq, hcheck, ok_bind, hpop, error_bind]
  exact bind_eq_error.mpr (.inl hnear)

/-- A readable 16-bit item beyond the code limit is `#GP(0)`. -/
theorem nearReturn_of_beyond_limit (hread : stackReadable (ctxOf i s) s 0 i.operandSize.bytes = true)
    (h16 : i.operandSize = .s16) (hlim : withinCsLimit s (returnIp i s) = false) :
    nearReturn i s = .error (.fault (.exception .gp 0)) := by
  have hcheck := checkStack_eq_ok (u := ()).mpr (stackReadable_within hread)
  have htest : (decide (i.operandSize ≠ .s16) || withinCsLimit s (truncTo i.operandSize
      (stackItem (ctxOf i s) s 0 i.operandSize.bytes))) = false := by
    rw [truncTo_stackItem, Bool.or_eq_false_iff]
    exact ⟨by simp [h16], hlim⟩
  have hnear : nearPop (ctxOf i s) i.operandSize s = .error (.fault (.exception .gp 0)) := by
    rw [nearPop_eq, hcheck, ok_bind]
    exact bind_eq_error.mpr (.inr ⟨_, pop_eq_ok.mpr ⟨hread, rfl⟩,
      bind_eq_error.mpr (.inl (raiseUnless_eq_error.mpr ⟨htest, rfl⟩))⟩)
  exact bind_eq_error.mpr (.inl hnear)

end

/-- Settles O13: one lemma for each stop, and where none applies the return is ready and completes. -/
theorem nearReturnStops : Obligations.NearReturnStops := by
  intro i s hk hlaunch
  have hexec : exec i s = outcome (nearReturn i.record s) := by rw [exec_near hk, perform_of_launchable hlaunch]
  dsimp only
  split_ifs with hout hin hadm hlim
  · rw [hexec, nearReturn_of_checkStack_error (checkStack_of_outside hout)]; rfl
  · rw [hexec, nearReturn_of_checkStack_error (checkStack_of_wrap (Bool.eq_false_of_not_eq_true hout) hin)]; rfl
  · rw [hexec, nearReturn_of_not_admitted (Bool.eq_true_of_not_eq_false hin) hadm]; rfl
  all_goals
    have hread : stackReadable (ctxOf i.record s) s 0 i.record.operandSize.bytes = true := by
      rw [stackReadable, Bool.and_eq_true]
      exact ⟨Bool.eq_true_of_not_eq_false hin, Bool.eq_true_of_not_eq_false hadm⟩
  · rw [hexec, nearReturn_of_beyond_limit hread hlim.1 hlim.2]; rfl
  · have hready : nearReady i.record s = true := by
      simp only [nearReady, hlaunch, hread, Bool.true_and, Bool.or_eq_true, decide_eq_true_eq]
      by_cases h16 : i.record.operandSize = .s16
      · exact .inr (by simpa [h16] using hlim)
      · exact .inl h16
    obtain ⟨t, ht, -⟩ := exec_near_completes hk hready
    exact ⟨t, ht⟩

/-! ### The fetch -/

/-- Where the fetch reads, in numbers (rules R39, R53). -/
def fetchPlace (s : State) (k : Nat) : Nat :=
  if s.mode64 then s.pc.toNat + k else (s.cs.hid.base.toNat + s.pc.toNat + k) % 2 ^ 32

theorem ia32e_of_mode64 {s : State} (h : s.mode64 = true) : s.ia32e = true := by
  rw [State.mode64, Bool.and_eq_true] at h
  exact h.1

/-- In 64-bit mode an instruction byte that may be fetched lies below 2^64. -/
theorem checkFetch_eq_ok_lt {s : State} {k : Nat} {u : Unit} (hm : s.mode64 = true) (h : checkFetch s k = .ok u) :
    s.pc.toNat + k < 2 ^ 64 := by
  rw [checkFetch, if_pos hm] at h
  split at h
  next hc => exact of_decide_eq_true (Bool.and_eq_true_iff.mp hc).2
  next => cases h

/-- The address of a byte that may be fetched: in 64-bit mode it is the offset, which does not wrap. -/
theorem fetchAddr_toNat {s : State} {k : Nat} {u : Unit} (h : checkFetch s k = .ok u) :
    (fetchAddr s k).toNat = fetchPlace s k := by
  rw [fetchAddr, linearAddresses, fetchPlace, BitVec.toNat_add, BitVec.toNat_ofNat]
  cases hm : s.mode64
  case false =>
    rw [if_neg (by simp), if_neg Bool.false_ne_true, State.seg]
    omega
  case true =>
    have hlt := checkFetch_eq_ok_lt hm h
    rw [if_pos (by decide), if_pos rfl, Nat.add_mod_mod, Nat.mod_eq_of_lt hlt]

/-- A single byte read is the byte of memory at its address, in every mode whose address space the address is in. -/
theorem memValue_one {s : State} {a : Word} (ha : a.toNat < addressSpace s.ia32e) :
    (memValue s a 1).setWidth 8 = s.mem.read a.toNat := by
  have h := memoryReadsAreLittleEndian s a 1 0 (by decide) ha
  rwa [if_pos (by decide), Nat.mul_zero, Nat.add_zero, ← BitVec.setWidth_eq_extractLsb' (by decide)] at h

theorem fetchPlace_lt {s : State} {k : Nat} {u : Unit} (h : checkFetch s k = .ok u) :
    fetchPlace s k < addressSpace s.ia32e := by
  rw [fetchPlace]
  split
  case isTrue hm =>
    rw [ia32e_of_mode64 hm]
    exact checkFetch_eq_ok_lt hm h
  case isFalse =>
    exact (Nat.mod_lt _ (by decide)).trans_le (by cases s.ia32e <;> decide)

/-- A fetched byte is the byte of memory at its place. -/
theorem fetchByte_eq_ok {s : State} {k : Nat} {b : Byte} (h : fetchByte s k = .ok b) :
    b = s.mem.read (fetchPlace s k) := by
  rw [fetchByte] at h
  obtain ⟨u, hcheck, h⟩ := bind_eq_ok.mp h
  obtain ⟨v, hread, hb⟩ := bind_eq_ok.mp h
  obtain ⟨-, rfl⟩ := memRead_eq_ok.mp hread
  have haddr := fetchAddr_toNat hcheck
  rw [← Except.ok.inj hb, memValue_one (haddr ▸ fetchPlace_lt hcheck), haddr]

/-- The bytes fetched from the `i`th on are fetched one by one. -/
theorem fetchFrom_getElem (s : State) (fuel i k : Nat) (h : k < (fetchFrom s fuel i).1.length) :
    fetchByte s (i + k) = .ok (fetchFrom s fuel i).1[k] := by
  induction fuel generalizing i k with
  | zero => exact absurd h (Nat.not_lt_zero k)
  | succ fuel ih =>
    cases hb : fetchByte s i with
    | error stop => simp [fetchFrom, hb] at h
    | ok b =>
      cases k with
      | zero => simp [fetchFrom, hb]
      | succ k =>
        have hk : k < (fetchFrom s fuel (i + 1)).1.length := by simpa [fetchFrom, hb] using h
        have := ih (i + 1) k hk
        rw [Nat.add_right_comm, Nat.add_assoc] at this
        simpa [fetchFrom, hb] using this

/-- Settles O8: each byte is fetched by itself (`fetchFrom_getElem`), from its place (`fetchByte_eq_ok`). -/
theorem fetchReadsMemoryAtCs : Obligations.FetchReadsMemoryAtCs := by
  intro s k h
  have hbyte := fetchFrom_getElem s maxLength 0 k h
  rw [Nat.zero_add] at hbyte
  exact fetchByte_eq_ok hbyte

end Sys2Proof.Machine

/-! The decoder and the encoder (rules R58 to R65): one rule for each group of bytes, then what the decoder answers where it
answers, and what it refuses. -/

namespace Sys2Proof

/-! ### The instruction of a kind -/

@[simp] theorem Instr.record_ofKind (kind : Kind) (imm : Option (BitVec 16)) (os as : Size) :
    (Instr.ofKind kind imm os as).record = ⟨kind, imm.isSome, imm.getD 0, os, as⟩ := by
  cases kind <;> cases imm <;> rfl

theorem Instr.exists_eq_ofKind : ∀ i : Instr, ∃ kind imm os as, i = .ofKind kind imm os as
  | .ret os as => ⟨.near, none, os, as, rfl⟩
  | .retImm16 imm16 os as => ⟨.near, some imm16, os, as, rfl⟩
  | .retf os as => ⟨.far, none, os, as, rfl⟩
  | .retfImm16 imm16 os as => ⟨.far, some imm16, os, as, rfl⟩

/-! ### The opcode byte -/

@[simp] theorem decodeOpcode_encodeOpcode (kind : Kind) (hasImm : Bool) :
    decodeOpcode (encodeOpcode kind hasImm) = some (kind, hasImm) := by
  cases kind <;> cases hasImm <;> rfl

theorem decodeOpcode_eq_none {b : Byte} (h : ¬(b = 0xC3 ∨ b = 0xC2 ∨ b = 0xCB ∨ b = 0xCA)) : decodeOpcode b = none := by
  obtain ⟨hC3, hC2, hCB, hCA⟩ : b ≠ 0xC3 ∧ b ≠ 0xC2 ∧ b ≠ 0xCB ∧ b ≠ 0xCA := by simpa only [not_or] using h
  rw [decodeOpcode, if_neg hC3, if_neg hC2, if_neg hCB, if_neg hCA]

theorem encodeOpcode_ne_66 (kind : Kind) (hasImm : Bool) : encodeOpcode kind hasImm ≠ 0x66 := by
  cases kind <;> cases hasImm <;> decide

/-! ### The immediate operand -/

@[simp] theorem immediate_extractLsb' (v : BitVec 16) : immediate (v.extractLsb' 0 8) (v.extractLsb' 8 8) = v := by
  have hjoin : v.extractLsb' 8 8 ++ v.extractLsb' 0 8 = v.extractLsb' 0 (8 + 8) :=
    BitVec.extractLsb'_append_extractLsb'_eq_extractLsb' rfl
  exact hjoin.trans BitVec.extractLsb'_eq_self

/-- The immediate bytes of rule R60, low-order byte first. -/
def immediateBytes : Option (BitVec 16) → List Byte
  | none => []
  | some v => [v.extractLsb' 0 8, v.extractLsb' 8 8]

theorem immediateBytes_append (hi lo : Byte) : immediateBytes (some (hi ++ lo)) = [lo, hi] := by
  rw [immediateBytes, BitVec.extractLsb'_append_eq_left, BitVec.extractLsb'_append_eq_right]

/-! ### The bytes after the prefixes -/

theorem decodeBody_of_not_opcode {c : DecodeCtx} {p66 rexW : Bool} {b : Byte} {rest : List Byte}
    (h : decodeOpcode b = none) : decodeBody c p66 rexW (b :: rest) = .error .notInScope := by
  rw [decodeBody, h]

/-- The opcode byte and the immediate bytes of a form are read as that form. -/
theorem decodeBody_opcode (c : DecodeCtx) (p66 rexW : Bool) (kind : Kind) (imm : Option (BitVec 16)) (rest : List Byte) :
    decodeBody c p66 rexW (encodeOpcode kind imm.isSome :: (immediateBytes imm ++ rest)) =
      .ok (.ofKind kind imm (operandSize c kind p66 rexW) c.stackAddressSize, rest) := by
  cases imm <;> simp [decodeBody, immediateBytes]

/-- Where the bytes after the prefixes give an instruction, it is the form of some opcode, with the sizes of rules R61 and
R62, and its bytes are that opcode's and the immediate's. -/
theorem decodeBody_eq_ok {c : DecodeCtx} {p66 rexW : Bool} {bs : List Byte} {i : Instr} {rest : List Byte}
    (h : decodeBody c p66 rexW bs = .ok (i, rest)) :
    ∃ kind imm used, i = .ofKind kind imm (operandSize c kind p66 rexW) c.stackAddressSize ∧
      bs = used ++ rest ∧ used.length = if imm.isSome then 3 else 1 := by
  cases bs with
  | nil => cases h
  | cons op bs =>
    rw [decodeBody] at h
    split at h
    next => cases h
    next kind _ =>
      cases h
      exact ⟨kind, none, [op], rfl, rfl, rfl⟩
    next kind _ =>
      split at h
      next lo hi _ =>
        cases h
        exact ⟨kind, some (immediate lo hi), [op, lo, hi], rfl, rfl, rfl⟩
      next => cases h

/-! ### The prefixes -/

theorem decode_66 (c : DecodeCtx) (bs : List Byte) : decode c (0x66 :: bs) = decodeRex c true bs := by
  rw [decode, if_pos rfl]

theorem decode_of_ne_66 (c : DecodeCtx) {b : Byte} (h : b ≠ 0x66) (rest : List Byte) :
    decode c (b :: rest) = decodeRex c false (b :: rest) := by
  rw [decode, if_neg h]

theorem isRex_eq_false {c : DecodeCtx} {b : Byte} :
    isRex c b = false ↔ c.mode64 = false ∨ ¬b.extractLsb' 4 4 = 4#4 := by
  rw [isRex, Bool.and_eq_false_iff, decide_eq_false_iff_not]

theorem isRex_encodeOpcode (c : DecodeCtx) (kind : Kind) (hasImm : Bool) : isRex c (encodeOpcode kind hasImm) = false :=
  isRex_eq_false.mpr (.inr (by cases kind <;> cases hasImm <;> decide))

theorem rex_highNibble (x : BitVec 4) : (4#4 ++ x : Byte).extractLsb' 4 4 = 4#4 :=
  BitVec.extractLsb'_append_eq_left

theorem rex_ne_66 (x : BitVec 4) : (4#4 ++ x : Byte) ≠ 0x66 := fun h =>
  absurd ((rex_highNibble x).symm.trans (congrArg (BitVec.extractLsb' 4 4) h)) (by decide)

theorem decodeRex_of_not_rex {c : DecodeCtx} {b : Byte} (h : isRex c b = false) (p66 : Bool) (rest : List Byte) :
    decodeRex c p66 (b :: rest) = decodeBody c p66 false (b :: rest) := by
  rw [decodeRex, h, if_neg Bool.false_ne_true]

/-- In 64-bit mode a REX byte comes before the opcode byte, and its bit 3 is `W`. -/
theorem decodeRex_rex {c : DecodeCtx} (hmode : c.mode64 = true) (p66 : Bool) (x : BitVec 4) (bs : List Byte) :
    decodeRex c p66 ((4#4 ++ x) :: bs) = decodeBody c p66 (x.getLsbD 3) bs := by
  have hrex : isRex c (4#4 ++ x) = true := by simp [isRex, hmode, rex_highNibble]
  rw [decodeRex, if_pos hrex, BitVec.getLsbD_append, if_pos (by decide)]

/-- The bytes rule R63 admits before the opcode byte: 66H, then a REX byte. -/
def prefixBytes (p66 : Bool) (rex : Option (BitVec 4)) : List Byte :=
  (if p66 then [0x66] else []) ++ (match rex with | none => [] | some x => [4#4 ++ x])

/-- Bit `W` of the REX byte, if there is one (rule R63). -/
def rexWide : Option (BitVec 4) → Bool
  | none => false
  | some x => x.getLsbD 3

/-- Before an opcode byte the prefixes are read as what they are. -/
theorem decode_prefixBytes {c : DecodeCtx} (p66 : Bool) {rex : Option (BitVec 4)}
    (hrex : rex.isSome = true → c.mode64 = true) (kind : Kind) (hasImm : Bool) (bs : List Byte) :
    decode c (prefixBytes p66 rex ++ encodeOpcode kind hasImm :: bs) =
      decodeBody c p66 (rexWide rex) (encodeOpcode kind hasImm :: bs) := by
  cases rex with
  | none =>
    rw [rexWide, ← decodeRex_of_not_rex (isRex_encodeOpcode c kind hasImm)]
    cases p66
    case false => exact decode_of_ne_66 c (encodeOpcode_ne_66 kind hasImm) bs
    case true => exact decode_66 c _
  | some x =>
    rw [rexWide, ← decodeRex_rex (hrex rfl)]
    cases p66
    case false => exact decode_of_ne_66 c (rex_ne_66 x) _
    case true => exact decode_66 c _

/-- Prefixes, opcode byte and immediate bytes of a form decode to that form, with the sizes of rules R61 and R62. -/
theorem decode_form {c : DecodeCtx} (p66 : Bool) {rex : Option (BitVec 4)} (hrex : rex.isSome = true → c.mode64 = true)
    (kind : Kind) (imm : Option (BitVec 16)) (rest : List Byte) :
    decode c (prefixBytes p66 rex ++ encodeOpcode kind imm.isSome :: (immediateBytes imm ++ rest)) =
      .ok (.ofKind kind imm (operandSize c kind p66 (rexWide rex)) c.stackAddressSize, rest) := by
  rw [decode_prefixBytes p66 hrex, decodeBody_opcode]

/-- Where the decoder answers, at most one REX byte was taken. -/
theorem decodeRex_eq_ok {c : DecodeCtx} {p66 : Bool} {bs : List Byte} {r : Instr × List Byte}
    (h : decodeRex c p66 bs = .ok r) :
    ∃ rexW pre body, bs = pre ++ body ∧ pre.length ≤ 1 ∧ decodeBody c p66 rexW body = .ok r := by
  cases bs with
  | nil => cases h
  | cons b rest =>
    rw [decodeRex] at h
    split at h
    next => exact ⟨b.getLsbD 3, [b], rest, rfl, Nat.le_refl 1, h⟩
    next => exact ⟨false, [], b :: rest, rfl, Nat.zero_le 1, h⟩

/-- Where the decoder answers, at most two bytes were taken as prefixes. -/
theorem decode_eq_ok {c : DecodeCtx} {bs : List Byte} {r : Instr × List Byte} (h : decode c bs = .ok r) :
    ∃ p66 rexW pre body, bs = pre ++ body ∧ pre.length ≤ 2 ∧ decodeBody c p66 rexW body = .ok r := by
  cases bs with
  | nil => cases h
  | cons b rest =>
    rw [decode] at h
    split at h
    next =>
      obtain ⟨rexW, pre, body, rfl, hlen, hbody⟩ := decodeRex_eq_ok h
      exact ⟨true, rexW, b :: pre, body, rfl, Nat.succ_le_succ hlen, hbody⟩
    next =>
      obtain ⟨rexW, pre, body, hbs, hlen, hbody⟩ := decodeRex_eq_ok h
      exact ⟨false, rexW, pre, body, hbs, hlen.trans (Nat.le_succ 1), hbody⟩

/-! ### The sizes -/

/-- The rows of rule R61 outside 64-bit mode, where near and far returns agree. -/
theorem operandSize_outside {c : DecodeCtx} (h : c.mode64 = false) (kind : Kind) (p66 rexW : Bool) :
    operandSize c kind p66 rexW = if c.csDB then (if p66 then .s16 else .s32) else (if p66 then .s32 else .s16) := by
  simp [operandSize, h]

theorem operandSize_near64 {c : DecodeCtx} (h : c.mode64 = true) (p66 rexW : Bool) :
    operandSize c .near p66 rexW = if p66 && c.nearRet66 = .honoured then .s16 else .s64 := by
  simp [operandSize, h]

theorem operandSize_far64 {c : DecodeCtx} (h : c.mode64 = true) (p66 rexW : Bool) :
    operandSize c .far p66 rexW = if rexW then .s64 else if p66 then .s16 else .s32 := by
  simp [operandSize, h]

theorem admitsOperandSize_outside {c : DecodeCtx} (h : c.mode64 = false) (kind : Kind) (os : Size) :
    c.admitsOperandSize kind os = true ↔ os ≠ .s64 := by
  cases os <;> simp [DecodeCtx.admitsOperandSize, h]

theorem admitsOperandSize_near64 {c : DecodeCtx} (h : c.mode64 = true) (os : Size) :
    c.admitsOperandSize .near os = true ↔ os = .s64 ∨ os = .s16 ∧ c.nearRet66 = .honoured := by
  cases os <;> simp [DecodeCtx.admitsOperandSize, h]

theorem admitsOperandSize_far64 {c : DecodeCtx} (h : c.mode64 = true) (os : Size) :
    c.admitsOperandSize .far os = true := by
  simp [DecodeCtx.admitsOperandSize, h]

/-- The operand size the prefixes give is one the context admits. -/
theorem admitsOperandSize_operandSize (c : DecodeCtx) (kind : Kind) (p66 rexW : Bool) :
    c.admitsOperandSize kind (operandSize c kind p66 rexW) = true := by
  cases hmode : c.mode64
  case false =>
    rw [admitsOperandSize_outside hmode, operandSize_outside hmode]
    split_ifs <;> decide
  case true =>
    cases kind with
    | near =>
      rw [admitsOperandSize_near64 hmode, operandSize_near64 hmode]
      split_ifs with h16
      · exact .inr ⟨rfl, of_decide_eq_true (Bool.and_eq_true_iff.mp h16).2⟩
      · exact .inl rfl
    | far => exact admitsOperandSize_far64 hmode _

/-- The prefixes the encoder writes for an admitted operand size give that operand size. -/
theorem operandSize_of_admits {c : DecodeCtx} {kind : Kind} {os : Size} (h : c.admitsOperandSize kind os = true) :
    operandSize c kind (needs66 c kind os) (needsRexW c kind os) = os := by
  cases hmode : c.mode64
  case false =>
    rw [admitsOperandSize_outside hmode] at h
    rw [operandSize_outside hmode]
    cases os <;> cases hdb : c.csDB <;> simp_all [needs66]
  case true =>
    cases kind with
    | near =>
      rw [operandSize_near64 hmode]
      rcases (admitsOperandSize_near64 hmode os).mp h with rfl | ⟨rfl, hhonoured⟩
      · simp [needs66, hmode]
      · simp [needs66, hmode, hhonoured]
    | far =>
      rw [operandSize_far64 hmode]
      cases os <;> simp [needs66, needsRexW, hmode]

theorem stackAddressSize_eq_s64 {c : DecodeCtx} : c.stackAddressSize = .s64 ↔ c.mode64 = true := by
  rw [DecodeCtx.stackAddressSize]
  split_ifs with hmode hdb <;> simp [hmode]

/-- What rules R61 and R62 leave possible in some state (rule R75). -/
theorem Instr.wellFormed_of_wellFormedIn {c : DecodeCtx} {i : Instr} (h : i.wellFormedIn c = true) :
    i.wellFormed = true := by
  simp only [Instr.wellFormedIn, Bool.and_eq_true, decide_eq_true_eq] at h
  obtain ⟨has, hos⟩ := h
  rw [Instr.wellFormed, has]
  cases hmode : c.mode64
  case false =>
    have has64 : c.stackAddressSize ≠ .s64 := by simp [stackAddressSize_eq_s64, hmode]
    rw [admitsOperandSize_outside hmode] at hos
    split <;> simp_all
  case true =>
    rw [stackAddressSize_eq_s64.mpr hmode]
    cases hkind : i.record.kind with
    | near =>
      rw [hkind, admitsOperandSize_near64 hmode] at hos
      rcases hos with hos | ⟨hos, -⟩ <;> rw [hos]
    | far => rfl

/-! ### The encoder -/

/-- The encoding of a form: its prefixes, its opcode byte and its immediate bytes. The one REX byte is 48H. -/
theorem encode_ofKind (c : DecodeCtx) (kind : Kind) (imm : Option (BitVec 16)) (os as : Size) :
    encode c (.ofKind kind imm os as) =
      prefixBytes (needs66 c kind os) (if needsRexW c kind os then some 8#4 else none) ++
        encodeOpcode kind imm.isSome :: immediateBytes imm := by
  unfold encode prefixBytes
  rw [Instr.record_ofKind]
  cases hrex : needsRexW c kind os <;> cases imm <;> simp [immediateBytes, hrex]

/-- Settles O1: the encoding is a form's bytes, which `decode_form` reads, and its prefixes give back the size. -/
theorem decodeReadsBackEncode : Obligations.DecodeReadsBackEncode := by
  intro c i rest h
  obtain ⟨kind, imm, os, as, rfl⟩ := i.exists_eq_ofKind
  simp only [Instr.wellFormedIn, Instr.record_ofKind, Bool.and_eq_true, decide_eq_true_eq] at h
  obtain ⟨rfl, hos⟩ := h
  have hmode : (if needsRexW c kind os then some 8#4 else none).isSome = true → c.mode64 = true := by
    cases hm : c.mode64 <;> simp [needsRexW, hm]
  have hwide : rexWide (if needsRexW c kind os then some 8#4 else none) = needsRexW c kind os := by
    cases needsRexW c kind os <;> rfl
  rw [encode_ofKind, List.append_assoc, List.cons_append, decode_form _ hmode, hwide, operandSize_of_admits hos]

/-- Settles O2: each word is a form's bytes, and the sizes are read off the two rows of rule R61. -/
theorem prefixesAndStateGiveTheSizes : Obligations.PrefixesAndStateGiveTheSizes := by
  intro c p66 rex lo hi rest hrex
  have hplain (kind : Kind) := decode_form p66 hrex kind none rest
  have himm (kind : Kind) := decode_form p66 hrex kind (some (hi ++ lo)) rest
  simp only [immediateBytes_append] at himm
  dsimp only
  cases hmode : c.mode64
  case false =>
    simp only [operandSize_outside hmode, DecodeCtx.stackAddressSize, hmode] at hplain himm
    exact ⟨hplain .near, himm .near, hplain .far, himm .far⟩
  case true =>
    have hnear := operandSize_near64 hmode p66 (rexWide rex)
    have hfar := operandSize_far64 hmode p66 (rexWide rex)
    simp only [DecodeCtx.stackAddressSize, hmode] at hplain himm
    exact ⟨hnear ▸ hplain .near, hnear ▸ himm .near, hfar ▸ hplain .far, hfar ▸ himm .far⟩

/-- Settles O3: at most two prefixes (`decode_eq_ok`), then the bytes of a form (`decodeBody_eq_ok`). -/
theorem decodedInstructionIsWellFormed : Obligations.DecodedInstructionIsWellFormed := by
  intro c bs i rest h
  obtain ⟨p66, rexW, pre, body, rfl, hpre, hbody⟩ := decode_eq_ok h
  obtain ⟨kind, imm, used, rfl, rfl, hused⟩ := decodeBody_eq_ok hbody
  have hwf : (Instr.ofKind kind imm (operandSize c kind p66 rexW) c.stackAddressSize).wellFormedIn c = true := by
    simp [Instr.wellFormedIn, admitsOperandSize_operandSize]
  refine ⟨hwf, Instr.wellFormed_of_wellFormedIn hwf, pre ++ used, (List.append_assoc ..).symm, ?_⟩
  rw [List.length_append, hused, Instr.record_ofKind]
  dsimp only
  omega

/-- Settles O4: after the prefixes the byte is read as the opcode, which it is not. -/
theorem otherByteSequencesAreRefused : Obligations.OtherByteSequencesAreRefused := by
  intro c b rest
  refine ⟨fun hop h66 hrex => ?_, fun hop hrex => ?_, fun hop hmode x => ⟨?_, ?_⟩⟩
  · rw [decode_of_ne_66 c h66, decodeRex_of_not_rex (isRex_eq_false.mpr hrex),
      decodeBody_of_not_opcode (decodeOpcode_eq_none hop)]
  · rw [decode_66, decodeRex_of_not_rex (isRex_eq_false.mpr hrex), decodeBody_of_not_opcode (decodeOpcode_eq_none hop)]
  · rw [decode_of_ne_66 c (rex_ne_66 x), decodeRex_rex hmode, decodeBody_of_not_opcode (decodeOpcode_eq_none hop)]
  · rw [decode_66, decodeRex_rex hmode, decodeBody_of_not_opcode (decodeOpcode_eq_none hop)]

/-- Settles O5: three words are rows of the table of sizes, and outside 64-bit mode 48H is neither REX nor opcode. -/
theorem writtenWordsDecode : Obligations.WrittenWordsDecode := by
  refine ⟨?_, ?_, ?_, ?_⟩
  · exact (prefixesAndStateGiveTheSizes _ false none 0 0 [] nofun).2.2.1
  · exact (prefixesAndStateGiveTheSizes _ true none 0xFF 0xFF [] nofun).2.2.2
  · exact (prefixesAndStateGiveTheSizes _ false (some 8) 0x10 0x00 [] fun _ => rfl).2.2.2
  · exact (otherByteSequencesAreRefused _ 0x48 [0xCB]).1 (by decide) (by decide) (.inl rfl)

end Sys2Proof

/-! A step whose bytes are in no form (rule R65). -/

namespace Sys2Proof.Machine

theorem nextInstr_of_notInScope {s : State} (h : decode s.decodeCtx (fetchBytes s) = .error .notInScope) :
    nextInstr s = refuse .notInScope := by
  rw [nextInstr, h]

theorem step_of_nextInstr_refused {s : State} {r : Refusal} (h : nextInstr s = refuse r) : step s = .refused r := by
  rw [step, h, refuse]

/-- Settles O7: the fetch answers the decoder's refusal, and a step ends with it. -/
theorem stepRefusesOtherBytes : Obligations.StepRefusesOtherBytes :=
  fun _ h => step_of_nextInstr_refused (nextInstr_of_notInScope h)

end Sys2Proof.Machine

/-! What a near return raises and what it does not read (rules R70, R71). -/

namespace Sys2Proof.Machine

open Sys2Proof.Safety

/-- Settles O14: of the ways a near return stops (`nearReturn_eq_error`), two are refusals and no fault. -/
theorem nearReturnRaisesNothingElse : Obligations.NearReturnRaisesNothingElse := by
  intro i s f hk h
  rw [exec_near hk, perform_eq_fault] at h
  rcases nearReturn_eq_error h.2 with hwrap | hmem | hss | ⟨hgp, h16, hlim⟩
  · cases hwrap
  · cases hmem
  · exact .inl (Stop.fault.inj hss)
  · exact .inr ⟨Stop.fault.inj hgp, h16, hlim⟩

/-! ### The fields a near return does not read -/

/-- A value for each field a near return does not read: the privilege level, the table registers, the data segment
registers and the selectors of `CS` and `SS` (rule R71). -/
structure UnreadByNear where
  cpl : BitVec 2
  gdtr : GlobalTable
  ldtr : LocalTable
  es : SegReg
  fs : SegReg
  gs : SegReg
  ds : SegReg
  csSel : Selector
  ssSel : Selector

/-- The state with those fields replaced. -/
def UnreadByNear.put (o : UnreadByNear) (s : State) : State :=
  { s with cpl := o.cpl, gdtr := o.gdtr, ldtr := o.ldtr, es := o.es, fs := o.fs, gs := o.gs, ds := o.ds
           cs := { s.cs with sel := o.csSel }, ss := { s.ss with sel := o.ssSel } }

section

variable (o : UnreadByNear) (s : State)

@[simp] theorem put_params : (o.put s).params = s.params := rfl

theorem put_setPc (v : Word) : o.put { s with pc := v } = { o.put s with pc := v } := rfl

/-- The check of the stack reads the hidden part of `SS` alone. -/
theorem checkStack_put (c : StackCtx) (k n : Nat) : checkStack c (o.put s) k n = checkStack c s k n := rfl

theorem stackRead_put (c : StackCtx) (k n : Nat) : stackRead c (o.put s) k n = stackRead c s k n := rfl

/-- The code limit is the hidden one of `CS`. -/
theorem withinCsLimit_put (ip : Word) : withinCsLimit (o.put s) ip = withinCsLimit s ip := rfl

theorem upper32_put : upper32 (o.put s) = ((upper32 s).1, o.put (upper32 s).2) := by
  rw [upper32, upper32, put_params]
  cases s.params.upperSp <;> rfl

/-- A write of the stack pointer, with the draw it may make, reads and writes none of the replaced fields. -/
theorem writeSp_put (m : Bool) (w : Size) (v : Word) : writeSp m w v (o.put s) = o.put (writeSp m w v s) := by
  cases w
  case s16 => rfl
  case s64 => rfl
  case s32 =>
    cases m
    · rw [writeSp, if_neg Bool.false_ne_true, upper32_put]
      rfl
    · rfl

theorem releaseIf_put (b m : Bool) (w : Size) (src : BitVec 16) :
    releaseIf b m w src (o.put s) = o.put (releaseIf b m w src s) := by
  cases b
  · rfl
  · exact writeSp_put o s m w _

/-! ### The two runs of a near return -/

/-- Answers related by a function are the one and its image. -/
theorem Alike.eq_map {α : Type} {f : α → α} {q r : Res α} (h : Alike (fun a b => b = f a) q r) : r = q.map f := by
  cases h with
  | ok h => exact congrArg Except.ok h
  | error p => rfl

theorem pop_put (c : StackCtx) (n : Nat) :
    Alike (fun p q => q = (p.1, o.put p.2)) (pop c s n) (pop c (o.put s) n) :=
  .bind_same (stackRead_put o s c 0 n) fun v => .ok (congrArg (Prod.mk v) (writeSp_put o s ..))

theorem nearPop_put (c : StackCtx) (os : Size) :
    Alike (fun t t' => t' = o.put t) (nearPop c os s) (nearPop c os (o.put s)) := by
  rw [nearPop_eq, nearPop_eq]
  refine .bind_same (checkStack_put o s ..) fun _ => (pop_put o s c os.bytes).bind ?_
  rintro ⟨ip, s1⟩ _ rfl
  exact .bind_same (by rw [withinCsLimit_put]) fun _ => .ok (put_setPc ..)

/-- A near return from the state with the fields replaced: it stops alike, or leaves its state with them replaced. -/
theorem nearReturn_put (i : RetInstr) : nearReturn i (o.put s) = (nearReturn i s).map o.put := by
  refine Alike.eq_map ((nearPop_put o s (ctxOf i s) i.operandSize).bind ?_)
  rintro s1 _ rfl
  exact .ok (releaseIf_put ..)

/-- An outcome with its next state, if it is one, replaced by the image under `f`. -/
def mapNext (f : State → State) : Host.Outcome State Fault Refusal → Host.Outcome State Fault Refusal
  | .next t => .next (f t)
  | .fault q => .fault q
  | .refused r => .refused r

theorem outcome_map (f : State → State) (r : Res State) : outcome (r.map f) = mapNext f (outcome r) := by
  cases r with
  | ok t => rfl
  | error stop => cases stop <;> rfl

/-- A launch is refused by its parameters alone, which are not replaced. -/
theorem perform_put (r : Res State) : perform (o.put s) (r.map o.put) = mapNext o.put (perform s r) := by
  rw [perform, perform, put_params, outcome_map]
  split <;> rfl

theorem exec_near_put {i : Instr} (hk : i.record.kind = .near) : exec i (o.put s) = mapNext o.put (exec i s) := by
  rw [exec_near hk, exec_near hk, nearReturn_put, perform_put]

end

/-- Settles O15: the two runs of a near return (`exec_near_put`), outcome by outcome. -/
theorem nearReturnIgnoresPrivilegeAndTables : Obligations.NearReturnIgnoresPrivilegeAndTables := by
  intro i s cpl gdtr ldtr es fs gs ds csSel ssSel hk
  exact (exec_near_put ⟨cpl, gdtr, ldtr, es, fs, gs, ds, csSel, ssSel⟩ s hk).trans (by cases exec i s <;> rfl)

end Sys2Proof.Machine

/-! A step whose first byte cannot be fetched (rule R71, decision D29). -/

namespace Sys2Proof.Machine

theorem fetchFrom_of_error {s : State} {i : Nat} {stop : Stop} (h : fetchByte s i = .error stop) (fuel : Nat) :
    fetchFrom s (fuel + 1) i = ([], some stop) := by
  rw [fetchFrom, h]

/-- Where the first byte cannot be fetched, the decoder gets no byte and asks for one: a step ends as the fetch does. -/
theorem step_of_fetch_fault {s : State} {f : Fault} (h : fetchByte s 0 = .error (.fault f)) : step s = .fault f := by
  have hfetch : fetchFrom s maxLength 0 = ([], some (.fault f)) := fetchFrom_of_error h _
  have hnext : nextInstr s = .error (.fault f) := by
    rw [nextInstr, fetchBytes, fetchStop, hfetch, decode]
    rfl
  rw [step, hnext]

theorem fetchByte_of_checkFetch_error {s : State} {k : Nat} {stop : Stop} (h : checkFetch s k = .error stop) :
    fetchByte s k = .error stop := by
  rw [fetchByte, h, error_bind]

theorem checkFetch_beyond_limit {s : State} {k : Nat} (hm : s.mode64 = false)
    (h : s.cs.hid.limit.toNat < s.pc.toNat + k) : checkFetch s k = .error (.fault .fetchBeyondLimit) := by
  rw [checkFetch, hm, if_neg Bool.false_ne_true, if_neg (Nat.not_le_of_lt h)]

theorem checkFetch_nonCanonical {s : State} {k : Nat} (hm : s.mode64 = true)
    (h : canonical s (s.pc + BitVec.ofNat 64 k) = false) : checkFetch s k = .error (.fault .fetchNonCanonical) := by
  rw [checkFetch, if_pos hm, h, Bool.false_and, if_neg Bool.false_ne_true]

/-- Settles O9: the check of the first byte stops, and a step ends with it. -/
theorem fetchOutsideTheCodeSegmentFaults : Obligations.FetchOutsideTheCodeSegmentFaults := fun s =>
  ⟨fun hm hlim => step_of_fetch_fault (fetchByte_of_checkFetch_error (checkFetch_beyond_limit hm hlim)),
    fun hm hcanon => step_of_fetch_fault (fetchByte_of_checkFetch_error
      (checkFetch_nonCanonical hm (by rwa [BitVec.add_zero])))⟩

end Sys2Proof.Machine

/-! The stops of a far return in real-address and virtual-8086 mode, and what it does not read (rules R80 to R84). -/

namespace Sys2Proof.Machine

open Sys2Proof.Safety

/-! ### The stops -/

/-- A far return in real-address or virtual-8086 mode at every operand size: it is one check over both items, the pop of
the first, in the 16-bit form the test of the target, and the pop of the second. -/
theorem farReturnRealV86_eq (i : RetInstr) (s : State) :
    farReturnRealV86 i s = (do
      refuseIf (i.operandSize = .s64 || i.stackAddressSize = .s64) .operandSize
      checkStack (ctxOf i s) s 0 (2 * i.operandSize.bytes)
      let (ip, s1) ← pop (ctxOf i s) s i.operandSize.bytes
      raiseUnless (i.operandSize ≠ .s16 || withinCsLimit s (truncTo i.operandSize ip)) .gp 0
      let (v, s3) ← pop (ctxOf i s) { s1 with pc := truncTo i.operandSize ip } i.operandSize.bytes
      .ok (releaseRealV86 i (loadSegReal .cs (selectorOf v) s3))) := by
  rcases i with ⟨kind, hasImm, src, os, as⟩
  cases os <;> rfl

/-- A check of the stack faults by `#SS(0)` alone. -/
theorem checkStack_eq_fault {c : StackCtx} {s : State} {k n : Nat} {f : Fault}
    (h : checkStack c s k n = .error (.fault f)) : f = .exception .ss 0 := by
  rcases checkStack_eq_error h with hwrap | hss
  · cases hwrap
  · exact Stop.fault.inj hss

/-- And so does a pop. -/
theorem pop_eq_fault {c : StackCtx} {s : State} {n : Nat} {f : Fault} (h : pop c s n = .error (.fault f)) :
    f = .exception .ss 0 := by
  rcases pop_eq_error h with hwrap | hss | hmem
  · cases hwrap
  · exact Stop.fault.inj hss
  · cases hmem

/-- A far return in real-address or virtual-8086 mode raises `#SS(0)` or `#GP(0)` alone. -/
theorem farReturnRealV86_eq_fault {i : RetInstr} {s : State} {f : Fault}
    (h : farReturnRealV86 i s = .error (.fault f)) : f = .exception .ss 0 ∨ f = .exception .gp 0 := by
  rw [farReturnRealV86_eq] at h
  rcases bind_eq_error.mp h with hsize | ⟨-, -, h⟩
  · cases (refuseIf_eq_error.mp hsize).2
  rcases bind_eq_error.mp h with hcheck | ⟨-, -, h⟩
  · exact .inl (checkStack_eq_fault hcheck)
  rcases bind_eq_error.mp h with hpop | ⟨⟨ip, s1⟩, -, h⟩
  · exact .inl (pop_eq_fault hpop)
  rcases bind_eq_error.mp h with hlimit | ⟨-, -, h⟩
  · exact .inr (Stop.fault.inj (raiseUnless_eq_error.mp hlimit).2)
  rcases bind_eq_error.mp h with hpop | ⟨⟨v, s3⟩, -, h⟩
  · exact .inl (pop_eq_fault hpop)
  · cases h

section

variable {i : RetInstr} {s : State}

/-- Items outside the stack limits are `#SS(0)`. -/
theorem farReturnRealV86_of_outside (hsize : sizesBelow64 i = true)
    (hout : stackOutside (ctxOf i s) s 0 (2 * i.operandSize.bytes) = true) :
    farReturnRealV86 i s = .error (.fault (.exception .ss 0)) := by
  rw [farReturnRealV86_eq, refuseIf_eq_ok (u := ()).mpr (sizesBelow64_iff.mpr hsize), ok_bind, checkStack_of_outside hout]
  rfl

/-- A readable 16-bit item beyond the limit of the code segment in force is `#GP(0)`. -/
theorem farReturnRealV86_of_beyond_limit (hsize : sizesBelow64 i = true)
    (hin : stackWithin (ctxOf i s) s 0 (2 * i.operandSize.bytes) = true)
    (hread : stackReadable (ctxOf i s) s 0 i.operandSize.bytes = true) (h16 : i.operandSize = .s16)
    (hlim : withinCsLimit s (returnIp i s) = false) : farReturnRealV86 i s = .error (.fault (.exception .gp 0)) := by
  have htest : (decide (i.operandSize ≠ .s16) || withinCsLimit s (truncTo i.operandSize
      (stackItem (ctxOf i s) s 0 i.operandSize.bytes))) = false := by
    rw [truncTo_stackItem, Bool.or_eq_false_iff]
    exact ⟨by simp [h16], hlim⟩
  rw [farReturnRealV86_eq, refuseIf_eq_ok (u := ()).mpr (sizesBelow64_iff.mpr hsize), ok_bind,
    checkStack_eq_ok (u := ()).mpr hin, ok_bind, pop_eq_ok.mpr ⟨hread, rfl⟩, ok_bind]
  exact bind_eq_error.mpr (.inl (raiseUnless_eq_error.mpr ⟨htest, rfl⟩))

theorem exec_far_real {i : Instr} (hk : i.record.kind = .far) (hlaunch : s.params.launchable = true)
    (hmode : s.realOrV86 = true) : exec i s = outcome (farReturnRealV86 i.record s) := by
  rw [exec_far hk, perform_of_launchable hlaunch, farReturn_real hmode]

end

/-- Settles O17: one lemma for each fault. -/
theorem farReturnRealV86Faults : Obligations.FarReturnRealV86Faults := by
  intro i s hk hlaunch hmode hsize
  rw [exec_far_real hk hlaunch hmode]
  refine ⟨fun hout => ?_, fun hin hread h16 hlim => ?_⟩
  · rw [farReturnRealV86_of_outside hsize hout]
    rfl
  · rw [farReturnRealV86_of_beyond_limit hsize hin hread h16 hlim]
    rfl

/-! ### A size of 64 outside IA-32e mode -/

theorem refuseIf_size64 {i : RetInstr} (h : i.operandSize = .s64 ∨ i.stackAddressSize = .s64) :
    refuseIf (i.operandSize = .s64 || i.stackAddressSize = .s64) .operandSize = .error (.refused .operandSize) :=
  refuseIf_eq_error.mpr ⟨by rwa [Bool.or_eq_true, decide_eq_true_eq, decide_eq_true_eq], rfl⟩

theorem farReturnRealV86_size64 {i : RetInstr} (s : State) (h : i.operandSize = .s64 ∨ i.stackAddressSize = .s64) :
    farReturnRealV86 i s = .error (.refused .operandSize) := by
  rw [farReturnRealV86_eq, refuseIf_size64 h, error_bind]

theorem farReturnProtected_size64 {i : RetInstr} (s : State) (h : i.operandSize = .s64 ∨ i.stackAddressSize = .s64) :
    farReturnProtected i s = .error (.refused .operandSize) := by
  rw [farReturnProtected, refuseIf_size64 h, error_bind]

/-- Settles O18: both mode classes outside IA-32e mode begin with the refusal. -/
theorem farReturnSize64IsRefusedOutsideIa32e : Obligations.FarReturnSize64IsRefusedOutsideIa32e := by
  intro i s hk hlaunch hmode hsize
  rw [exec_far hk, perform_of_launchable hlaunch]
  rcases mode_cases s with hreal | hprot | hia32e
  · rw [farReturn_real hreal, farReturnRealV86_size64 s hsize]
    rfl
  · rw [farReturn_protected hprot, farReturnProtected_size64 s hsize]
    rfl
  · rw [hia32e] at hmode
    cases hmode

/-! ### The fields it does not read

They are those a near return does not read. Of these it writes the selector of `CS` alone, by the value on the stack. -/

/-- The state with every field replaced that a near return does not read, but the selector of `CS`. -/
def UnreadByNear.putButCs (o : UnreadByNear) (s : State) : State := { o with csSel := s.cs.sel }.put s

section

variable (o : UnreadByNear) (s : State)

/-- A load of `CS` as real-address mode makes it writes the selector and takes the other fields as they are. -/
theorem loadSegReal_cs_put (sel : Selector) :
    loadSegReal .cs sel (o.put s) = { o with csSel := sel }.put (loadSegReal .cs sel s) := rfl

theorem releaseRealV86_cs (i : RetInstr) : (releaseRealV86 i s).cs = s.cs := by
  rw [releaseRealV86_eq, releaseIf_sameButSp s false .s16 i.hasImm i.src]

/-- The end of the return: the replaced selector of `CS` is gone. -/
theorem releaseRealV86_put (i : RetInstr) (sel : Selector) :
    releaseRealV86 i (loadSegReal .cs sel (o.put s)) = o.putButCs (releaseRealV86 i (loadSegReal .cs sel s)) := by
  have hsel : (releaseRealV86 i (loadSegReal .cs sel s)).cs.sel = sel := by rw [releaseRealV86_cs]; rfl
  rw [loadSegReal_cs_put, releaseRealV86_eq, releaseIf_put, ← releaseRealV86_eq, UnreadByNear.putButCs, hsel]

/-- A far return in real-address or virtual-8086 mode from the state with the fields replaced: it stops alike, or leaves
its state with them replaced. -/
theorem farReturnRealV86_put (i : RetInstr) :
    farReturnRealV86 i (o.put s) = (farReturnRealV86 i s).map o.putButCs := by
  refine Alike.eq_map ?_
  rw [farReturnRealV86_eq, farReturnRealV86_eq]
  refine .bind_same rfl fun _ => .bind_same (checkStack_put o s ..) fun _ =>
    (pop_put o s (ctxOf i s) i.operandSize.bytes).bind ?_
  rintro ⟨ip, s1⟩ _ rfl
  refine .bind_same (by rw [withinCsLimit_put]) fun _ =>
    (pop_put o { s1 with pc := truncTo i.operandSize ip } (ctxOf i s) i.operandSize.bytes).bind ?_
  rintro ⟨v, s3⟩ _ rfl
  exact .ok (releaseRealV86_put o s3 i (selectorOf v))

/-- A launch is refused by its parameters alone. -/
theorem perform_map {s t : State} (h : t.params = s.params) (f : State → State) (r : Res State) :
    perform t (r.map f) = mapNext f (perform s r) := by
  rw [perform, perform, h, outcome_map]
  split <;> rfl

theorem exec_far_real_put {i : Instr} (hk : i.record.kind = .far) (hmode : s.realOrV86 = true) :
    exec i (o.put s) = mapNext o.putButCs (exec i s) := by
  have hmode' : (o.put s).realOrV86 = true := hmode
  rw [exec_far hk, exec_far hk, farReturn_real hmode, farReturn_real hmode', farReturnRealV86_put,
    perform_map (put_params o s)]

end

/-- Settles O19: the faults (`farReturnRealV86_eq_fault`), the state a completed return leaves (`realReturned_of_ok`), and
the two runs (`exec_far_real_put`), of which the second begins with the first one's selector of `CS`. -/
theorem farReturnRealV86UsesNoDescriptor : Obligations.FarReturnRealV86UsesNoDescriptor := by
  intro i s hk hmode
  refine ⟨fun f hf => ?_, fun t ht => ?_, fun cpl gdtr ldtr es fs gs ds ssSel => ?_⟩
  · rw [exec_far hk, perform_eq_fault, farReturn_real hmode] at hf
    exact farReturnRealV86_eq_fault hf.2
  · rw [exec_far hk, perform_eq_next, farReturn_real hmode] at ht
    obtain ⟨-, hcs, -, hframe, -⟩ := realReturned_of_ok (src_of_not_hasImm i) ht.2
    refine ⟨?_, ?_, ?_, ?_, ?_, ?_, congrArg SegReg.sel hcs⟩ <;> rw [hframe]
  · exact (exec_far_real_put ⟨cpl, gdtr, ldtr, es, fs, gs, ds, s.cs.sel, ssSel⟩ s hk hmode).trans
      (by cases exec i s <;> rfl)

end Sys2Proof.Machine

/-! The far return to an outer level, and in IA-32e mode at the same level: it completes wherever the claims' condition on
the state holds, and of the completions its meaning has (`farReturnProtected_eq_ok`, `farReturnIa32e_eq_ok`) that condition
leaves one (rules R91 to R96, R97 to R111). -/

namespace Sys2Proof.Machine

open Sys2Proof.Safety

/-- A far form in protected mode completes where it is ready for an outer level, and leaves what a far return to that level
leaves: the completion at the same level needs that level in the selector. -/
theorem exec_far_protected_outer_completes {i : Instr} {s : State} (hk : i.record.kind = .far)
    (h : protectedOuterReady i.record s = true) :
    ∃ t, exec i s = .next t ∧ OuterReturned i.record s t ∧ OuterStackLoaded i.record s t ∧
      OuterSp i.record s (if (descAt s (returnSs i.record s)).db then .s32 else .s16) t.rsp := by
  have hsrc := src_of_not_hasImm i
  obtain ⟨t, ht⟩ := farReturnProtected_outer_completes hsrc h
  simp only [protectedOuterReady, protectedReady, Bool.and_eq_true, decide_eq_true_eq] at h
  obtain ⟨⟨⟨⟨⟨⟨⟨⟨⟨⟨⟨⟨hlaunch, hmode⟩, -⟩, -⟩, -⟩, -⟩, -⟩, -⟩, hlevel⟩, -⟩, -⟩, -⟩, -⟩ := h
  refine ⟨t, ?_, ?_⟩
  · rw [exec_far hk, perform_eq_next, farReturn_protected hmode]
    exact ⟨hlaunch, ht⟩
  · rcases farReturnProtected_eq_ok hsrc hlaunch hmode ht with ⟨hsame, -⟩ | ⟨-, houter⟩
    · simp only [protectedSameReady, Bool.and_eq_true, decide_eq_true_eq] at hsame
      exact absurd hlevel (hsame.2 ▸ BitVec.lt_irrefl _)
    · exact houter

/-- Settles O21: both far forms in protected mode to an outer privilege level. -/
theorem farReturnProtectedOuterLevelCompletes : Obligations.FarReturnProtectedOuterLevelCompletes :=
  fun _ _ _ _ => ⟨exec_far_protected_outer_completes rfl, exec_far_protected_outer_completes rfl⟩

/-! ### The three ways a far return in IA-32e mode can be ready exclude each other -/

section

variable {r : RetInstr} {s : State}

theorem ia32eSameReady_iff : ia32eSameReady r s = true ↔ ia32eReady r s = true ∧ rpl (returnCs r s) = s.cpl := by
  rw [ia32eSameReady, Bool.and_eq_true, decide_eq_true_eq]

theorem ia32eReady_of_outerEntry (h : ia32eOuterEntry r s = true) :
    ia32eReady r s = true ∧ s.cpl < rpl (returnCs r s) := by
  simp only [ia32eOuterEntry, Bool.and_eq_true, decide_eq_true_eq] at h
  obtain ⟨⟨⟨⟨hready, hlevel⟩, -⟩, -⟩, -⟩ := h
  exact ⟨hready, hlevel⟩

theorem ia32eOuterReady_iff : ia32eOuterReady r s = true ↔ ia32eOuterEntry r s = true ∧
    ia32eStackOk s (returnCs r s) (returnSs r s) = true ∧ accessedAdmitted (afterCs r s) (newSs r s) = true := by
  rw [ia32eOuterReady, Bool.and_eq_true, Bool.and_eq_true, and_assoc]

theorem ia32eNullReady_iff : ia32eNullReady r s = true ↔
    ia32eOuterEntry r s = true ∧ nullStackOk s (returnCs r s) (returnSs r s) = true := by
  rw [ia32eNullReady, Bool.and_eq_true]

/-- The level that the return code selector requests is the current one or an outer one. -/
theorem not_outerEntry_of_sameReady (h : ia32eSameReady r s = true) : ¬ia32eOuterEntry r s = true := fun houter =>
  absurd (ia32eReady_of_outerEntry houter).2 ((ia32eSameReady_iff.mp h).2 ▸ BitVec.lt_irrefl _)

theorem isNull_of_nullStackOk {retCS sel : Selector} (h : nullStackOk s retCS sel = true) : isNull sel = true := by
  simp only [nullStackOk, Bool.and_eq_true] at h
  obtain ⟨⟨⟨⟨hnull, -⟩, -⟩, -⟩, -⟩ := h
  exact hnull

theorem isNull_of_ia32eStackOk {retCS sel : Selector} (h : ia32eStackOk s retCS sel = true) : isNull sel = false := by
  simp only [ia32eStackOk, protectedStackOk, Bool.and_eq_true, Bool.not_eq_true'] at h
  obtain ⟨⟨⟨⟨⟨⟨⟨hnull, -⟩, -⟩, -⟩, -⟩, -⟩, -⟩, -⟩ := h
  exact hnull

/-- The return stack selector is NULL or names a descriptor. -/
theorem not_nullReady_of_outerReady (h : ia32eOuterReady r s = true) : ¬ia32eNullReady r s = true := fun hnull =>
  Bool.false_ne_true ((isNull_of_ia32eStackOk (ia32eOuterReady_iff.mp h).2.1).symm.trans
    (isNull_of_nullStackOk (ia32eNullReady_iff.mp hnull).2))

end

/-! ### The completions in IA-32e mode -/

theorem launch_of_ia32eReady {r : RetInstr} {s : State} (h : ia32eReady r s = true) :
    s.params.launchable = true ∧ s.ia32e = true := by
  simp only [ia32eReady, Bool.and_eq_true] at h
  obtain ⟨⟨⟨⟨⟨⟨⟨⟨⟨hlaunch, hmode⟩, -⟩, -⟩, -⟩, -⟩, -⟩, -⟩, -⟩, -⟩ := h
  exact ⟨hlaunch, hmode⟩

/-- A far form that passes the checks of its entry in IA-32e mode has the next states of `farReturnIa32e`. -/
theorem exec_far_ia32e_next {i : Instr} {s t : State} (hk : i.record.kind = .far) (h : ia32eReady i.record s = true)
    (ht : farReturnIa32e i.record s = .ok t) : exec i s = .next t := by
  obtain ⟨hlaunch, hmode⟩ := launch_of_ia32eReady h
  rw [exec_far hk, perform_eq_next, farReturn_ia32e hmode]
  exact ⟨hlaunch, ht⟩

/-- A far form in IA-32e mode completes where it is ready at its level, and leaves what a far return that stays there
leaves. -/
theorem exec_far_ia32e_same_completes {i : Instr} {s : State} (hk : i.record.kind = .far)
    (h : ia32eSameReady i.record s = true) : ∃ t, exec i s = .next t ∧ SameLevelReturned i.record s t := by
  have hready := (ia32eSameReady_iff.mp h).1
  obtain ⟨hlaunch, hmode⟩ := launch_of_ia32eReady hready
  obtain ⟨t, ht⟩ := farReturnIa32e_same_completes h
  refine ⟨t, exec_far_ia32e_next hk hready ht, ?_⟩
  rcases farReturnIa32e_eq_ok (src_of_not_hasImm i) hlaunch hmode ht with ⟨-, hsame⟩ | ⟨houter, -⟩ | ⟨hnull, -⟩
  · exact hsame
  · exact absurd (ia32eOuterReady_iff.mp houter).1 (not_outerEntry_of_sameReady h)
  · exact absurd (ia32eNullReady_iff.mp hnull).1 (not_outerEntry_of_sameReady h)

/-- Settles O26: both far forms in IA-32e mode at the same privilege level. -/
theorem farReturnIa32eSameLevelCompletes : Obligations.FarReturnIa32eSameLevelCompletes :=
  fun _ _ _ _ => ⟨exec_far_ia32e_same_completes rfl, exec_far_ia32e_same_completes rfl⟩

/-- A far form in IA-32e mode completes where it is ready for an outer level with a stack segment from a table, and leaves
what a far return to that level leaves. -/
theorem exec_far_ia32e_outer_completes {i : Instr} {s : State} (hk : i.record.kind = .far)
    (h : ia32eOuterReady i.record s = true) :
    ∃ t, exec i s = .next t ∧ OuterReturned i.record s t ∧ OuterStackLoaded i.record s t ∧
      OuterSp i.record s (if (descAt s (returnCs i.record s)).l then .s64
        else if (descAt s (returnSs i.record s)).db then .s32 else .s16) t.rsp := by
  have hsrc := src_of_not_hasImm i
  obtain ⟨hentry, hstack⟩ := ia32eOuterReady_iff.mp h
  have hready := (ia32eReady_of_outerEntry hentry).1
  obtain ⟨hlaunch, hmode⟩ := launch_of_ia32eReady hready
  obtain ⟨t, ht⟩ := farReturnIa32e_outer_completes hsrc hentry (.inr hstack)
  refine ⟨t, exec_far_ia32e_next hk hready ht, ?_⟩
  rcases farReturnIa32e_eq_ok hsrc hlaunch hmode ht with ⟨hsame, -⟩ | ⟨-, houter⟩ | ⟨hnull, -⟩
  · exact absurd hentry (not_outerEntry_of_sameReady hsame)
  · exact houter
  · exact absurd hnull (not_nullReady_of_outerReady h)

/-- Settles O27: both far forms in IA-32e mode to an outer privilege level. -/
theorem farReturnIa32eOuterLevelCompletes : Obligations.FarReturnIa32eOuterLevelCompletes :=
  fun _ _ _ _ => ⟨exec_far_ia32e_outer_completes rfl, exec_far_ia32e_outer_completes rfl⟩

end Sys2Proof.Machine

/-! The stops of a far return in protected mode, in the order of its checks (rules R84 to R96). -/

namespace Sys2Proof.Machine

open Sys2Proof.Safety

/-! ### A sequence that begins with a check -/

theorem raiseIf_bind {α : Type} (c : Bool) (x : Exception) (e : Selector) (f : Unit → Res α) :
    (raiseIf c x e >>= f) = if c = true then raise x e else f () := by
  cases c <;> rfl

theorem raiseUnless_bind {α : Type} (c : Bool) (x : Exception) (e : Selector) (f : Unit → Res α) :
    (raiseUnless c x e >>= f) = if c = false then raise x e else f () := by
  cases c <;> rfl

theorem readDesc_bind {α : Type} (s : State) (sel : Selector) (f : Descriptor → Res α) :
    (readDesc s sel >>= f) =
      if memAdmit s (descAddr s sel) 8 .tableRead = false then refuse .memory else f (descAt s sel) := by
  rw [readDesc, memRead_eq]
  cases memAdmit s (descAddr s sel) 8 .tableRead <;> rfl

/-- The checks of rule R86 as one chain of cases. -/
theorem protectedCodeDescriptor_eq (s : State) (sel : Selector) :
    protectedCodeDescriptor s sel =
      if isNull sel = true then raise .gp 0
      else if descInTable s sel = false then raise .gp (errorCode sel)
      else if memAdmit s (descAddr s sel) 8 .tableRead = false then refuse .memory
      else if (descAt s sel).isCode = false then raise .gp (errorCode sel)
      else if rpl sel < s.cpl then raise .gp (errorCode sel)
      else if (descAt s sel).conforming = true ∧ rpl sel < (descAt s sel).dpl then raise .gp (errorCode sel)
      else if (descAt s sel).conforming = false ∧ (descAt s sel).dpl ≠ rpl sel then raise .gp (errorCode sel)
      else if (descAt s sel).present = false then raise .np (errorCode sel)
      else .ok (descAt s sel) := by
  simp only [protectedCodeDescriptor, raiseIf_bind, raiseUnless_bind, readDesc_bind, Bool.and_eq_true, decide_eq_true_eq,
    Bool.not_eq_true']

/-- The checks of rule R92 as one chain of cases. -/
theorem protectedStackDescriptor_eq (s : State) (retCS sel : Selector) :
    protectedStackDescriptor s retCS sel =
      if isNull sel = true then raise .gp 0
      else if descInTable s sel = false then raise .gp (errorCode sel)
      else if memAdmit s (descAddr s sel) 8 .tableRead = false then refuse .memory
      else if rpl sel ≠ rpl retCS ∨ (descAt s sel).isWritableData = false ∨ (descAt s sel).dpl ≠ rpl retCS then
        raise .gp (errorCode sel)
      else if (descAt s sel).present = false then raise .ss (errorCode sel)
      else .ok (descAt s sel) := by
  simp only [protectedStackDescriptor, raiseIf_bind, raiseUnless_bind, readDesc_bind, Bool.or_eq_true, decide_eq_true_eq,
    Bool.not_eq_true', or_assoc]

/-! ### How the return stops -/

section

variable {i : RetInstr} {s : State} {stop : Stop} {d : Descriptor}

/-- A second item outside the stack limits is `#SS(0)`, before anything else. -/
theorem farReturnProtected_of_outside (hsize : sizesBelow64 i = true)
    (hout : stackOutside (ctxOf i s) s i.operandSize.bytes i.operandSize.bytes = true) :
    farReturnProtected i s = raise .ss 0 := by
  have hcheck := checkStack_of_outside hout
  rw [ctxOf] at hcheck
  rw [farReturnProtected, refuseIf_eq_ok (u := ()).mpr (sizesBelow64_iff.mpr hsize), ok_bind, hcheck]
  rfl

/-- With the second item readable, the return stops as the checks of its selector do. -/
theorem farReturnProtected_of_code_error (hsize : sizesBelow64 i = true)
    (hread : stackReadable (ctxOf i s) s i.operandSize.bytes i.operandSize.bytes = true)
    (hcode : protectedCodeDescriptor s (returnCs i s) = .error stop) : farReturnProtected i s = .error stop :=
  bind_eq_error.mpr (.inr ⟨(), refuseIf_eq_ok.mpr (sizesBelow64_iff.mpr hsize),
    bind_eq_error.mpr (.inr ⟨(), checkStack_eq_ok.mpr (stackReadable_within hread),
      bind_eq_error.mpr (.inr ⟨_, readSelector_eq_ok.mpr ⟨hread, rfl⟩, bind_eq_error.mpr (.inl hcode)⟩)⟩)⟩)

/-- The items and parameters of a return to an outer level outside the stack limits are `#SS(0)` (rule R91). -/
theorem protectedOuter_of_outside {retCS : Selector}
    (hout : stackOutside (ctxOf i s) s 0 (4 * i.operandSize.bytes + i.src.toNat) = true) :
    protectedOuter (ctxOf i s) i retCS d s = raise .ss 0 := by
  rw [protectedOuter, checkStack_of_outside hout]
  rfl

/-- With the items within the limits and the fourth readable, a return to an outer level stops as the checks of its stack
selector do. -/
theorem protectedOuter_of_stack_error {retCS : Selector}
    (hin : stackWithin (ctxOf i s) s 0 (4 * i.operandSize.bytes + i.src.toNat) = true)
    (hread : stackReadable (ctxOf i s) s (3 * i.operandSize.bytes + i.src.toNat) i.operandSize.bytes = true)
    (hstack : protectedStackDescriptor s retCS (returnSs i s) = .error stop) :
    protectedOuter (ctxOf i s) i retCS d s = .error stop :=
  bind_eq_error.mpr (.inr ⟨(), checkStack_eq_ok.mpr hin,
    bind_eq_error.mpr (.inr ⟨_, readSelector_eq_ok.mpr ⟨hread, rfl⟩, bind_eq_error.mpr (.inl hstack)⟩)⟩)

/-- At an outer level, a target beyond the limit of its segment is `#GP(0)` once the checks of the stack pass. -/
theorem protectedOuter_of_beyond_limit {retCS : Selector}
    (hin : stackWithin (ctxOf i s) s 0 (4 * i.operandSize.bytes + i.src.toNat) = true)
    (hread : stackReadable (ctxOf i s) s (3 * i.operandSize.bytes + i.src.toNat) i.operandSize.bytes = true)
    (hstack : protectedStackOk s retCS (returnSs i s) = true)
    (hread0 : stackReadable (ctxOf i s) s 0 i.operandSize.bytes = true)
    (hlim : withinDescLimit s d (returnIp i s) = false) : protectedOuter (ctxOf i s) i retCS d s = raise .gp 0 :=
  bind_eq_error.mpr (.inr ⟨(), checkStack_eq_ok.mpr hin,
    bind_eq_error.mpr (.inr ⟨_, readSelector_eq_ok.mpr ⟨hread, rfl⟩,
      bind_eq_error.mpr (.inr ⟨_, protectedStackDescriptor_eq_ok.mpr ⟨hstack, rfl⟩,
        bind_eq_error.mpr (.inr ⟨_, stackRead_eq_ok.mpr ⟨hread0, rfl⟩,
          bind_eq_error.mpr (.inl (raiseUnless_eq_error.mpr ⟨hlim, rfl⟩))⟩)⟩)⟩)⟩)

/-- And at the same level. -/
theorem protectedSame_of_beyond_limit (hread0 : stackReadable (ctxOf i s) s 0 i.operandSize.bytes = true)
    (hlim : withinDescLimit s d (returnIp i s) = false) : protectedSame (ctxOf i s) i d s = raise .gp 0 :=
  bind_eq_error.mpr (.inr ⟨_, stackRead_eq_ok.mpr ⟨hread0, rfl⟩,
    bind_eq_error.mpr (.inl (raiseUnless_eq_error.mpr ⟨hlim, rfl⟩))⟩)

theorem exec_far_protected {i : Instr} (hk : i.record.kind = .far) (hlaunch : s.params.launchable = true)
    (hmode : s.protectedMode = true) : exec i s = outcome (farReturnProtected i.record s) := by
  rw [exec_far hk, perform_of_launchable hlaunch, farReturn_protected hmode]

end

/-- Settles O22: past the refusal of a size of 64 the check of the second item is the first. -/
theorem farReturnProtectedChecksSecondItem : Obligations.FarReturnProtectedChecksSecondItem := by
  intro i s hk hlaunch hmode hsize hout
  rw [exec_far_protected hk hlaunch hmode, farReturnProtected_of_outside hsize hout]
  rfl

/-- Settles O23: the statement's chain of cases is that of the checks (`protectedCodeDescriptor_eq`), and the return stops
as they do. -/
theorem farReturnProtectedChecksCodeSelector : Obligations.FarReturnProtectedChecksCodeSelector := by
  intro i s hk hlaunch hmode hsize hread
  have hstop : ∀ stop, protectedCodeDescriptor s (returnCs i.record s) = .error stop →
      exec i s = outcome (.error stop) := fun stop hcode => by
    rw [exec_far_protected hk hlaunch hmode, farReturnProtected_of_code_error hsize hread hcode]
  have hcode := protectedCodeDescriptor_eq s (returnCs i.record s)
  dsimp only
  split_ifs at hcode ⊢
  case neg => exact (protectedCodeDescriptor_eq_ok.mp hcode).1
  all_goals exact hstop _ hcode

/-- Settles O24: past the checks of rule R86 the return is `protectedOuter`, and the statement's chain of cases is that of
the checks of its stack selector (`protectedStackDescriptor_eq`). -/
theorem farReturnProtectedChecksOuterStack : Obligations.FarReturnProtectedChecksOuterStack := by
  intro i s hk hlaunch hmode hsize c n hread hcodeOk hlevel
  have hexec : exec i s = outcome (protectedOuter (ctxOf i.record s) i.record (returnCs i.record s)
      (descAt s (returnCs i.record s)) s) := by
    rw [exec_far_protected hk hlaunch hmode, farReturnProtected_entry hsize hread hcodeOk, if_pos hlevel]
  refine ⟨fun hout => ?_, fun hin hread4 => ?_⟩
  · rw [hexec, protectedOuter_of_outside hout]
    rfl
  · have hstop : ∀ stop, protectedStackDescriptor s (returnCs i.record s) (returnSs i.record s) = .error stop →
        exec i s = outcome (.error stop) := fun stop hstack => by
      rw [hexec, protectedOuter_of_stack_error hin hread4 hstack]
    have hstack := protectedStackDescriptor_eq s (returnCs i.record s) (returnSs i.record s)
    split_ifs at hstack ⊢
    case neg => exact (protectedStackDescriptor_eq_ok.mp hstack).1
    all_goals exact hstop _ hstack

/-- Settles O25: the limit is checked on both ways past the checks of rule R86. -/
theorem farReturnProtectedChecksTarget : Obligations.FarReturnProtectedChecksTarget := by
  intro i s hk hlaunch hmode hsize c n sel hread0 hread hcodeOk hlim hlevel
  rw [exec_far_protected hk hlaunch hmode, farReturnProtected_entry hsize hread hcodeOk]
  rcases hlevel with hsame | ⟨houter, hin, hread4, hstackOk⟩
  · rw [if_neg (hsame ▸ BitVec.lt_irrefl _), protectedSame_of_beyond_limit hread0 hlim]
    rfl
  · rw [if_pos houter, protectedOuter_of_beyond_limit hin hread4 hstackOk hread0 hlim]
    rfl

end Sys2Proof.Machine

/-! No return gains privilege (rules R87, R126). -/

namespace Sys2Proof.Machine

open Sys2Proof.Safety

/-- Settles O39: of the four kinds of completion (`exec_next_cases`) only the one to an outer level writes the level. -/
theorem noReturnGainsPrivilege : Obligations.NoReturnGainsPrivilege := by
  intro i s t h
  have same_level : t.cpl = s.cpl → s.cpl ≤ t.cpl ∧ (t.cpl ≠ s.cpl →
      i.record.kind = .far ∧ s.realOrV86 = false ∧ t.cpl = rpl (returnCs i.record s)) :=
    fun hsame => ⟨BitVec.le_of_eq hsame.symm, fun hne => absurd hsame hne⟩
  rcases exec_next_cases h with ⟨-, -, -, hall, -⟩ | ⟨-, -, -, -, -, hall, -⟩ | ⟨-, -, -, -, -, -, -, hall⟩ |
    ⟨hfar, hmode, hlt, ⟨-, hcpl, -⟩, -⟩
  case inr.inr.inr => exact ⟨BitVec.le_of_lt (hcpl ▸ hlt), fun _ => ⟨hfar, hmode, hcpl⟩⟩
  all_goals exact same_level (by rw [hall])

end Sys2Proof.Machine

/-! The one cause of `#NP` (rules R86, R98, R116): of all the operations of a return, only the last check of the code
segment descriptor raises it. -/

namespace Sys2Proof.Machine

open Sys2Proof.Safety

/-! ### The operations that do not raise `#NP` -/

/-- The faults of a return other than `#NP`. -/
inductive SsOrGp : Fault → Prop
  | ss (sel : Selector) : SsOrGp (.exception .ss (errorCode sel))
  | gp (sel : Selector) : SsOrGp (.exception .gp (errorCode sel))

theorem SsOrGp.ss_zero : SsOrGp (.exception .ss 0) := .ss 0

theorem SsOrGp.gp_zero : SsOrGp (.exception .gp 0) := .gp 0

/-- An operation faults, if at all, by `#SS` or `#GP`. -/
structure FaultsBySsOrGp {α : Type} (r : Res α) : Prop where
  ssOrGp : ∀ f, r = .error (.fault f) → SsOrGp f

section

variable {α β : Type} {r : Res α} {g : α → Res β}

theorem ok_faultsBySsOrGp (a : α) : FaultsBySsOrGp (.ok a : Res α) :=
  ⟨fun _ h => nomatch h⟩

theorem FaultsBySsOrGp.bind (hr : FaultsBySsOrGp r) (hg : ∀ a, FaultsBySsOrGp (g a)) : FaultsBySsOrGp (r >>= g) := by
  refine ⟨fun f h => ?_⟩
  rcases bind_eq_error.mp h with hfirst | ⟨a, -, hsecond⟩
  · exact hr.ssOrGp f hfirst
  · exact (hg a).ssOrGp f hsecond

/-- A sequence whose first operation does not raise `#NP` raises it in the second, after a value of the first. -/
theorem FaultsBySsOrGp.bind_eq_np (hr : FaultsBySsOrGp r) {e : Selector}
    (h : (r >>= g) = .error (.fault (.exception .np e))) :
    ∃ a, r = .ok a ∧ g a = .error (.fault (.exception .np e)) := by
  rcases bind_eq_error.mp h with hfirst | hsecond
  · nomatch hr.ssOrGp _ hfirst
  · exact hsecond

/-- A sequence whose second operation does not raise `#NP` raises it in the first. -/
theorem FaultsBySsOrGp.np_of_bind (hg : ∀ a, FaultsBySsOrGp (g a)) {e : Selector}
    (h : (r >>= g) = .error (.fault (.exception .np e))) : r = .error (.fault (.exception .np e)) := by
  rcases bind_eq_error.mp h with hfirst | ⟨a, -, hsecond⟩
  · exact hfirst
  · nomatch (hg a).ssOrGp _ hsecond

end

theorem raiseIf_faultsBySsOrGp (c : Bool) {x : Exception} {e : Selector} (hx : SsOrGp (.exception x e)) :
    FaultsBySsOrGp (raiseIf c x e) :=
  ⟨fun _ h => Stop.fault.inj (raiseIf_eq_error.mp h).2 ▸ hx⟩

theorem raiseUnless_faultsBySsOrGp (c : Bool) {x : Exception} {e : Selector} (hx : SsOrGp (.exception x e)) :
    FaultsBySsOrGp (raiseUnless c x e) :=
  ⟨fun _ h => Stop.fault.inj (raiseUnless_eq_error.mp h).2 ▸ hx⟩

theorem refuseIf_faultsBySsOrGp (c : Bool) (q : Refusal) : FaultsBySsOrGp (refuseIf c q) :=
  ⟨fun _ h => nomatch (refuseIf_eq_error.mp h).2⟩

theorem checkStack_faultsBySsOrGp (c : StackCtx) (s : State) (k n : Nat) : FaultsBySsOrGp (checkStack c s k n) :=
  ⟨fun _ h => checkStack_eq_fault h ▸ .ss_zero⟩

theorem memRead_faultsBySsOrGp (s : State) (a : Word) (n : Nat) (k : Config.AccessKind) :
    FaultsBySsOrGp (memRead s a n k) :=
  ⟨fun _ h => nomatch memRead_eq_error h⟩

theorem stackRead_faultsBySsOrGp (c : StackCtx) (s : State) (k n : Nat) : FaultsBySsOrGp (stackRead c s k n) :=
  (checkStack_faultsBySsOrGp ..).bind fun _ => memRead_faultsBySsOrGp ..

theorem pop_faultsBySsOrGp (c : StackCtx) (s : State) (n : Nat) : FaultsBySsOrGp (pop c s n) :=
  (stackRead_faultsBySsOrGp ..).bind fun _ => ok_faultsBySsOrGp _

theorem readSelector_faultsBySsOrGp (c : StackCtx) (s : State) (k n : Nat) : FaultsBySsOrGp (readSelector c s k n) :=
  (stackRead_faultsBySsOrGp ..).bind fun _ => ok_faultsBySsOrGp _

theorem readDesc_faultsBySsOrGp (s : State) (sel : Selector) : FaultsBySsOrGp (readDesc s sel) :=
  (memRead_faultsBySsOrGp ..).bind fun _ => ok_faultsBySsOrGp _

theorem loadSegDesc_faultsBySsOrGp (r : SegName) (sel : Selector) (d : Descriptor) (s : State) :
    FaultsBySsOrGp (loadSegDesc r sel d s) :=
  ⟨fun _ h => nomatch loadSegDesc_eq_error h⟩

theorem popCodeSegment_faultsBySsOrGp (c : StackCtx) (n : Nat) (d : Descriptor) (s : State) :
    FaultsBySsOrGp (popCodeSegment c n d s) :=
  (pop_faultsBySsOrGp ..).bind fun _ => (pop_faultsBySsOrGp ..).bind fun _ => loadSegDesc_faultsBySsOrGp ..

theorem popOuterStack_faultsBySsOrGp (c : StackCtx) (n : Nat) (s : State) : FaultsBySsOrGp (popOuterStack c n s) :=
  (pop_faultsBySsOrGp ..).bind fun _ => (pop_faultsBySsOrGp ..).bind fun _ => ok_faultsBySsOrGp _

/-! ### What follows the checks of the code segment -/

theorem protectedSame_faultsBySsOrGp (c : StackCtx) (i : RetInstr) (d : Descriptor) (s : State) :
    FaultsBySsOrGp (protectedSame c i d s) :=
  (stackRead_faultsBySsOrGp ..).bind fun _ => (raiseUnless_faultsBySsOrGp _ .gp_zero).bind fun _ =>
    (popCodeSegment_faultsBySsOrGp ..).bind fun _ => ok_faultsBySsOrGp _

theorem protectedStackDescriptor_faultsBySsOrGp (s : State) (retCS retSS : Selector) :
    FaultsBySsOrGp (protectedStackDescriptor s retCS retSS) :=
  (raiseIf_faultsBySsOrGp _ .gp_zero).bind fun _ => (raiseUnless_faultsBySsOrGp _ (.gp retSS)).bind fun _ =>
    (readDesc_faultsBySsOrGp ..).bind fun _ => (raiseIf_faultsBySsOrGp _ (.gp retSS)).bind fun _ =>
      (raiseUnless_faultsBySsOrGp _ (.ss retSS)).bind fun _ => ok_faultsBySsOrGp _

theorem protectedOuter_faultsBySsOrGp (c : StackCtx) (i : RetInstr) (retCS : Selector) (d : Descriptor) (s : State) :
    FaultsBySsOrGp (protectedOuter c i retCS d s) :=
  (checkStack_faultsBySsOrGp ..).bind fun _ => (readSelector_faultsBySsOrGp ..).bind fun _ =>
    (protectedStackDescriptor_faultsBySsOrGp ..).bind fun _ => (stackRead_faultsBySsOrGp ..).bind fun _ =>
      (raiseUnless_faultsBySsOrGp _ .gp_zero).bind fun _ => (popCodeSegment_faultsBySsOrGp ..).bind fun _ =>
        (popOuterStack_faultsBySsOrGp ..).bind fun _ => (loadSegDesc_faultsBySsOrGp ..).bind fun _ =>
          ok_faultsBySsOrGp _

theorem ia32eEntryChecks_faultsBySsOrGp (c : StackCtx) (os : Size) (s : State) :
    FaultsBySsOrGp (ia32eEntryChecks c os s) := by
  cases os
  case s64 => exact raiseUnless_faultsBySsOrGp _ .ss_zero
  case s16 | s32 => exact (checkStack_faultsBySsOrGp ..).bind fun _ => raiseUnless_faultsBySsOrGp _ .ss_zero

theorem ia32eTargetChecks_faultsBySsOrGp (c : StackCtx) (n : Nat) (d : Descriptor) (s : State) :
    FaultsBySsOrGp (ia32eTargetChecks c n d s) :=
  (stackRead_faultsBySsOrGp ..).bind fun _ => (raiseUnless_faultsBySsOrGp _ .gp_zero).bind fun _ =>
    raiseUnless_faultsBySsOrGp _ .gp_zero

theorem ia32eSame_faultsBySsOrGp (c : StackCtx) (i : RetInstr) (d : Descriptor) (s : State) :
    FaultsBySsOrGp (ia32eSame c i d s) :=
  (ia32eTargetChecks_faultsBySsOrGp ..).bind fun _ => (popCodeSegment_faultsBySsOrGp ..).bind fun _ =>
    ok_faultsBySsOrGp _

theorem ia32eOuterStackChecks_faultsBySsOrGp (c : StackCtx) (i : RetInstr) (s : State) :
    FaultsBySsOrGp (ia32eOuterStackChecks c i s) := by
  unfold ia32eOuterStackChecks
  split
  case h_1 => exact raiseUnless_faultsBySsOrGp _ .ss_zero
  case h_2 => exact (checkStack_faultsBySsOrGp ..).bind fun _ => raiseUnless_faultsBySsOrGp _ .ss_zero

theorem ia32eStackDescriptor_faultsBySsOrGp (s : State) (retCS retSS : Selector) (d : Descriptor) :
    FaultsBySsOrGp (ia32eStackDescriptor s retCS retSS d) := by
  unfold ia32eStackDescriptor
  split
  case isTrue =>
    exact (raiseUnless_faultsBySsOrGp _ (.gp retSS)).bind fun _ => (raiseIf_faultsBySsOrGp _ (.gp retSS)).bind fun _ =>
      (refuseIf_faultsBySsOrGp ..).bind fun _ => (raiseIf_faultsBySsOrGp _ (.gp retSS)).bind fun _ =>
        ok_faultsBySsOrGp _
  case isFalse =>
    exact (raiseUnless_faultsBySsOrGp _ (.gp retSS)).bind fun _ =>
      (raiseUnless_faultsBySsOrGp _ (.gp retSS)).bind fun _ => (readDesc_faultsBySsOrGp ..).bind fun _ =>
        (raiseIf_faultsBySsOrGp _ (.gp retSS)).bind fun _ => (raiseUnless_faultsBySsOrGp _ (.ss retSS)).bind fun _ =>
          ok_faultsBySsOrGp _

theorem loadSs_faultsBySsOrGp (sel : Selector) (ds : Option Descriptor) (s : State) :
    FaultsBySsOrGp (loadSs sel ds s) := by
  cases ds with
  | none => exact ok_faultsBySsOrGp _
  | some d => exact loadSegDesc_faultsBySsOrGp ..

theorem ia32eOuter_faultsBySsOrGp (c : StackCtx) (i : RetInstr) (retCS : Selector) (d : Descriptor) (s : State) :
    FaultsBySsOrGp (ia32eOuter c i retCS d s) :=
  (ia32eOuterStackChecks_faultsBySsOrGp ..).bind fun _ => (readSelector_faultsBySsOrGp ..).bind fun _ =>
    (ia32eStackDescriptor_faultsBySsOrGp ..).bind fun _ => (ia32eTargetChecks_faultsBySsOrGp ..).bind fun _ =>
      (popCodeSegment_faultsBySsOrGp ..).bind fun _ => (popOuterStack_faultsBySsOrGp ..).bind fun _ =>
        (loadSs_faultsBySsOrGp ..).bind fun _ => ok_faultsBySsOrGp _

/-! ### The check that raises it -/

/-- What rule R116 says of a code selector whose check raises `#NP(e)`. -/
structure CodeNotPresent (s : State) (sel : Selector) (e : Selector) : Prop where
  code : e = errorCode sel
  notNull : isNull sel = false
  inTable : descInTable s sel = true
  isCode : (descAt s sel).isCode = true
  level : s.cpl ≤ rpl sel
  conforming : (descAt s sel).conforming = true → (descAt s sel).dpl ≤ rpl sel
  nonConforming : (descAt s sel).conforming = false → (descAt s sel).dpl = rpl sel
  notPresent : (descAt s sel).present = false

section

variable {s : State} {sel e : Selector}

theorem protectedCodeDescriptor_eq_np (h : protectedCodeDescriptor s sel = .error (.fault (.exception .np e))) :
    CodeNotPresent s sel e := by
  rw [protectedCodeDescriptor_eq] at h
  split_ifs at h with hnull htable hadmit hcode hlevel hconf hnonconf hpresent <;> cases h
  exact ⟨rfl, Bool.eq_false_of_not_eq_true hnull, Bool.eq_true_of_not_eq_false htable,
    Bool.eq_true_of_not_eq_false hcode, BitVec.not_lt.mp hlevel, fun hc => BitVec.not_lt.mp fun hlt => hconf ⟨hc, hlt⟩,
    fun hc => by_contra fun hne => hnonconf ⟨hc, hne⟩, hpresent⟩

/-- The checks of rule R98 raise `#NP` where those of rule R86 do: the two that rule R86 does not have raise `#GP`. -/
theorem protectedCodeDescriptor_np_of_ia32e (h : ia32eCodeDescriptor s sel = .error (.fault (.exception .np e))) :
    protectedCodeDescriptor s sel = .error (.fault (.exception .np e)) := by
  obtain ⟨_, hnull, h⟩ := (raiseIf_faultsBySsOrGp _ .gp_zero).bind_eq_np h
  obtain ⟨_, htable, h⟩ := (raiseUnless_faultsBySsOrGp _ (.gp sel)).bind_eq_np h
  obtain ⟨_, -, h⟩ := (raiseUnless_faultsBySsOrGp _ (.gp sel)).bind_eq_np h
  obtain ⟨d, hread, h⟩ := (readDesc_faultsBySsOrGp ..).bind_eq_np h
  obtain ⟨_, hcode, h⟩ := (raiseUnless_faultsBySsOrGp _ (.gp sel)).bind_eq_np h
  obtain ⟨_, -, h⟩ := (raiseIf_faultsBySsOrGp _ (.gp sel)).bind_eq_np h
  rw [protectedCodeDescriptor, hnull, ok_bind, htable, ok_bind, hread, ok_bind, hcode, ok_bind]
  exact h

end

section

variable {i : RetInstr} {s : State} {e : Selector}

theorem farReturnProtected_eq_np (h : farReturnProtected i s = .error (.fault (.exception .np e))) :
    CodeNotPresent s (returnCs i s) e := by
  obtain ⟨_, -, h⟩ := (refuseIf_faultsBySsOrGp ..).bind_eq_np h
  obtain ⟨_, -, h⟩ := (checkStack_faultsBySsOrGp ..).bind_eq_np h
  obtain ⟨retCS, hsel, h⟩ := (readSelector_faultsBySsOrGp ..).bind_eq_np h
  obtain ⟨-, rfl⟩ := readSelector_eq_ok.mp hsel
  refine protectedCodeDescriptor_eq_np (FaultsBySsOrGp.np_of_bind (fun d => ?_) h)
  split
  · exact protectedOuter_faultsBySsOrGp ..
  · exact protectedSame_faultsBySsOrGp ..

theorem farReturnIa32e_eq_np (h : farReturnIa32e i s = .error (.fault (.exception .np e))) :
    CodeNotPresent s (returnCs i s) e := by
  obtain ⟨_, -, h⟩ := (ia32eEntryChecks_faultsBySsOrGp ..).bind_eq_np h
  obtain ⟨retCS, hsel, h⟩ := (readSelector_faultsBySsOrGp ..).bind_eq_np h
  obtain ⟨-, rfl⟩ := readSelector_eq_ok.mp hsel
  refine protectedCodeDescriptor_eq_np
    (protectedCodeDescriptor_np_of_ia32e (FaultsBySsOrGp.np_of_bind (fun d => ?_) h))
  split
  · exact ia32eOuter_faultsBySsOrGp ..
  · exact ia32eSame_faultsBySsOrGp ..

end

/-- The ways `#NP` is raised: by a far return in protected or IA-32e mode, at the check of its code segment. -/
theorem exec_eq_np {i : Instr} {s : State} {e : Selector} (h : exec i s = .fault (.exception .np e)) :
    i.record.kind = .far ∧ s.realOrV86 = false ∧ CodeNotPresent s (returnCs i.record s) e := by
  cases hk : i.record.kind
  case near =>
    rcases nearReturnRaisesNothingElse i s _ hk h with hss | ⟨hgp, -⟩
    · nomatch hss
    · nomatch hgp
  case far =>
    rw [exec_far hk, perform_eq_fault] at h
    obtain ⟨-, h⟩ := h
    rcases mode_cases s with hreal | hprot | hia32e
    · rw [farReturn_real hreal] at h
      rcases farReturnRealV86_eq_fault h with hss | hgp
      · nomatch hss
      · nomatch hgp
    · rw [farReturn_protected hprot] at h
      exact ⟨rfl, realOrV86_of_protected hprot, farReturnProtected_eq_np h⟩
    · rw [farReturn_ia32e hia32e] at h
      exact ⟨rfl, realOrV86_of_ia32e hia32e, farReturnIa32e_eq_np h⟩

/-- Settles O43: the ways `#NP` is raised (`exec_eq_np`), its cause written out. -/
theorem notPresentFaultHasOneCause : Obligations.NotPresentFaultHasOneCause := by
  intro i s e h
  obtain ⟨hfar, hmode, hcode, hnull, htable, hisCode, hlevel, hconf, hnonconf, hpresent⟩ := exec_eq_np h
  exact ⟨hfar, hmode, hcode, hnull, htable, hisCode, hlevel, hconf, hnonconf, hpresent⟩

end Sys2Proof.Machine

/-! The mode after a far return (rules R18, R19, R109): the mode bits stay, and in IA-32e mode the code segment just loaded
gives the sub-mode. With it the completion of a return with a NULL stack selector, which leaves 64-bit mode in force. -/

namespace Sys2Proof.Machine

open Sys2Proof.Safety

/-- Two states agree on the mode bits of rule R18. -/
structure SameModeBits (s t : State) : Prop where
  pe : t.pe = s.pe
  vm : t.vm = s.vm
  lma : t.lma = s.lma

section

variable {r : RetInstr} {s t : State}

theorem SameModeBits.realOrV86 (h : SameModeBits s t) : t.realOrV86 = s.realOrV86 := by
  rw [State.realOrV86, State.realOrV86, h.pe, h.vm]

theorem SameModeBits.protectedMode (h : SameModeBits s t) : t.protectedMode = s.protectedMode := by
  rw [State.protectedMode, State.protectedMode, h.pe, h.vm, h.lma]

theorem SameModeBits.ia32e (h : SameModeBits s t) : t.ia32e = s.ia32e := by
  rw [State.ia32e, State.ia32e, h.pe, h.vm, h.lma]

/-- Where the class stays IA-32e mode, the code segment in force gives the sub-mode. -/
theorem SameModeBits.mode64 (h : SameModeBits s t) (hmode : s.ia32e = true) : t.mode64 = t.cs.hid.l := by
  rw [State.mode64, h.ia32e, hmode, Bool.true_and]

theorem sameModeBits_of_realReturned (h : RealReturned r s t) : SameModeBits s t := by
  obtain ⟨-, -, -, hall, -⟩ := h
  constructor <;> rw [hall]

theorem sameModeBits_of_sameLevelReturned (h : SameLevelReturned r s t) : SameModeBits s t := by
  obtain ⟨-, -, -, -, hall⟩ := h
  constructor <;> rw [hall]

theorem sameModeBits_of_outerReturned (h : OuterReturned r s t) : SameModeBits s t := by
  obtain ⟨-, -, -, -, -, -, -, hall⟩ := h
  constructor <;> rw [hall]

theorem mode64_of_sameLevelReturned (hmode : s.ia32e = true) (h : SameLevelReturned r s t) :
    t.mode64 = (descAt s (returnCs r s)).l := by
  rw [(sameModeBits_of_sameLevelReturned h).mode64 hmode]
  obtain ⟨-, hcs, -⟩ := h
  rw [hcs]
  rfl

theorem mode64_of_outerReturned (hmode : s.ia32e = true) (h : OuterReturned r s t) :
    t.mode64 = (descAt s (returnCs r s)).l := by
  rw [(sameModeBits_of_outerReturned h).mode64 hmode]
  obtain ⟨-, -, hcs, -⟩ := h
  rw [hcs]
  rfl

end

/-- Settles O41: the mode bits and the code segment of each kind of completion of a far return (`exec_next_cases`). -/
theorem farReturnKeepsModeClass : Obligations.FarReturnKeepsModeClass := by
  intro i s t hk hnext
  have classes (hbits : SameModeBits s t) (hsub : s.ia32e = true → t.mode64 = (descAt s (returnCs i.record s)).l) :
      t.realOrV86 = s.realOrV86 ∧ t.protectedMode = s.protectedMode ∧ t.ia32e = s.ia32e ∧
        (s.ia32e = true → t.mode64 = (descAt s (returnCs i.record s)).l) :=
    ⟨hbits.realOrV86, hbits.protectedMode, hbits.ia32e, hsub⟩
  rcases exec_next_cases hnext with ⟨hnear, -⟩ | ⟨-, hreal, h⟩ | ⟨-, -, -, h⟩ | ⟨-, -, -, h, -⟩
  · nomatch hk.symm.trans hnear
  · exact classes (sameModeBits_of_realReturned h) fun hmode => nomatch hreal.symm.trans (realOrV86_of_ia32e hmode)
  · exact classes (sameModeBits_of_sameLevelReturned h) fun hmode => mode64_of_sameLevelReturned hmode h
  · exact classes (sameModeBits_of_outerReturned h) fun hmode => mode64_of_outerReturned hmode h

/-! ### A NULL stack selector under `load-null` -/

theorem l_of_nullStackOk {s : State} {retCS sel : Selector} (h : nullStackOk s retCS sel = true) :
    (descAt s retCS).l = true := by
  simp only [nullStackOk, Bool.and_eq_true] at h
  obtain ⟨⟨⟨⟨-, hl⟩, -⟩, -⟩, -⟩ := h
  exact hl

/-- A far form in IA-32e mode completes where it is ready for an outer level with a NULL stack selector, into 64-bit code,
and leaves what a far return to that level leaves. -/
theorem exec_far_ia32e_null_completes {i : Instr} {s : State} (hk : i.record.kind = .far)
    (h : ia32eNullReady i.record s = true) :
    ∃ t, exec i s = .next t ∧ OuterReturned i.record s t ∧ NullStackLoaded i.record s t ∧
      OuterSp i.record s .s64 t.rsp ∧ t.mode64 = true := by
  have hsrc := src_of_not_hasImm i
  obtain ⟨hentry, hnullOk⟩ := ia32eNullReady_iff.mp h
  have hready := (ia32eReady_of_outerEntry hentry).1
  obtain ⟨hlaunch, hmode⟩ := launch_of_ia32eReady hready
  obtain ⟨t, ht⟩ := farReturnIa32e_outer_completes hsrc hentry (.inl hnullOk)
  refine ⟨t, exec_far_ia32e_next hk hready ht, ?_⟩
  rcases farReturnIa32e_eq_ok hsrc hlaunch hmode ht with ⟨hsame, -⟩ | ⟨houter, -⟩ | ⟨-, hret, hstack, hsp⟩
  · exact absurd hentry (not_outerEntry_of_sameReady hsame)
  · exact absurd h (not_nullReady_of_outerReady houter)
  · exact ⟨hret, hstack, hsp, (mode64_of_outerReturned hmode hret).trans (l_of_nullStackOk hnullOk)⟩

/-- Settles O28: both far forms in IA-32e mode with a NULL stack selector. -/
theorem farReturnIa32eNullStackSelectorCompletes : Obligations.FarReturnIa32eNullStackSelectorCompletes :=
  fun _ _ _ _ => ⟨exec_far_ia32e_null_completes rfl, exec_far_ia32e_null_completes rfl⟩

end Sys2Proof.Machine

/-! The stops of a far return in IA-32e mode, in the order of its checks (rules R97 to R107). -/

namespace Sys2Proof.Machine

open Sys2Proof.Safety

/-! ### The checks of the stack limits and of canonical addresses -/

/-- The check of the stack limits in rules R97, R103 and R104, which 64-bit operands do not have. -/
def limitCheck (os : Size) (c : StackCtx) (s : State) (k n : Nat) : Res Unit :=
  if os = .s64 then .ok () else checkStack c s k n

theorem ia32eEntryChecks_eq (c : StackCtx) (os : Size) (s : State) :
    ia32eEntryChecks c os s = (limitCheck os c s os.bytes os.bytes >>= fun _ =>
      raiseUnless (canonItem c s 0 os.bytes && canonItem c s os.bytes os.bytes) .ss 0) := by
  cases os <;> rfl

theorem ia32eOuterStackChecks_eq (c : StackCtx) (i : RetInstr) (s : State) :
    ia32eOuterStackChecks c i s =
      (limitCheck i.operandSize c s 0 (4 * i.operandSize.bytes + i.src.toNat) >>= fun _ =>
        raiseUnless (canonItem c s 0 (4 * i.operandSize.bytes + i.src.toNat)) .ss 0) := by
  rcases i with ⟨kind, hasImm, src, os, as⟩
  cases os <;> rfl

section

variable {os : Size} {c : StackCtx} {s : State} {k n : Nat}

/-- Bytes outside the stack limits are `#SS(0)`, whatever follows. -/
theorem limitCheck_of_outside (hos : os ≠ .s64) (hout : stackOutside c s k n = true) :
    limitCheck os c s k n = raise .ss 0 := by
  rw [limitCheck, if_neg hos, checkStack_of_outside hout]

theorem limitCheck_eq_ok {u : Unit} : limitCheck os c s k n = .ok u ↔ os = .s64 ∨ stackWithin c s k n = true := by
  unfold limitCheck
  split
  next h64 => exact iff_of_true rfl (.inl h64)
  next hos => rw [checkStack_eq_ok, or_iff_right hos]

/-- Past the check of the limits, bytes at addresses that are not canonical are `#SS(0)`. -/
theorem limitCheck_bind_of_not_canonical {canon : Bool} (hin : os = .s64 ∨ stackWithin c s k n = true)
    (hcanon : canon = false) : (limitCheck os c s k n >>= fun _ => raiseUnless canon .ss 0) = raise .ss 0 := by
  rw [limitCheck_eq_ok (u := ()).mpr hin, ok_bind, hcanon]
  rfl

end

/-! ### The checks of the selectors and of the target -/

/-- An answer given by cases meets what is claimed by the same cases, where each branch of it meets its own claim. -/
theorem ite_of_eq_ite {α : Type} {c : Prop} [Decidable c] {P Q : Prop} {r a b : α} (hpos : r = a → P)
    (hneg : r = b → Q) : r = (if c then a else b) → if c then P else Q := by
  split
  · exact hpos
  · exact hneg

/-- The checks of rule R98 as one chain of cases. -/
theorem ia32eCodeDescriptor_eq (s : State) (sel : Selector) :
    ia32eCodeDescriptor s sel =
      if isNull sel = true then raise .gp 0
      else if descInTable s sel = false then raise .gp (errorCode sel)
      else if canonicalRange s (descAddr s sel) 8 = false then raise .gp (errorCode sel)
      else if memAdmit s (descAddr s sel) 8 .tableRead = false then refuse .memory
      else if (descAt s sel).isCode = false then raise .gp (errorCode sel)
      else if (descAt s sel).l = true ∧ (descAt s sel).db = true then raise .gp (errorCode sel)
      else if rpl sel < s.cpl then raise .gp (errorCode sel)
      else if (descAt s sel).conforming = true ∧ rpl sel < (descAt s sel).dpl then raise .gp (errorCode sel)
      else if (descAt s sel).conforming = false ∧ (descAt s sel).dpl ≠ rpl sel then raise .gp (errorCode sel)
      else if (descAt s sel).present = false then raise .np (errorCode sel)
      else .ok (descAt s sel) := by
  simp only [ia32eCodeDescriptor, raiseIf_bind, raiseUnless_bind, readDesc_bind, Bool.and_eq_true, decide_eq_true_eq,
    Bool.not_eq_true']

theorem refuseIf_bind {α : Type} (c : Bool) (q : Refusal) (f : Unit → Res α) :
    (refuseIf c q >>= f) = if c = true then refuse q else f () := by
  cases c <;> rfl

/-- The checks of rules R105 and R106 as one chain of cases. -/
theorem ia32eStackDescriptor_eq (s : State) (retCS sel : Selector) (d : Descriptor) :
    ia32eStackDescriptor s retCS sel d =
      if isNull sel = true then
        if d.l = false then raise .gp (errorCode sel)
        else if rpl sel = 3 then raise .gp (errorCode sel)
        else if s.params.nullSs = .refuse then refuse .nullStackSelector
        else if rpl sel ≠ rpl retCS then raise .gp (errorCode sel)
        else .ok none
      else if descInTable s sel = false then raise .gp (errorCode sel)
      else if canonicalRange s (descAddr s sel) 8 = false then raise .gp (errorCode sel)
      else if memAdmit s (descAddr s sel) 8 .tableRead = false then refuse .memory
      else if rpl sel ≠ rpl retCS ∨ (descAt s sel).isWritableData = false ∨ (descAt s sel).dpl ≠ rpl retCS then
        raise .gp (errorCode sel)
      else if (descAt s sel).present = false then raise .ss (errorCode sel)
      else .ok (some (descAt s sel)) := by
  simp only [ia32eStackDescriptor, raiseIf_bind, raiseUnless_bind, refuseIf_bind, readDesc_bind, Bool.or_eq_true,
    decide_eq_true_eq, Bool.not_eq_true', or_assoc]

/-- A readable target that is beyond the limit of its segment or not canonical is `#GP(0)`. -/
theorem ia32eTargetChecks_of_bad_target {c : StackCtx} {n : Nat} {d : Descriptor} {s : State}
    (hread : stackReadable c s 0 n = true)
    (hbad : withinDescLimit s d (stackItem c s 0 n) = false ∨ canonical s (stackItem c s 0 n) = false) :
    ia32eTargetChecks c n d s = raise .gp 0 := by
  rw [ia32eTargetChecks, stackRead_eq_ok.mpr ⟨hread, rfl⟩, ok_bind, raiseUnless_bind]
  split_ifs with hlim
  · rfl
  · rw [hbad.resolve_left hlim]
    rfl

/-! ### How the return stops -/

section

variable {i : RetInstr} {s : State} {stop : Stop} {d : Descriptor} {retCS : Selector}

theorem farReturnIa32e_of_entry_error (hentry : ia32eEntryChecks (ctxOf i s) i.operandSize s = .error stop) :
    farReturnIa32e i s = .error stop :=
  bind_eq_error.mpr (.inl hentry)

/-- Past the checks of rule R97, with the second item readable, the return stops as the checks of its selector do. -/
theorem farReturnIa32e_of_code_error (hcanon0 : canonItem (ctxOf i s) s 0 i.operandSize.bytes = true)
    (hcanon : canonItem (ctxOf i s) s i.operandSize.bytes i.operandSize.bytes = true)
    (hread : stackReadable (ctxOf i s) s i.operandSize.bytes i.operandSize.bytes = true)
    (hcode : ia32eCodeDescriptor s (returnCs i s) = .error stop) : farReturnIa32e i s = .error stop :=
  bind_eq_error.mpr (.inr ⟨(), ia32eEntryChecks_eq_ok.mpr ⟨.inr (stackReadable_within hread), hcanon0, hcanon⟩,
    bind_eq_error.mpr (.inr ⟨_, readSelector_eq_ok.mpr ⟨hread, rfl⟩, bind_eq_error.mpr (.inl hcode)⟩)⟩)

theorem ia32eOuter_of_size_error (hsize : ia32eOuterStackChecks (ctxOf i s) i s = .error stop) :
    ia32eOuter (ctxOf i s) i retCS d s = .error stop :=
  bind_eq_error.mpr (.inl hsize)

/-- Past the stack size checks, with the fourth item readable, a return to an outer level stops as the checks of its stack
selector do. -/
theorem ia32eOuter_of_stack_error (hsize : ia32eOuterStackChecks (ctxOf i s) i s = .ok ())
    (hread : stackReadable (ctxOf i s) s (3 * i.operandSize.bytes + i.src.toNat) i.operandSize.bytes = true)
    (hstack : ia32eStackDescriptor s retCS (returnSs i s) d = .error stop) :
    ia32eOuter (ctxOf i s) i retCS d s = .error stop :=
  bind_eq_error.mpr (.inr ⟨(), hsize,
    bind_eq_error.mpr (.inr ⟨_, readSelector_eq_ok.mpr ⟨hread, rfl⟩, bind_eq_error.mpr (.inl hstack)⟩)⟩)

/-- And past these, as the checks of its target do. -/
theorem ia32eOuter_of_target_error {ds : Option Descriptor} (hsize : ia32eOuterStackChecks (ctxOf i s) i s = .ok ())
    (hread : stackReadable (ctxOf i s) s (3 * i.operandSize.bytes + i.src.toNat) i.operandSize.bytes = true)
    (hstack : ia32eStackDescriptor s retCS (returnSs i s) d = .ok ds)
    (htarget : ia32eTargetChecks (ctxOf i s) i.operandSize.bytes d s = .error stop) :
    ia32eOuter (ctxOf i s) i retCS d s = .error stop :=
  bind_eq_error.mpr (.inr ⟨(), hsize,
    bind_eq_error.mpr (.inr ⟨_, readSelector_eq_ok.mpr ⟨hread, rfl⟩,
      bind_eq_error.mpr (.inr ⟨ds, hstack, bind_eq_error.mpr (.inl htarget)⟩)⟩)⟩)

theorem ia32eSame_of_target_error (htarget : ia32eTargetChecks (ctxOf i s) i.operandSize.bytes d s = .error stop) :
    ia32eSame (ctxOf i s) i d s = .error stop :=
  bind_eq_error.mpr (.inl htarget)

theorem nullStackOk_of_eq_none {sel : Selector}
    (h : ia32eStackDescriptor s retCS sel (descAt s retCS) = .ok none) : nullStackOk s retCS sel = true := by
  rcases ia32eStackDescriptor_eq_ok.mp h with ⟨hnull, -⟩ | ⟨-, hsome⟩
  · exact hnull
  · nomatch hsome

theorem ia32eStackOk_of_eq_some {sel : Selector}
    (h : ia32eStackDescriptor s retCS sel (descAt s retCS) = .ok (some d)) : ia32eStackOk s retCS sel = true := by
  rcases ia32eStackDescriptor_eq_ok.mp h with ⟨-, hnone⟩ | ⟨hok, -⟩
  · nomatch hnone
  · exact hok

theorem ia32eStackDescriptor_completes {sel : Selector}
    (h : ia32eStackOk s retCS sel = true ∨ nullStackOk s retCS sel = true) :
    ∃ ds, ia32eStackDescriptor s retCS sel (descAt s retCS) = .ok ds := by
  rcases h with hok | hnull
  · exact ⟨_, ia32eStackDescriptor_eq_ok.mpr (.inr ⟨hok, rfl⟩)⟩
  · exact ⟨_, ia32eStackDescriptor_eq_ok.mpr (.inl ⟨hnull, rfl⟩)⟩

end

section

variable {i : Instr} {s : State} (hk : i.record.kind = .far) (hlaunch : s.params.launchable = true)
  (hmode : s.ia32e = true)
include hk hlaunch hmode

theorem exec_far_ia32e : exec i s = outcome (farReturnIa32e i.record s) := by
  rw [exec_far hk, perform_of_launchable hlaunch, farReturn_ia32e hmode]

/-- Past the checks of rule R98, a return to a less privileged level is `ia32eOuter`. -/
theorem exec_far_ia32e_outer (hcanon0 : canonItem (ctxOf i.record s) s 0 i.record.operandSize.bytes = true)
    (hcanon : canonItem (ctxOf i.record s) s i.record.operandSize.bytes i.record.operandSize.bytes = true)
    (hread : stackReadable (ctxOf i.record s) s i.record.operandSize.bytes i.record.operandSize.bytes = true)
    (hcodeOk : ia32eCodeOk s (returnCs i.record s) = true) (hlevel : s.cpl < rpl (returnCs i.record s)) :
    exec i s = outcome (ia32eOuter (ctxOf i.record s) i.record (returnCs i.record s)
      (descAt s (returnCs i.record s)) s) := by
  rw [exec_far_ia32e hk hlaunch hmode, farReturnIa32e_entry hcanon0 hcanon hread hcodeOk, if_pos hlevel]

end

/-- Settles O29: the two faults of the entry checks. -/
theorem farReturnIa32eChecksFirstItems : Obligations.FarReturnIa32eChecksFirstItems := by
  intro i s hk hlaunch hmode c n
  have hstop (hentry : ia32eEntryChecks c i.record.operandSize s = raise .ss 0) :
      exec i s = .fault (.exception .ss 0) := by
    rw [exec_far_ia32e hk hlaunch hmode, farReturnIa32e_of_entry_error hentry]
    rfl
  refine ⟨fun hos hout => hstop ?_, fun hin hcanon => hstop ?_⟩
  · rw [ia32eEntryChecks_eq, limitCheck_of_outside hos hout]
    rfl
  · rw [ia32eEntryChecks_eq, limitCheck_bind_of_not_canonical hin (Bool.and_eq_false_iff.mpr hcanon)]

/-- Settles O30: the statement's chain of cases is that of the checks (`ia32eCodeDescriptor_eq`), and the return stops as
they do. -/
theorem farReturnIa32eChecksCodeSelector : Obligations.FarReturnIa32eChecksCodeSelector := by
  intro i s hk hlaunch hmode c n hcanon0 hcanon hread
  have hstop : ∀ stop, ia32eCodeDescriptor s (returnCs i.record s) = .error stop →
      exec i s = outcome (.error stop) := fun stop hcode => by
    rw [exec_far_ia32e hk hlaunch hmode, farReturnIa32e_of_code_error hcanon0 hcanon hread hcode]
  refine ite_of_eq_ite (hstop _) ?_ (ia32eCodeDescriptor_eq s (returnCs i.record s))
  repeat refine ite_of_eq_ite (hstop _) ?_
  exact fun hpass => (ia32eCodeDescriptor_eq_ok.mp hpass).1

/-- Settles O31: the two faults of the stack size checks. -/
theorem farReturnIa32eChecksOuterStackSize : Obligations.FarReturnIa32eChecksOuterStackSize := by
  intro i s hk hlaunch hmode c n m hcanon0 hcanon hread hcodeOk hlevel
  have hstop (hsize : ia32eOuterStackChecks c i.record s = raise .ss 0) : exec i s = .fault (.exception .ss 0) := by
    rw [exec_far_ia32e_outer hk hlaunch hmode hcanon0 hcanon hread hcodeOk hlevel, ia32eOuter_of_size_error hsize]
    rfl
  refine ⟨fun hos hout => hstop ?_, fun hin hcanonAll => hstop ?_⟩
  · rw [ia32eOuterStackChecks_eq, limitCheck_of_outside hos hout]
    rfl
  · rw [ia32eOuterStackChecks_eq, limitCheck_bind_of_not_canonical hin hcanonAll]

/-- Settles O32: the statement's chain of cases is that of the checks of the stack selector (`ia32eStackDescriptor_eq`),
and the return stops as they do. -/
theorem farReturnIa32eChecksStackSelector : Obligations.FarReturnIa32eChecksStackSelector := by
  intro i s hk hlaunch hmode c n m hcanon0 hcanon hread hcodeOk hlevel hin hcanonAll hread4
  have hsize := ia32eOuterStackChecks_eq_ok (u := ()).mpr ⟨hin, hcanonAll⟩
  have hstop : ∀ stop, ia32eStackDescriptor s (returnCs i.record s) (returnSs i.record s)
      (descAt s (returnCs i.record s)) = .error stop → exec i s = outcome (.error stop) := fun stop hstack => by
    rw [exec_far_ia32e_outer hk hlaunch hmode hcanon0 hcanon hread hcodeOk hlevel,
      ia32eOuter_of_stack_error hsize hread4 hstack]
  refine ite_of_eq_ite ?null ?fromTable
    (ia32eStackDescriptor_eq s (returnCs i.record s) (returnSs i.record s) (descAt s (returnCs i.record s)))
  case null =>
    repeat refine ite_of_eq_ite (hstop _) ?_
    exact nullStackOk_of_eq_none
  case fromTable =>
    repeat refine ite_of_eq_ite (hstop _) ?_
    exact ia32eStackOk_of_eq_some

/-- Settles O33: the checks of the target on both ways past the checks of rule R98. -/
theorem farReturnIa32eChecksTarget : Obligations.FarReturnIa32eChecksTarget := by
  intro i s hk hlaunch hmode c n m sel hcanon0 hcanon hread0 hread hcodeOk hbad hlevel
  have htarget := ia32eTargetChecks_of_bad_target hread0 hbad
  rcases hlevel with hsame | ⟨houter, hin, hcanonAll, hread4, hstackOk⟩
  · rw [exec_far_ia32e hk hlaunch hmode, farReturnIa32e_entry hcanon0 hcanon hread hcodeOk,
      if_neg (hsame ▸ BitVec.lt_irrefl _), ia32eSame_of_target_error htarget]
    rfl
  · have hsize := ia32eOuterStackChecks_eq_ok (u := ()).mpr ⟨hin, hcanonAll⟩
    obtain ⟨ds, hstack⟩ := ia32eStackDescriptor_completes hstackOk
    rw [exec_far_ia32e_outer hk hlaunch hmode hcanon0 hcanon hread hcodeOk houter,
      ia32eOuter_of_target_error hsize hread4 hstack htarget]
    rfl

end Sys2Proof.Machine

/-! The error codes of the faults of a return (rules R113, R117): every exception it raises carries the error code of a
selector, the code zero being that of a NULL one. -/

namespace Sys2Proof.Machine

/-! ### The error code of a selector -/

/-- The mask of rule R117 keeps the high 14 bits and clears the two low ones. -/
theorem errorCode_eq_append (sel : Selector) : errorCode sel = sel.extractLsb' 2 14 ++ 0#2 :=
  calc errorCode sel
      = (sel.extractLsb' 2 14 ++ sel.extractLsb' 0 2) &&& (BitVec.allOnes 14 ++ 0#2) := by rw [high_append_low]; rfl
    _ = sel.extractLsb' 2 14 ++ 0#2 := by rw [BitVec.and_append, BitVec.and_allOnes, BitVec.and_zero]

theorem errorCode_toNat (sel : Selector) : (errorCode sel).toNat = sel.toNat / 4 * 4 := by
  rw [errorCode_eq_append, toNat_append, toNat_extractLsb', BitVec.toNat_ofNat]
  have := sel.isLt
  omega

/-- Settles O52: the selector in numbers, and a NULL one is below 4. -/
theorem errorCodes : Obligations.ErrorCodes := by
  refine fun sel => ⟨errorCode_toNat sel, fun hnull => BitVec.eq_of_toNat_eq ?_⟩
  rw [errorCode_toNat, Nat.div_eq_of_lt (isNull_iff_lt.mp hnull)]
  rfl

theorem errorCode_and_three (sel : Selector) : errorCode sel &&& 3 = 0 := by
  rw [errorCode, BitVec.and_assoc]
  exact BitVec.and_zero

/-! ### The faults of an instruction -/

/-- The faults that are an exception with the error code of a selector. -/
inductive HasErrorCode : Fault → Prop
  | ofSelector (x : Exception) (sel : Selector) : HasErrorCode (.exception x (errorCode sel))

theorem SsOrGp.hasErrorCode {f : Fault} (h : SsOrGp f) : HasErrorCode f := by
  cases h with
  | ss sel => exact .ofSelector .ss sel
  | gp sel => exact .ofSelector .gp sel

/-- An operation faults, if at all, by an exception with the error code of a selector. -/
structure FaultsWithErrorCode {α : Type} (r : Res α) : Prop where
  hasErrorCode : ∀ f, r = .error (.fault f) → HasErrorCode f

section

variable {α β : Type} {r : Res α} {g : α → Res β}

theorem FaultsBySsOrGp.withErrorCode (hr : FaultsBySsOrGp r) : FaultsWithErrorCode r :=
  ⟨fun f h => (hr.ssOrGp f h).hasErrorCode⟩

theorem FaultsWithErrorCode.bind (hr : FaultsWithErrorCode r) (hg : ∀ a, FaultsWithErrorCode (g a)) :
    FaultsWithErrorCode (r >>= g) := by
  refine ⟨fun f h => ?_⟩
  rcases bind_eq_error.mp h with hfirst | ⟨a, -, hsecond⟩
  · exact hr.hasErrorCode f hfirst
  · exact (hg a).hasErrorCode f hsecond

end

/-- The checks of rule R86 raise `#GP(0)`, `#GP(selector)` and, the last of them, `#NP(selector)`. -/
theorem protectedCodeDescriptor_faultsWithErrorCode (s : State) (sel : Selector) :
    FaultsWithErrorCode (protectedCodeDescriptor s sel) := by
  refine ⟨fun f h => ?_⟩
  rw [protectedCodeDescriptor_eq] at h
  split_ifs at h <;> cases h
  case pos => exact SsOrGp.gp_zero.hasErrorCode
  all_goals exact .ofSelector _ sel

/-- And so do those of rule R98. -/
theorem ia32eCodeDescriptor_faultsWithErrorCode (s : State) (sel : Selector) :
    FaultsWithErrorCode (ia32eCodeDescriptor s sel) := by
  refine ⟨fun f h => ?_⟩
  rw [ia32eCodeDescriptor_eq] at h
  split_ifs at h <;> cases h
  case pos => exact SsOrGp.gp_zero.hasErrorCode
  all_goals exact .ofSelector _ sel

theorem nearReturn_faultsBySsOrGp (i : RetInstr) (s : State) : FaultsBySsOrGp (nearReturn i s) := by
  refine ⟨fun f h => ?_⟩
  rcases nearReturn_eq_error h with hwrap | hmem | hss | ⟨hgp, -⟩
  · cases hwrap
  · cases hmem
  · exact Stop.fault.inj hss ▸ .ss_zero
  · exact Stop.fault.inj hgp ▸ .gp_zero

theorem farReturnRealV86_faultsBySsOrGp (i : RetInstr) (s : State) : FaultsBySsOrGp (farReturnRealV86 i s) := by
  refine ⟨fun f h => ?_⟩
  rcases farReturnRealV86_eq_fault h with rfl | rfl
  · exact .ss_zero
  · exact .gp_zero

theorem farReturnProtected_faultsWithErrorCode (i : RetInstr) (s : State) :
    FaultsWithErrorCode (farReturnProtected i s) := by
  refine (refuseIf_faultsBySsOrGp ..).withErrorCode.bind fun _ =>
    (checkStack_faultsBySsOrGp ..).withErrorCode.bind fun _ =>
      (readSelector_faultsBySsOrGp ..).withErrorCode.bind fun retCS =>
        (protectedCodeDescriptor_faultsWithErrorCode s retCS).bind fun d => ?_
  split
  · exact (protectedOuter_faultsBySsOrGp ..).withErrorCode
  · exact (protectedSame_faultsBySsOrGp ..).withErrorCode

theorem farReturnIa32e_faultsWithErrorCode (i : RetInstr) (s : State) :
    FaultsWithErrorCode (farReturnIa32e i s) := by
  refine (ia32eEntryChecks_faultsBySsOrGp ..).withErrorCode.bind fun _ =>
    (readSelector_faultsBySsOrGp ..).withErrorCode.bind fun retCS =>
      (ia32eCodeDescriptor_faultsWithErrorCode s retCS).bind fun d => ?_
  split
  · exact (ia32eOuter_faultsBySsOrGp ..).withErrorCode
  · exact (ia32eSame_faultsBySsOrGp ..).withErrorCode

theorem farReturn_faultsWithErrorCode (i : RetInstr) (s : State) : FaultsWithErrorCode (farReturn i s) := by
  rcases mode_cases s with hreal | hprot | hia32e
  · rw [farReturn_real hreal]
    exact (farReturnRealV86_faultsBySsOrGp i s).withErrorCode
  · rw [farReturn_protected hprot]
    exact farReturnProtected_faultsWithErrorCode i s
  · rw [farReturn_ia32e hia32e]
    exact farReturnIa32e_faultsWithErrorCode i s

theorem hasErrorCode_of_exec_fault {i : Instr} {s : State} {f : Fault} (h : exec i s = .fault f) : HasErrorCode f := by
  cases hk : i.record.kind
  case near =>
    rw [exec_near hk, perform_eq_fault] at h
    exact (nearReturn_faultsBySsOrGp i.record s).withErrorCode.hasErrorCode f h.2
  case far =>
    rw [exec_far hk, perform_eq_fault] at h
    exact (farReturn_faultsWithErrorCode i.record s).hasErrorCode f h.2

/-- Settles O42: every fault carries the error code of a selector (`hasErrorCode_of_exec_fault`), whose low bits the
mask clears. -/
theorem faultsAreExceptionsWithErrorCodes : Obligations.FaultsAreExceptionsWithErrorCodes := by
  intro i s f h
  obtain ⟨x, sel⟩ := hasErrorCode_of_exec_fault h
  exact ⟨x, errorCode sel, rfl, errorCode_and_three sel⟩

end Sys2Proof.Machine
